-- ==== Sys2Proof/Word.lean ====
section
/-! DEFINITION. The widths of the unit's values (00_scope.md R5, R9; 20_memory.md R32). -/

namespace Sys2Proof

/-- A field element or a byte: unsigned, 8 bits (R9, R10: bit `i` is the coefficient of `x^i`). -/
abbrev Byte := BitVec 8

/-- A command word, a control register, the host port's data (R47, R15 to R21, R32). -/
abbrev Word := BitVec 32

/-- A byte address of the unit address space (R33). -/
abbrev Addr := BitVec 16

/-- A register number, naming `g0` .. `g15` (R50). -/
abbrev RegNum := BitVec 4

end Sys2Proof
end

