-- ==== Sys2Proof/Config.lean ====
section
/-! DEFINITION. What an implementation of the unit fixes: the identity word, the derivation label, and the one open function the
results of a command depend on. `LAT`, `RESET_CLEAR` and `HASH_WAIT` (R6) are no constants here: no observable depends on them, and
the model takes them as data, from where the unit's turns stand in `State.inputs` (assumption log, entries 1 and 2). -/

namespace Sys2Proof

/-- The identity register's hardwired value: "GF", version 7 (R1, R15). -/
def Config.idValue : Word := 0x47460007#32

/-- The function behind the hash-pipeline port, of key and message, 32 bytes with the digest's first byte first (R6, R44). It is
OPEN: no body, so nothing proved of the model leans on a value of it, and a ROM in place of the pipeline (R46) is covered as well.
DESIGN CHOICE, safe: assumption log, entry 3. -/
opaque Config.hmacSha256 : List Byte → List Byte → Vector Byte 32

/-- The derivation label, ASCII `secret-sharing-coefficient`, 26 bytes (R75). -/
def Config.label : List Byte :=
  [0x73, 0x65, 0x63, 0x72, 0x65, 0x74, 0x2d, 0x73, 0x68, 0x61, 0x72, 0x69, 0x6e] ++
  [0x67, 0x2d, 0x63, 0x6f, 0x65, 0x66, 0x66, 0x69, 0x63, 0x69, 0x65, 0x6e, 0x74]

/-- The secret lengths B the unit accepts (R5). -/
def Config.allowedLengths : List Nat := [16, 20, 24, 28, 32]

end Sys2Proof
end

