-- ==== Sys2Proof/Machine/State.lean ====
section
/-! DEFINITION. The machine state as plain data (10_state.md; 20_memory.md R32, R33, R44), why a step could stop, and the state
after reset (70_reset_and_hazards.md R107). -/

namespace Sys2Proof.Machine

/-- The bytes of the memory windows X, L, R, SID, C and Y (R33), by unit address: addresses strictly rising, no entry equal to
0x00, the reset value an unlisted byte reads as (R107). -/
abbrev Memory := List Host.Cell

/-- The result codes of `STATUS.ERR` (R92); codes 8..15 are never produced, so they have no constructor. -/
inductive ErrCode where
  /-- 0, None. -/
  | success
  /-- 1: CFG_B not allowed, CFG_N = 0, CFG_T = 0, or CFG_T > CFG_N (sharing only). -/
  | invalidSize
  /-- 2: a used share index is 0. -/
  | invalidShareIndex
  /-- 3: two used share indices are equal. -/
  | duplicateShareIndex
  /-- 4: NOTHRESH = 0 and CFG_K < CFG_T. -/
  | insufficientShares
  /-- 5: VERIFY's reconstruction differs from row 0. -/
  | internalFailure
  /-- 6: reserved opcode or nonzero reserved field. -/
  | illegalCommand
  /-- 7: GLD/GST address not in a data window. -/
  | badAddress
deriving DecidableEq, Repr

/-- A derivation request on the hash-pipeline port (R44). -/
structure HashReq where
  key : List Byte
  msg : List Byte
deriving DecidableEq, Repr

/-- A command in EXEC: its word, `CTRL.NOTHRESH` as read at acceptance (R111), and its hidden progress on the hash port (R31):
how many requests are answered, and the outstanding one, if any (R45). -/
structure Running where
  word : Word
  nothresh : Bool
  hashDone : Nat
  hashReq : Option HashReq
deriving DecidableEq, Repr

/-- The unit is in exactly one of three states (R30). -/
inductive UnitState where
  | idle
  | exec (r : Running)
  | clear
deriving DecidableEq, Repr

/-- A host port response code (R32). -/
inductive Resp where
  | ok
  | err
deriving DecidableEq, Repr

/-- What the host port answers to one transaction (R32). -/
inductive HostAnswer where
  | read (data : Word) (resp : Resp)
  | write (resp : Resp)
deriving DecidableEq, Repr

/-- What stands outside the unit, one event each, in the total order of R40 (assumption log, entry 1). -/
inductive Input where
  /-- A host port read (R32). -/
  | read (addr : Addr) (width : Nat)
  /-- A host port write (R32). -/
  | write (addr : Addr) (width : Nat) (data : Word)
  /-- The `rst` input takes this level (R105). -/
  | rst (level : Bool)
  /-- From here on the hash pipeline answers, or does not (R46). -/
  | pipeline (up : Bool)
  /-- The unit, or the pipeline it waits for, makes its next move before the next input. -/
  | turn
deriving DecidableEq, Repr

structure State where
  /-- General registers g0..g15 (R13). -/
  g : Vector Byte 16
  /-- The memory windows X, L, R, SID, C and Y (R23 to R28, R33). -/
  mem : Memory
  /-- `CTRL.IE` (R16). -/
  ie : Bool
  /-- `CTRL.NOTHRESH` (R16). -/
  nothresh : Bool
  /-- `STATUS.DONE` (R17). -/
  done : Bool
  /-- `STATUS.OVR` (R17). -/
  ovr : Bool
  /-- `STATUS.INVZ` (R17). -/
  invz : Bool
  /-- `STATUS.ERR` (R17, R92). -/
  err : ErrCode
  /-- CFG_B, the secret length (R19). -/
  cfgB : Byte
  /-- CFG_N, the number of shares (R19). -/
  cfgN : Byte
  /-- CFG_T, the threshold (R19). -/
  cfgT : Byte
  /-- CFG_K, the number of slots RECON uses (R19). -/
  cfgK : Byte
  /-- SIDLEN (R19). -/
  sidLen : Byte
  /-- CCNT, the accepted commands modulo 2^32 (R20). -/
  ccnt : Word
  /-- CMDLOG, the last accepted word (R21). -/
  cmdlog : Word
  /-- IDLE, EXEC(w) or CLEAR (R30). -/
  unit : UnitState
  /-- The level of the `rst` input (R105). -/
  rst : Bool
  /-- The model's own: the hash pipeline answers (R46; assumption log, entry 4). -/
  hashUp : Bool
  /-- The model's own: what the outside does next, oldest first (assumption log, entry 1). -/
  inputs : List Input
  /-- The model's own: the host port's answers so far, newest first (assumption log, entry 6). -/
  responses : List HostAnswer
deriving DecidableEq, Repr

/-- Why the machine could stop with a fault: never. The unit has no traps (R98), a failing command completes with a code (R94), and
every host access is answered (R37, R38), so there is no constructor (DEDUCED, safe: assumption log, entry 14). -/
inductive Fault
deriving DecidableEq, Repr

/-- Why an instruction could have no meaning. -/
inductive Refusal where
  /-- Raised only by an arm of `exec` whose instruction has no meaning yet (no arm does): safe. -/
  | notModelled (mnemonic : String)
deriving DecidableEq, Repr

/-- The machine right after reset: `rst` has been released and the unit has entered CLEAR (R105, R107). -/
def State.reset : State where
  g := Vector.replicate 16 0
  mem := []
  ie := false
  nothresh := false
  done := false
  ovr := false
  invz := false
  err := .success
  cfgB := 0
  cfgN := 0
  cfgT := 0
  cfgK := 0
  sidLen := 0
  ccnt := 0
  cmdlog := 0
  unit := .clear
  rst := false
  hashUp := true
  inputs := []
  responses := []

end Sys2Proof.Machine
end

