-- ==== Sys2Proof/Machine/Ops.lean ====
section
/-! DEFINITION. The named operations over memory and registers: the address map (20_memory.md R33), bytes of memory (R34), the
register file (10_state.md R13), acceptance and completion of a command (10_state.md R30; 60_exceptions.md R94), reset
(70_reset_and_hazards.md R105 to R107). The unit has no trap: taking an error IS completing with its code (R94, R98), and there is
no return from one. -/

namespace Sys2Proof.Machine

/-! ### Bytes of memory -/

/-- The byte at an address; an unlisted one reads its reset value 0x00 (R107). -/
def Memory.read : Memory → Nat → Byte
  | [], _ => 0x00#8
  | (b, u) :: rest, a => if b = a then u else Memory.read rest a

/-- An entry put in front, unless it holds the value an unlisted byte reads as. -/
def Memory.consNonzero (a : Nat) (v : Byte) (m : Memory) : Memory := if v = 0x00#8 then m else (a, v) :: m

/-- Writes one byte, keeping the canonical form. -/
def Memory.write : Memory → Nat → Byte → Memory
  | [], a, v => Memory.consNonzero a v []
  | (b, u) :: rest, a, v =>
    if a < b then Memory.consNonzero a v ((b, u) :: rest)
    else if a = b then Memory.consNonzero a v rest
    else (b, u) :: Memory.write rest a v

/-- Every byte from `base` on, `size` of them, becomes 0x00. -/
def Memory.clear (m : Memory) (base size : Nat) : Memory :=
  m.filter fun c => !(decide (base ≤ c.1) && decide (c.1 < base + size))

/-- The canonical form: addresses strictly rising, and no entry equal to what an unlisted byte reads as. -/
abbrev Memory.wf (m : Memory) : Prop := m.Pairwise (fun c d => c.1 < d.1) ∧ ∀ c ∈ m, c.2 ≠ 0x00#8

/-! ### The address map -/

/-- The mapped ranges of the unit address space (R33). -/
inductive Region where
  | control | generalRegs | shareIndices | lagrangeBasis | result | sessionId | coefficientRows | shareValues
deriving DecidableEq, Repr

/-- The range an address lies in; `none` for an unmapped one. The table of R33 decides ("every address not listed is unmapped");
DEDUCED, safe: assumption log, entry 9. -/
def regionOf (a : Nat) : Option Region :=
  if a ≤ 0x002B then some .control
  else if 0x0100 ≤ a ∧ a ≤ 0x010F then some .generalRegs
  else if 0x0200 ≤ a ∧ a ≤ 0x02FE then some .shareIndices
  else if 0x0300 ≤ a ∧ a ≤ 0x03FE then some .lagrangeBasis
  else if 0x0400 ≤ a ∧ a ≤ 0x041F then some .result
  else if 0x0500 ≤ a ∧ a ≤ 0x05FE then some .sessionId
  else if 0x2000 ≤ a ∧ a ≤ 0x3FDF then some .coefficientRows
  else if 0x4000 ≤ a ∧ a ≤ 0x5FDF then some .shareValues
  else none

/-- The data windows are every mapped range except the control registers (R33). -/
def isDataWindow (a : Nat) : Bool :=
  match regionOf a with
  | none => false
  | some .control => false
  | some _ => true

/-- `X[s]` is at 0x0200 + s (R33). -/
def xAddr (s : Nat) : Nat := 0x0200 + s
/-- `L[s]` is at 0x0300 + s (R33). -/
def lAddr (s : Nat) : Nat := 0x0300 + s
/-- `R[k]` is at 0x0400 + k (R33). -/
def rAddr (k : Nat) : Nat := 0x0400 + k
/-- `SID[i]` is at 0x0500 + i (R33). -/
def sidAddr (i : Nat) : Nat := 0x0500 + i
/-- `C[j][k]` is at 0x2000 + 32·j + k (R33). -/
def cAddr (j k : Nat) : Nat := 0x2000 + 32 * j + k
/-- `Y[s][k]` is at 0x4000 + 32·s + k (R33). -/
def yAddr (s k : Nat) : Nat := 0x4000 + 32 * s + k

/-! ### Registers and the data windows -/

/-- `g[i]` (R13). -/
def State.reg (s : State) (i : RegNum) : Byte := s.g[i.toNat]'i.isLt

/-- `g[i] <- v` (R13). -/
def State.setReg (s : State) (i : RegNum) (v : Byte) : State := { s with g := s.g.set i.toNat v i.isLt }

/-- A byte of the windows X, L, R, SID, C and Y. -/
def State.byte (s : State) (a : Nat) : Byte := Memory.read s.mem a

/-- Writes a byte of the windows X, L, R, SID, C and Y. -/
def State.setByte (s : State) (a : Nat) (v : Byte) : State := { s with mem := Memory.write s.mem a v }

/-- The general register at an address of the g window (R33). -/
def gNum (a : Nat) : RegNum := BitVec.ofNat 4 (a - 0x0100)

/-- `MemRead(a, 1)` of a data-window address: the g window is the register file (R13, R34). -/
def State.memRead (s : State) (a : Nat) : Byte :=
  if regionOf a = some .generalRegs then s.reg (gNum a) else s.byte a

/-- `MemWrite(a, 1, v)` to a data-window address (R34). -/
def State.memWrite (s : State) (a : Nat) (v : Byte) : State :=
  if regionOf a = some .generalRegs then s.setReg (gNum a) v else s.setByte a v

/-- `n` bytes from address `a` on. -/
def State.bytes (s : State) (a n : Nat) : List Byte := (List.range n).map fun k => s.byte (a + k)

/-- Writes consecutive bytes from address `a` on. -/
def State.setBytes (s : State) (a : Nat) : List Byte → State
  | [] => s
  | v :: vs => State.setBytes (s.setByte a v) (a + 1) vs

/-- Clears `size` bytes from `base` on. -/
def State.clearBytes (s : State) (base size : Nat) : State := { s with mem := Memory.clear s.mem base size }

/-! ### Acceptance and completion -/

/-- `STATUS.BUSY` = 1 exactly in EXEC and CLEAR (R30). -/
def State.busy (s : State) : Bool :=
  match s.unit with
  | .idle => false
  | .exec _ => true
  | .clear => true

/-- Accepting a command word, in one step (R30); the command's copy of NOTHRESH is taken here (R111). -/
def State.accept (s : State) (w : Word) : State :=
  { s with ccnt := s.ccnt + 1, cmdlog := w, done := false, unit := .exec ⟨w, s.nothresh, 0, none⟩ }

/-- Completing a command with a result code, success and failure alike (R30, R94). -/
def State.complete (s : State) (c : ErrCode) : State := { s with err := c, done := true, unit := .idle }

/-- The outcome of a command that succeeds in state `s`, its writes made (R94). -/
def succeed (s : State) : Host.Outcome State Fault Refusal := .next (s.complete .success)

/-- The outcome of a command that raises an error code: completion and nothing else (R94). -/
def raise (c : ErrCode) (s : State) : Host.Outcome State Fault Refusal := .next (s.complete c)

/-- The outcome of a command's checks: the first failing one's code, or its effect (R94, R96). -/
def checked (failing : Option ErrCode) (s : State) (effect : Host.Outcome State Fault Refusal) : Host.Outcome State Fault Refusal :=
  match failing with
  | some c => raise c s
  | none => effect

/-! ### Reset -/

/-- Every state element at its reset value, in CLEAR (R105, R106, R107); what stands outside the unit is untouched (the host port is
not reset, R106), and an outstanding hash request is dropped, so its response is ignored (R105; DEDUCED,
safe: assumption log, entry 12). -/
def State.resetElements (s : State) : State :=
  { State.reset with rst := s.rst, hashUp := s.hashUp, inputs := s.inputs, responses := s.responses }

/-- While `rst` is asserted every state element is held at its reset value (R105). -/
def State.holdReset (s : State) : State := if s.rst then s.resetElements else s

end Sys2Proof.Machine
end

