-- ==== Sys2Proof/Machine/Control.lean ====
section
/-! DEFINITION. NOP and ZERO (45_control.md R90, R91). -/

namespace Sys2Proof.Machine

open Host

/-- NOP: the bookkeeping only (R90). -/
def execNop (s : State) : Outcome State Fault Refusal := succeed s

/-- Every data byte 0x00: g, X, L, R, SID, C and Y (R91). -/
def State.zeroize (s : State) : State :=
  let s := { s with g := Vector.replicate 16 0x00#8 }
  let s := (s.clearBytes (xAddr 0) 255).clearBytes (lAddr 0) 255
  let s := (s.clearBytes (rAddr 0) 32).clearBytes (sidAddr 0) 255
  (s.clearBytes (cAddr 0 0) (255 * 32)).clearBytes (yAddr 0 0) (255 * 32)

/-- ZERO: the configuration registers, CTRL, CCNT, CMDLOG, OVR and INVZ stay (R91). -/
def execZero (s : State) : Outcome State Fault Refusal := succeed s.zeroize

end Sys2Proof.Machine
end

