-- ==== Sys2Proof/Syntax.lean ====
section
/-! DEFINITION. The unit's commands: one constructor per row of the opcode map (30_encoding.md R51), with the operands its format
gives it (R48 to R50). The operand types have exactly the width of the field they come from, so every term is a command. -/

namespace Sys2Proof

/-- A decoded command (R51). -/
inductive Instr where
  /-- `NOP`, format N (R90). -/
  | nop
  /-- `GADD gd, gs1, gs2`, format R (R64). -/
  | gadd (rd rs1 rs2 : RegNum)
  /-- `GADDI gd, gs1, imm`, format I (R65). -/
  | gaddi (rd rs1 : RegNum) (imm : Byte)
  /-- `GMUL gd, gs1, gs2`, format R (R66). -/
  | gmul (rd rs1 rs2 : RegNum)
  /-- `GMULI gd, gs1, imm`, format I (R67). -/
  | gmuli (rd rs1 : RegNum) (imm : Byte)
  /-- `GINV gd, gs1`, format U (R68). -/
  | ginv (rd rs1 : RegNum)
  /-- `GEXP gd, gs1, gs2`, format R (R69). -/
  | gexp (rd rs1 rs2 : RegNum)
  /-- `GEXPI gd, gs1, imm`, format I (R70). -/
  | gexpi (rd rs1 : RegNum) (imm : Byte)
  /-- `GLI gd, imm`, format L (R71). -/
  | gli (rd : RegNum) (imm : Byte)
  /-- `GLD gd, [addr]`, format M (R73). -/
  | gld (rd : RegNum) (addr : Addr)
  /-- `GST gt, [addr]`, format M; the rd field holds the source register (R74). -/
  | gst (rt : RegNum) (addr : Addr)
  /-- `DERIVE`, format N (R78). -/
  | derive
  /-- `EVAL` (xs = 0) and `EVAL.X` (xs = 1), format X (R82). -/
  | eval (xs : Bool)
  /-- `RECON`, format N (R86). -/
  | recon
  /-- `VERIFY`, format N (R83). -/
  | verify
  /-- `ZERO`, format N (R91). -/
  | zero
deriving DecidableEq, Repr

end Sys2Proof
end

