-- ==== Sys2Proof/WellFormed.lean ====
section
/-! DEFINITION. What a well-formed command word is (30_encoding.md R51, R52: the opcode map's match and mask), written from the
match/mask table alone, so that it is a second reading of the encoding beside the decoder's formats; and what a well-formed line of
assembly is (R55, R56). An `Instr` needs no check of its own: its operands have the width of their fields. -/

namespace Sys2Proof

/-- One row of the opcode map: mask bits cover `op` and every reserved bit (R51). -/
structure OpRow where
  mnemonic : String
  pattern : Word
  mask : Word
deriving DecidableEq, Repr

/-- The opcode map's match and mask (R51). -/
def opcodeRows : List OpRow :=
  [⟨"NOP", 0x00000000, 0xFFFFFFFF⟩, ⟨"GADD", 0x01000000, 0xFF000FFF⟩, ⟨"GADDI", 0x02000000, 0xFF00FF00⟩,
   ⟨"GMUL", 0x03000000, 0xFF000FFF⟩, ⟨"GMULI", 0x04000000, 0xFF00FF00⟩, ⟨"GINV", 0x05000000, 0xFF00FFFF⟩,
   ⟨"GEXP", 0x06000000, 0xFF000FFF⟩, ⟨"GEXPI", 0x07000000, 0xFF00FF00⟩, ⟨"GLI", 0x08000000, 0xFF0FFF00⟩] ++
  [⟨"GLD", 0x10000000, 0xFF0F0000⟩, ⟨"GST", 0x11000000, 0xFF0F0000⟩, ⟨"DERIVE", 0x20000000, 0xFFFFFFFF⟩,
   ⟨"EVAL", 0x21000000, 0xFFFFFFFE⟩, ⟨"RECON", 0x22000000, 0xFFFFFFFF⟩, ⟨"VERIFY", 0x23000000, 0xFFFFFFFF⟩,
   ⟨"ZERO", 0x30000000, 0xFFFFFFFF⟩]

/-- `(w AND mask) = match` (R52). -/
def OpRow.accepts (r : OpRow) (w : Word) : Bool := w &&& r.mask == r.pattern

/-- A word some row of the opcode map matches; every other word is illegal (R52, R53). -/
def wordWellFormed (w : Word) : Bool := opcodeRows.any (OpRow.accepts · w)

/-- A line of assembly: the core forms of R55 with operands as written, any natural numbers, and the pseudo-instructions of R56. -/
inductive Asm where
  | nop | derive | recon | verify | zero
  | eval (xs : Bool)
  | gadd (gd gs1 gs2 : Nat)
  | gmul (gd gs1 gs2 : Nat)
  | gexp (gd gs1 gs2 : Nat)
  | ginv (gd gs1 : Nat)
  | gaddi (gd gs1 imm : Nat)
  | gmuli (gd gs1 imm : Nat)
  | gexpi (gd gs1 imm : Nat)
  | gli (gd imm : Nat)
  | gld (gd addr : Nat)
  | gst (gt addr : Nat)
  | gsub (gd gs1 gs2 : Nat)
  | gsubi (gd gs1 imm : Nat)
  | gmov (gd gs : Nat)
  | gclr (gd : Nat)
  | gsqr (gd gs : Nat)
  | gdiv (gd gs1 gs2 : Nat)
deriving DecidableEq, Repr

/-- Every register number of the list is one of `g0` .. `g15` (R55). -/
def regsInRange (rs : List Nat) : Bool := rs.all (· < 16)

/-- The operand ranges an assembler demands ("An assembler refuses an operand out of range. It never truncates.", R55), and the
condition of `GDIV`: the assembler refuses gd = gs1 (R56). -/
def Asm.wf : Asm → Bool
  | .nop | .derive | .recon | .verify | .zero | .eval _ => true
  | .gadd d a b | .gmul d a b | .gexp d a b | .gsub d a b => regsInRange [d, a, b]
  | .ginv d a | .gmov d a | .gsqr d a => regsInRange [d, a]
  | .gaddi d a i | .gmuli d a i | .gexpi d a i | .gsubi d a i => regsInRange [d, a] && decide (i < 256)
  | .gli d i => regsInRange [d] && decide (i < 256)
  | .gld d a | .gst d a => regsInRange [d] && decide (a < 65536)
  | .gclr d => regsInRange [d]
  | .gdiv d a b => regsInRange [d, a, b] && decide (d ≠ a)

end Sys2Proof
end

