-- ==== Sys2Proof/Decode.lean ====
section
/-! DEFINITION. Decoding a command word by its format (30_encoding.md R48 to R53), the encoder written from the same formats, and the
assembler's expansion of a line into commands (R55, R56). -/

namespace Sys2Proof

/-- Why an accepted word is no command; both raise IllegalCommand, code 6 (R52, R53). -/
inductive DecodeError where
  /-- `op` is not in the opcode map. -/
  | reservedOpcode
  /-- A field its format does not use is nonzero. -/
  | reservedField
deriving DecidableEq, Repr

/-- `op`, bits 31:24 (R48). -/
def opField (w : Word) : Byte := w.extractLsb' 24 8
/-- `rd`, bits 23:20; for GST the source register (R48). -/
def rdField (w : Word) : RegNum := w.extractLsb' 20 4
/-- `rs1`, bits 19:16 (R48). -/
def rs1Field (w : Word) : RegNum := w.extractLsb' 16 4
/-- `rs2`, bits 15:12 (R48). -/
def rs2Field (w : Word) : RegNum := w.extractLsb' 12 4
/-- `imm8`, bits 7:0 (R48). -/
def imm8Field (w : Word) : Byte := w.extractLsb' 0 8
/-- `addr16`, bits 15:0 (R48). -/
def addr16Field (w : Word) : Addr := w.extractLsb' 0 16
/-- `xs`, bit 0 (R48). -/
def xsField (w : Word) : Bool := w.getLsbD 0

/-- The command, if the reserved bits are 0; a nonzero reserved field is illegal (R48, R52). -/
def ifReservedZero (reservedZero : Bool) (i : Instr) : Except DecodeError Instr :=
  if reservedZero then .ok i else .error .reservedField

/-- Format N: bits 23:0 reserved (R49). -/
def formatN (w : Word) (i : Instr) : Except DecodeError Instr :=
  ifReservedZero (w.extractLsb' 0 24 == 0#24) i
/-- Format X: bits 23:1 reserved (R49). -/
def formatX (w : Word) (i : Bool → Instr) : Except DecodeError Instr :=
  ifReservedZero (w.extractLsb' 1 23 == 0#23) (i (xsField w))
/-- Format R: bits 11:0 reserved (R49). -/
def formatR (w : Word) (i : RegNum → RegNum → RegNum → Instr) : Except DecodeError Instr :=
  ifReservedZero (w.extractLsb' 0 12 == 0#12) (i (rdField w) (rs1Field w) (rs2Field w))
/-- Format U: bits 15:0 reserved (R49). -/
def formatU (w : Word) (i : RegNum → RegNum → Instr) : Except DecodeError Instr :=
  ifReservedZero (w.extractLsb' 0 16 == 0#16) (i (rdField w) (rs1Field w))
/-- Format I: bits 15:8 reserved (R49). -/
def formatI (w : Word) (i : RegNum → RegNum → Byte → Instr) : Except DecodeError Instr :=
  ifReservedZero (w.extractLsb' 8 8 == 0#8) (i (rdField w) (rs1Field w) (imm8Field w))
/-- Format L: bits 19:8 reserved (R49). -/
def formatL (w : Word) (i : RegNum → Byte → Instr) : Except DecodeError Instr :=
  ifReservedZero (w.extractLsb' 8 12 == 0#12) (i (rdField w) (imm8Field w))
/-- Format M: bits 19:16 reserved (R49). -/
def formatM (w : Word) (i : RegNum → Addr → Instr) : Except DecodeError Instr :=
  ifReservedZero (w.extractLsb' 16 4 == 0#4) (i (rdField w) (addr16Field w))

/-- Decoding of an accepted word, total: a command, or why the word is illegal (R51, R52). -/
def decode (w : Word) : Except DecodeError Instr :=
  let op := opField w
  if op = 0x00#8 then formatN w .nop
  else if op = 0x01#8 then formatR w .gadd
  else if op = 0x02#8 then formatI w .gaddi
  else if op = 0x03#8 then formatR w .gmul
  else if op = 0x04#8 then formatI w .gmuli
  else if op = 0x05#8 then formatU w .ginv
  else if op = 0x06#8 then formatR w .gexp
  else if op = 0x07#8 then formatI w .gexpi
  else if op = 0x08#8 then formatL w .gli
  else if op = 0x10#8 then formatM w .gld
  else if op = 0x11#8 then formatM w .gst
  else if op = 0x20#8 then formatN w .derive
  else if op = 0x21#8 then formatX w .eval
  else if op = 0x22#8 then formatN w .recon
  else if op = 0x23#8 then formatN w .verify
  else if op = 0x30#8 then formatN w .zero
  else .error .reservedOpcode

/-- The command word of an instruction whose first `nbits` bits are `w`, numbered as the opcode table numbers them; the command is one
32-bit word (R47), every bit above `nbits` 0. -/
def commandWord (nbits w : Nat) : Word := BitVec.ofNat 32 (w % 2 ^ nbits)

/-- The instruction the decoder reads from a table row's bits; `none` where the word is illegal. -/
def decodeTableWord (nbits w : Nat) : Option Instr :=
  match decode (commandWord nbits w) with
  | .ok i => some i
  | .error _ => none

/-- The word of format R (R49). -/
def wordR (op : Byte) (rd rs1 rs2 : RegNum) : Word := op ++ rd ++ rs1 ++ rs2 ++ 0#12
/-- The word of format I (R49). -/
def wordI (op : Byte) (rd rs1 : RegNum) (imm : Byte) : Word := op ++ rd ++ rs1 ++ 0#8 ++ imm
/-- The word of format M (R49). -/
def wordM (op : Byte) (rd : RegNum) (addr : Addr) : Word := op ++ rd ++ 0#4 ++ addr
/-- The word of format N (R49). -/
def wordN (op : Byte) : Word := op ++ 0#24

/-- The word of a command (R49, R51). -/
def encode : Instr → Word
  | .nop => wordN 0x00
  | .gadd rd rs1 rs2 => wordR 0x01 rd rs1 rs2
  | .gaddi rd rs1 imm => wordI 0x02 rd rs1 imm
  | .gmul rd rs1 rs2 => wordR 0x03 rd rs1 rs2
  | .gmuli rd rs1 imm => wordI 0x04 rd rs1 imm
  | .ginv rd rs1 => 0x05#8 ++ rd ++ rs1 ++ 0#16
  | .gexp rd rs1 rs2 => wordR 0x06 rd rs1 rs2
  | .gexpi rd rs1 imm => wordI 0x07 rd rs1 imm
  | .gli rd imm => 0x08#8 ++ rd ++ 0#12 ++ imm
  | .gld rd addr => wordM 0x10 rd addr
  | .gst rt addr => wordM 0x11 rt addr
  | .derive => wordN 0x20
  | .eval xs => 0x21#8 ++ 0#23 ++ BitVec.ofBool xs
  | .recon => wordN 0x22
  | .verify => wordN 0x23
  | .zero => wordN 0x30

/-- A register operand as its field (R50). -/
def regOperand (n : Nat) : RegNum := BitVec.ofNat 4 n
/-- An immediate operand as its field (R50). -/
def immOperand (n : Nat) : Byte := BitVec.ofNat 8 n
/-- An address operand as its field (R50). -/
def addrOperand (n : Nat) : Addr := BitVec.ofNat 16 n

/-- The commands a line of assembly stands for, operands in range assumed (R55; pseudo-instructions R56). -/
def Asm.expand : Asm → List Instr
  | .nop => [.nop] | .derive => [.derive] | .recon => [.recon] | .verify => [.verify] | .zero => [.zero]
  | .eval xs => [.eval xs]
  | .gadd d a b => [.gadd (regOperand d) (regOperand a) (regOperand b)]
  | .gmul d a b => [.gmul (regOperand d) (regOperand a) (regOperand b)]
  | .gexp d a b => [.gexp (regOperand d) (regOperand a) (regOperand b)]
  | .ginv d a => [.ginv (regOperand d) (regOperand a)]
  | .gaddi d a i => [.gaddi (regOperand d) (regOperand a) (immOperand i)]
  | .gmuli d a i => [.gmuli (regOperand d) (regOperand a) (immOperand i)]
  | .gexpi d a i => [.gexpi (regOperand d) (regOperand a) (immOperand i)]
  | .gli d i => [.gli (regOperand d) (immOperand i)]
  | .gld d a => [.gld (regOperand d) (addrOperand a)]
  | .gst t a => [.gst (regOperand t) (addrOperand a)]
  | .gsub d a b => [.gadd (regOperand d) (regOperand a) (regOperand b)]
  | .gsubi d a i => [.gaddi (regOperand d) (regOperand a) (immOperand i)]
  | .gmov d a => [.gaddi (regOperand d) (regOperand a) 0]
  | .gclr d => [.gli (regOperand d) 0]
  | .gsqr d a => [.gmul (regOperand d) (regOperand a) (regOperand a)]
  | .gdiv d a b => [.ginv (regOperand d) (regOperand b), .gmul (regOperand d) (regOperand a) (regOperand d)]

/-- The assembler: it refuses a line that is not well formed (R55, R56). -/
def Asm.assemble (a : Asm) : Option (List Instr) := if a.wf then some a.expand else none

end Sys2Proof
end

