-- ==== Sys2Proof/Machine/Gf256.lean ====
section
/-! DEFINITION. The field functions of every command (40_field.md R58 to R62; 00_scope.md R2, R10). -/

namespace Sys2Proof.Machine

/-- Field addition, and subtraction, is exclusive-or (R58). -/
def gadd (a b : Byte) : Byte := a ^^^ b

/-- The carry-less product of two 8-bit polynomials, a 15-bit value (R59, first loop). -/
def clmul (a b : Byte) : BitVec 15 :=
  (List.range 8).foldl (fun p i => if b.getLsbD i then p ^^^ (a.setWidth 15 <<< i) else p) 0#15

/-- One step of the reduction: bit `i` of the product is cleared by `0x11B << (i - 8)` (R59, second loop). -/
def reduceBit (p : BitVec 15) (i : Nat) : BitVec 15 :=
  if p.getLsbD i then p ^^^ (0x11B#15 <<< (i - 8)) else p

/-- Reduction modulo x^8 + x^4 + x^3 + x + 1, bits 14 down to 8 (R59). -/
def reduce (p : BitVec 15) : Byte := ([14, 13, 12, 11, 10, 9, 8].foldl reduceBit p).setWidth 8

/-- Field multiplication (R59). -/
def gmul (a b : Byte) : Byte := reduce (clmul a b)

/-- `xtime(v)`: multiplication by x (R60). -/
def xtime (v : Byte) : Byte := (v <<< 1) ^^^ (if v.getLsbD 7 then 0x1B#8 else 0x00#8)

/-- The shift-and-reduce form's loop over `n` more bits of `b`, from bit `i` (R60). -/
def shiftReduce (b : Byte) : Nat → Nat → Byte → Byte → Byte
  | 0, _, r, _ => r
  | n + 1, i, r, t => shiftReduce b n (i + 1) (if b.getLsbD i then r ^^^ t else r) (xtime t)

/-- The equivalent shift-and-reduce form of the product (R60). -/
def gmulShift (a b : Byte) : Byte := shiftReduce b 8 0 0x00#8 a

/-- Exponentiation: `e` multiplications by `a`, starting from 0x01; the exponent is an integer (R61). -/
def gexp (a : Byte) : Nat → Byte
  | 0 => 0x01#8
  | e + 1 => gmul (gexp a e) a

/-- The inverse by Fermat's little theorem; 0x00 for 0x00 (R62). -/
def ginv (a : Byte) : Byte := gexp a 254

end Sys2Proof.Machine
end

