-- ==== Sys2Proof/Machine/Operands.lean ====
section
/-! DEFINITION. What a command's operands are: the scalar commands' register sources and destination (40_field.md section 2), and
the configuration and share indices the sharing commands read, with the checks over them (42_coefficient.md R77; 43_sharing.md R82,
R83; 44_recovery.md R84). -/

namespace Sys2Proof.Machine

/-- The command writes one register with the value computed from the state its sources are read in, and succeeds (R12, R64 to R71). -/
def writeBack (rd : RegNum) (v : Byte) (s : State) : Host.Outcome State Fault Refusal := succeed (s.setReg rd v)

/-- B, N, T, K as numbers (R19). -/
def State.numB (s : State) : Nat := s.cfgB.toNat
def State.numN (s : State) : Nat := s.cfgN.toNat
def State.numT (s : State) : Nat := s.cfgT.toNat
def State.numK (s : State) : Nat := s.cfgK.toNat

/-- CFG_B in {16, 20, 24, 28, 32} (R77). -/
def State.lengthAllowed (s : State) : Bool := Config.allowedLengths.contains s.numB

/-- The sharing checks, in their order: B, then N, then T (R77, R96). -/
def sharingError (s : State) : Option ErrCode :=
  if !s.lengthAllowed then some .invalidSize
  else if s.numN = 0 then some .invalidSize
  else if s.numT = 0 ∨ s.numN < s.numT then some .invalidSize
  else none

/-- The share indices X[0..n) (R25). -/
def State.indices (s : State) (n : Nat) : List Byte := s.bytes (xAddr 0) n

/-- Some used index is 0x00 (R82 to R84). -/
def hasZero (xs : List Byte) : Bool := xs.any (· == 0x00#8)

/-- Two entries are equal (R83, R84). -/
def hasEqual : List Byte → Bool
  | [] => false
  | x :: xs => xs.contains x || hasEqual xs

/-- Index range, then distinctness, over X[0..n) (R83, R84, R96). -/
def indexError (s : State) (n : Nat) : Option ErrCode :=
  if hasZero (s.indices n) then some .invalidShareIndex
  else if hasEqual (s.indices n) then some .duplicateShareIndex
  else none

/-- The first error of two groups of checks made one after the other (R96). -/
def firstError (a b : Option ErrCode) : Option ErrCode :=
  match a with
  | some c => some c
  | none => b

/-- NOTHRESH as a running command sees it: the copy taken at acceptance (R111). Outside EXEC, where no command runs, the CTRL bit;
DEDUCED, safe: assumption log, entry 8. -/
def State.commandNothresh (s : State) : Bool :=
  match s.unit with
  | .exec r => r.nothresh
  | .idle => s.nothresh
  | .clear => s.nothresh

/-- `bytes` as a whole 32-byte row: lanes from its length on are 0x00 (R80). -/
def padRow (bytes : List Byte) : List Byte := bytes ++ List.replicate (32 - bytes.length) 0x00#8

end Sys2Proof.Machine
end

