-- ==== Sys2Proof/Machine/Derivation.lean ====
section
/-! DEFINITION. DERIVE and its requests on the hash-pipeline port (42_coefficient.md R75 to R78; 20_memory.md R44, R45). -/

namespace Sys2Proof.Machine

open Host

/-- The key of every request: the secret, `C[0][0..B)` (R76). -/
def State.secretKey (s : State) : List Byte := s.bytes (cAddr 0 0) s.numB

/-- `msg(j) = LABEL ‖ [T] ‖ [j] ‖ SID[0..SIDLEN)` (R76). -/
def State.message (s : State) (j : Nat) : List Byte :=
  Config.label ++ [s.cfgT] ++ [BitVec.ofNat 8 j] ++ s.bytes (sidAddr 0) s.sidLen.toNat

/-- The request for coefficient index `j` (R44). -/
def State.request (s : State) (j : Nat) : HashReq := ⟨s.secretKey, s.message j⟩

/-- The pipeline's response to a request (R44). -/
def HashReq.answer (q : HashReq) : List Byte := (Config.hmacSha256 q.key q.msg).toList

/-- How many requests the running word makes: T-1 for a DERIVE whose checks pass, and none otherwise (R45, R78). -/
def requestsOf (w : Word) (s : State) : Nat :=
  match decode w with
  | .ok .derive => if sharingError s = none then s.numT - 1 else 0
  | _ => 0

/-- Row `j` as DERIVE writes it: the first B bytes of the digest, the rest 0x00 (R78). -/
def State.derivedRow (s : State) (j : Nat) : List Byte := padRow ((s.request j).answer.take s.numB)

/-- Writes rows `j`, `j + 1`, … , `n` of them, in increasing order; the requests read row 0 and SID, which DERIVE does not write, in
the state `s0` DERIVE began in (R78). -/
def deriveRows (s0 : State) : Nat → Nat → State → State
  | 0, _, s => s
  | n + 1, j, s => deriveRows s0 n (j + 1) (s.setBytes (cAddr j 0) (s0.derivedRow j))

/-- DERIVE (R78). -/
def execDerive (s : State) : Outcome State Fault Refusal :=
  checked (sharingError s) s (succeed (deriveRows s (s.numT - 1) 1 s))

end Sys2Proof.Machine
end

