-- ==== Sys2Proof/Machine/Flags.lean ====
section
/-! DEFINITION. The STATUS and CTRL fields: result codes, the registers as the host reads them, what a write of 1 clears, and `irq`
(10_state.md R16, R17, R22; 60_exceptions.md R92, R97). No field function sets a flag (40_field.md R63) but GINV (R68). -/

namespace Sys2Proof.Machine

/-- The number of a result code (R92). -/
def errBits : ErrCode → BitVec 4
  | .success => 0
  | .invalidSize => 1
  | .invalidShareIndex => 2
  | .duplicateShareIndex => 3
  | .insufficientShares => 4
  | .internalFailure => 5
  | .illegalCommand => 6
  | .badAddress => 7

/-- STATUS: BUSY 0, DONE 1, OVR 2, INVZ 3, ERR 11:8, the rest 0 (R17, R22). -/
def State.statusWord (s : State) : Word :=
  0#20 ++ errBits s.err ++ 0#4 ++ BitVec.ofBool s.invz ++ BitVec.ofBool s.ovr ++ BitVec.ofBool s.done ++ BitVec.ofBool s.busy

/-- CTRL: IE 0, NOTHRESH 1, SRST reads 0, the rest 0 (R16, R22). -/
def State.ctrlWord (s : State) : Word := 0#30 ++ BitVec.ofBool s.nothresh ++ BitVec.ofBool s.ie

/-- A write to STATUS: DONE, OVR and INVZ are cleared by a 1, all else is unchanged (R17). -/
def State.writeStatus (s : State) (d : Word) : State :=
  { s with done := s.done && !d.getLsbD 1, ovr := s.ovr && !d.getLsbD 2, invz := s.invz && !d.getLsbD 3 }

/-- A write to CTRL: with SRST = 1 a soft reset, the other bits discarded; else IE and NOTHRESH (R16, R106). -/
def State.writeCtrl (s : State) (d : Word) : State :=
  if d.getLsbD 31 then s.resetElements else { s with ie := d.getLsbD 0, nothresh := d.getLsbD 1 }

/-- Sets STATUS.OVR (R38). -/
def State.setOvr (s : State) : State := { s with ovr := true }

/-- GINV's flag: INVZ is set when the operand is 0x00, and stays as it was otherwise (R68). -/
def State.noteInverse (s : State) (a : Byte) : State := { s with invz := s.invz || a == 0x00#8 }

/-- The interrupt output, a level: IE AND DONE; low while `rst` is asserted (R97, R105). -/
def State.irq (s : State) : Bool := !s.rst && s.ie && s.done

end Sys2Proof.Machine
end

