-- ==== Sys2Proof/Machine/Field.lean ====
section
/-! DEFINITION. The GF(256) arithmetic commands (40_field.md R64 to R71). Sources are read before the destination is written. -/

namespace Sys2Proof.Machine

open Host

/-- GADD (R64). -/
def execGadd (rd rs1 rs2 : RegNum) (s : State) : Outcome State Fault Refusal :=
  writeBack rd (gadd (s.reg rs1) (s.reg rs2)) s

/-- GADDI (R65). -/
def execGaddi (rd rs1 : RegNum) (imm : Byte) (s : State) : Outcome State Fault Refusal :=
  writeBack rd (gadd (s.reg rs1) imm) s

/-- GMUL (R66). -/
def execGmul (rd rs1 rs2 : RegNum) (s : State) : Outcome State Fault Refusal :=
  writeBack rd (gmul (s.reg rs1) (s.reg rs2)) s

/-- GMULI (R67). -/
def execGmuli (rd rs1 : RegNum) (imm : Byte) (s : State) : Outcome State Fault Refusal :=
  writeBack rd (gmul (s.reg rs1) imm) s

/-- GINV: sets INVZ when the operand is 0x00, and is no error then (R68). -/
def execGinv (rd rs1 : RegNum) (s : State) : Outcome State Fault Refusal :=
  writeBack rd (ginv (s.reg rs1)) (s.noteInverse (s.reg rs1))

/-- GEXP: the content of rs2 is read as an integer 0..255 (R69). -/
def execGexp (rd rs1 rs2 : RegNum) (s : State) : Outcome State Fault Refusal :=
  writeBack rd (gexp (s.reg rs1) (s.reg rs2).toNat) s

/-- GEXPI (R70). -/
def execGexpi (rd rs1 : RegNum) (imm : Byte) (s : State) : Outcome State Fault Refusal :=
  writeBack rd (gexp (s.reg rs1) imm.toNat) s

/-- GLI (R71). -/
def execGli (rd : RegNum) (imm : Byte) (s : State) : Outcome State Fault Refusal :=
  writeBack rd imm s

end Sys2Proof.Machine
end

