-- ==== Sys2Proof/Machine/Movement.lean ====
section
/-! DEFINITION. GLD and GST (41_data_movement.md R72 to R74). -/

namespace Sys2Proof.Machine

open Host

/-- The address check of GLD and GST: BadAddress outside the data windows (R72). -/
def addressError (addr : Addr) : Option ErrCode := if isDataWindow addr.toNat then none else some .badAddress

/-- GLD (R73). -/
def execGld (rd : RegNum) (addr : Addr) (s : State) : Outcome State Fault Refusal :=
  checked (addressError addr) s (writeBack rd (s.memRead addr.toNat) s)

/-- GST (R74). -/
def execGst (rt : RegNum) (addr : Addr) (s : State) : Outcome State Fault Refusal :=
  checked (addressError addr) s (succeed (s.memWrite addr.toNat (s.reg rt)))

end Sys2Proof.Machine
end

