-- ==== Sys2Proof/Machine/Interpolation.lean ====
section
/-! DEFINITION. `lagrange_combine`, which VERIFY and RECON share (44_recovery.md R85). -/

namespace Sys2Proof.Machine

/-- One factor of the basis product: `x_m · (x_m − x_s)⁻¹` (R85). -/
def basisFactor (xs xm : Byte) : Byte := gmul xm (ginv (gadd xm xs))

/-- `L_s(0)`, the product over m ≠ s in 0..<n of the factors, from the indices `x` (R85). -/
def basisValue (x : Nat → Byte) (n s : Nat) : Byte :=
  (List.range n).foldl (fun l m => if m = s then l else gmul l (basisFactor (x s) (x m))) 0x01#8

/-- The basis values of slots 0..<n, from X (R85). -/
def State.basis (s : State) (n : Nat) : List Byte := (List.range n).map (basisValue (fun m => s.byte (xAddr m)) n)

/-- Lane `k` of the combination: the exclusive-or sum of `Y[s][k] · L[s]` over slots 0..<n (R85). -/
def State.combineLane (s : State) (n k : Nat) : Byte :=
  (List.range n).foldl (fun acc i => gadd acc (gmul (s.byte (yAddr i k)) (s.byte (lAddr i)))) 0x00#8

/-- `lagrange_combine(n)`: L[0..n), then R[0..32), lanes from B on 0x00 (R85). -/
def lagrangeCombine (n : Nat) (s : State) : State :=
  let s' := s.setBytes (lAddr 0) (s.basis n)
  s'.setBytes (rAddr 0) (padRow ((List.range s.numB).map (s'.combineLane n)))

end Sys2Proof.Machine
end

