-- ==== Sys2Proof/Machine/Recovery.lean ====
section
/-! DEFINITION. RECON (44_recovery.md R84 to R88). -/

namespace Sys2Proof.Machine

open Host

/-- Checks 3 and 4: the length, then the threshold unless NOTHRESH is set (R84). -/
def recoveryError (s : State) : Option ErrCode :=
  if !s.lengthAllowed then some .invalidSize
  else if s.commandNothresh then none
  else if s.numT = 0 then some .invalidSize
  else if s.numK < s.numT then some .insufficientShares
  else none

/-- RECON: checks 1 to 4 in their order, then the combination of all K slots (R84, R86, R87). -/
def execRecon (s : State) : Outcome State Fault Refusal :=
  checked (firstError (indexError s s.numK) (recoveryError s)) s (succeed (lagrangeCombine s.numK s))

end Sys2Proof.Machine
end

