-- ==== Sys2Proof/Machine/Sharing.lean ====
section
/-! DEFINITION. EVAL and VERIFY (43_sharing.md R80 to R83). -/

namespace Sys2Proof.Machine

open Host

/-- Horner's rule over the coefficients `c` of rows j-1 down to 0, from an accumulator (R81). -/
def horner (c : Nat → Byte) (x : Byte) : Nat → Byte → Byte
  | 0, acc => acc
  | j + 1, acc => horner c x j (gadd (gmul acc x) (c j))

/-- `f_k(x)`: lane `k`'s polynomial, of the T rows' lane-k bytes, at `x` (R81). -/
def State.evalLane (s : State) (k : Nat) (x : Byte) : Byte := horner (fun j => s.byte (cAddr j k)) x s.numT 0x00#8

/-- Slot `i`'s share index: `i + 1`, or the host's `X[i]` (R82). -/
def State.evalIndex (s : State) (xs : Bool) (i : Nat) : Byte := if xs then s.byte (xAddr i) else BitVec.ofNat 8 (i + 1)

/-- A share value as EVAL writes it: B lanes, the rest 0x00 (R82). -/
def State.shareRow (s : State) (x : Byte) : List Byte := padRow ((List.range s.numB).map fun k => s.evalLane k x)

/-- One slot: its index and its value (R82). -/
def evalSlot (xs : Bool) (s : State) (i : Nat) : State :=
  let x := s.evalIndex xs i
  (s.setByte (xAddr i) x).setBytes (yAddr i 0) (s.shareRow x)

/-- Slots 0..<n, in increasing order (R82). -/
def evalSlots (xs : Bool) (n : Nat) (s : State) : State := (List.range n).foldl (evalSlot xs) s

/-- EVAL.X's index check (R82). -/
def evalIndexError (xs : Bool) (s : State) : Option ErrCode :=
  if xs && hasZero (s.indices s.numN) then some .invalidShareIndex else none

/-- EVAL (xs = 0) and EVAL.X (xs = 1) (R82). -/
def execEval (xs : Bool) (s : State) : Outcome State Fault Refusal :=
  checked (firstError (sharingError s) (evalIndexError xs s)) s (succeed (evalSlots xs s.numN s))

/-- VERIFY's result once L and R are written: InternalFailure unless R[0..B) = C[0][0..B) (R83). -/
def compareSecret (s : State) : Outcome State Fault Refusal :=
  if s.bytes (rAddr 0) s.numB = s.bytes (cAddr 0 0) s.numB then succeed s else raise .internalFailure s

/-- VERIFY (R83). -/
def execVerify (s : State) : Outcome State Fault Refusal :=
  checked (firstError (sharingError s) (indexError s s.numT)) s (compareSecret (lagrangeCombine s.numT s))

end Sys2Proof.Machine
end

