-- ==== Sys2Proof/Machine/Dispatch.lean ====
section
/-! DEFINITION. The one match from a command to its meaning (30_encoding.md R51, R52). -/

namespace Sys2Proof.Machine

/-- Performs the rule of a decoded command and completes it (R30, R52). -/
def exec (i : Instr) (s : State) : Host.Outcome State Fault Refusal :=
  match i with
  | .nop => Sys2Proof.Machine.execNop s
  | .gadd rd rs1 rs2 => Sys2Proof.Machine.execGadd rd rs1 rs2 s
  | .gaddi rd rs1 imm => Sys2Proof.Machine.execGaddi rd rs1 imm s
  | .gmul rd rs1 rs2 => Sys2Proof.Machine.execGmul rd rs1 rs2 s
  | .gmuli rd rs1 imm => Sys2Proof.Machine.execGmuli rd rs1 imm s
  | .ginv rd rs1 => Sys2Proof.Machine.execGinv rd rs1 s
  | .gexp rd rs1 rs2 => Sys2Proof.Machine.execGexp rd rs1 rs2 s
  | .gexpi rd rs1 imm => Sys2Proof.Machine.execGexpi rd rs1 imm s
  | .gli rd imm => Sys2Proof.Machine.execGli rd imm s
  | .gld rd addr => Sys2Proof.Machine.execGld rd addr s
  | .gst rt addr => Sys2Proof.Machine.execGst rt addr s
  | .derive => Sys2Proof.Machine.execDerive s
  | .eval xs => Sys2Proof.Machine.execEval xs s
  | .recon => Sys2Proof.Machine.execRecon s
  | .verify => Sys2Proof.Machine.execVerify s
  | .zero => Sys2Proof.Machine.execZero s

end Sys2Proof.Machine
end

