-- ==== Sys2Proof/Machine/Port.lean ====
section
/-! DEFINITION. The host port (20_memory.md R32, R33, R36 to R39; 10_state.md R15 to R22). -/

namespace Sys2Proof.Machine

/-- The control registers (R15 to R21). -/
inductive CtrlReg where
  | id | ctrl | status | cmd | cfgB | cfgN | cfgT | cfgK | sidLen | ccnt | cmdlog
deriving DecidableEq, Repr

/-- The register at a word offset of the control range (R33). -/
def ctrlRegAt (a : Nat) : Option CtrlReg :=
  match a / 4 with
  | 0 => some .id
  | 1 => some .ctrl
  | 2 => some .status
  | 3 => some .cmd
  | 4 => some .cfgB
  | 5 => some .cfgN
  | 6 => some .cfgT
  | 7 => some .cfgK
  | 8 => some .sidLen
  | 9 => some .ccnt
  | 10 => some .cmdlog
  | _ => none

/-- What an access that R37 lets through is for. -/
inductive Target where
  /-- A control register, whole. -/
  | reg (r : CtrlReg)
  /-- One data-window byte. -/
  | byte (a : Nat)
  /-- Four data-window bytes from a 4-aligned address. -/
  | word (a : Nat)
deriving DecidableEq, Repr

/-- All four bytes of a word lie in data windows (R37). -/
def wordMapped (a : Nat) : Bool := isDataWindow a && isDataWindow (a + 1) && isDataWindow (a + 2) && isDataWindow (a + 3)

/-- The access rules of the host port: `none` is an ERR response (R37). -/
def target (addr : Addr) (width : Nat) : Option Target :=
  let a := addr.toNat
  if width = 32 then
    if a % 4 ≠ 0 then none
    else if regionOf a = some .control then (ctrlRegAt a).map .reg
    else if wordMapped a then some (.word a)
    else none
  else if width = 8 then
    if isDataWindow a then some (.byte a) else none
  else none

/-- The registers whose reads are served while BUSY (R38). -/
def servedRead : Target → Bool
  | .reg .id | .reg .ctrl | .reg .status | .reg .cmd | .reg .ccnt | .reg .cmdlog => true
  | .reg .cfgB | .reg .cfgN | .reg .cfgT | .reg .cfgK | .reg .sidLen => false
  | .byte _ | .word _ => false

/-- The registers whose writes are served while BUSY (R38). -/
def servedWrite : Target → Bool
  | .reg .ctrl | .reg .status | .reg .id | .reg .ccnt | .reg .cmdlog => true
  | .reg .cmd | .reg .cfgB | .reg .cfgN | .reg .cfgT | .reg .cfgK | .reg .sidLen => false
  | .byte _ | .word _ => false

/-- A control register's value (R15 to R22). -/
def State.readReg (s : State) : CtrlReg → Word
  | .id => Config.idValue
  | .ctrl => s.ctrlWord
  | .status => s.statusWord
  | .cmd => 0#32
  | .cfgB => s.cfgB.setWidth 32
  | .cfgN => s.cfgN.setWidth 32
  | .cfgT => s.cfgT.setWidth 32
  | .cfgK => s.cfgK.setWidth 32
  | .sidLen => s.sidLen.setWidth 32
  | .ccnt => s.ccnt
  | .cmdlog => s.cmdlog

/-- A control register's write; ID, CCNT and CMDLOG ignore it, a configuration register keeps bits 7:0, a CMD write hands the word to
the unit (R15 to R22, R30). -/
def State.writeReg (s : State) (d : Word) : CtrlReg → State
  | .id => s
  | .ctrl => s.writeCtrl d
  | .status => s.writeStatus d
  | .cmd => s.accept d
  | .cfgB => { s with cfgB := d.setWidth 8 }
  | .cfgN => { s with cfgN := d.setWidth 8 }
  | .cfgT => { s with cfgT := d.setWidth 8 }
  | .cfgK => { s with cfgK := d.setWidth 8 }
  | .sidLen => { s with sidLen := d.setWidth 8 }
  | .ccnt => s
  | .cmdlog => s

/-- The value read: little-endian for a word; a byte stands in data bits 7:0, the rest 0 (R36; the byte's place is DESIGN CHOICE,
unsafe: assumption log, entry 10). -/
def State.readTarget (s : State) : Target → Word
  | .reg r => s.readReg r
  | .byte a => (s.memRead a).setWidth 32
  | .word a => s.memRead (a + 3) ++ s.memRead (a + 2) ++ s.memRead (a + 1) ++ s.memRead a

/-- The value written, in one step (R36, R39). -/
def State.writeTarget (s : State) (d : Word) : Target → State
  | .reg r => s.writeReg d r
  | .byte a => s.memWrite a (d.setWidth 8)
  | .word a =>
    (((s.memWrite a (d.extractLsb' 0 8)).memWrite (a + 1) (d.extractLsb' 8 8)).memWrite (a + 2) (d.extractLsb' 16 8)).memWrite
      (a + 3) (d.extractLsb' 24 8)

/-- One host read: R37's ERR first, then the busy refusal (ERR, OVR <- 1), then the value (R37, R38, R96). -/
def hostRead (addr : Addr) (width : Nat) (s : State) : State × HostAnswer :=
  match target addr width with
  | none => (s, .read 0#32 .err)
  | some t =>
    if s.busy && !servedRead t then (s.setOvr, .read 0#32 .err) else (s, .read (s.readTarget t) .ok)

/-- One host write (R37, R38, R96). -/
def hostWrite (addr : Addr) (width : Nat) (d : Word) (s : State) : State × HostAnswer :=
  match target addr width with
  | none => (s, .write .err)
  | some t =>
    if s.busy && !servedWrite t then (s.setOvr, .write .err) else (s.writeTarget d t, .write .ok)

/-- The port has answered: while `rst` is asserted the elements stay at their reset values (R105; DEDUCED, unsafe: assumption log,
entry 7), and the answer is recorded. -/
def answered (r : State × HostAnswer) : State :=
  let s := r.1.holdReset
  { s with responses := r.2 :: s.responses }

end Sys2Proof.Machine
end

