-- ==== Sys2Proof/Machine/Run.lean ====
section
/-! DEFINITION. One event of the machine: an input is served, or the unit (or the pipeline it waits for) makes its next move
(10_state.md R30; 20_memory.md R40, R44 to R46; 70_reset_and_hazards.md R105 to R108). -/

namespace Sys2Proof.Machine

open Host

/-- The unit's next move on its running command (R30, R45, R52): wait for an outstanding request's answer, else issue the next
request, else perform the word's rule and complete, all its writes at once (DEDUCED, safe: assumption log, entry 13). An illegal word
completes with IllegalCommand (entry 14). -/
def progress (r : Running) (s : State) : Outcome State Fault Refusal :=
  match r.hashReq with
  | some _ =>
    if s.hashUp then .next { s with unit := .exec { r with hashDone := r.hashDone + 1, hashReq := none } } else .next s
  | none =>
    if r.hashDone < requestsOf r.word s then
      .next { s with unit := .exec { r with hashReq := some (s.request (r.hashDone + 1)) } }
    else
      match decode r.word with
      | .ok i => exec i s
      | .error _ => raise .illegalCommand s

/-- A turn of the unit: IDLE keeps everything (R103), CLEAR ends (R108; DEDUCED, unsafe: assumption log, entry 11), EXEC makes progress;
held while `rst` is asserted (R105). -/
def turn (s : State) : Outcome State Fault Refusal :=
  if s.rst then .next s
  else
    match s.unit with
    | .idle => .next s
    | .clear => .next { s with unit := .idle }
    | .exec r => progress r s

/-- The `rst` input takes a level: while it is asserted every element is at its reset value, and at its release the unit stands in
CLEAR (R105); a pin that was low and stays low changes nothing. -/
def setRst (level : Bool) (s : State) : State := if s.rst || level then { s.resetElements with rst := level } else s

/-- One input is served (R32, R40, R46, R105). -/
def serve (i : Input) (s : State) : Outcome State Fault Refusal :=
  match i with
  | .read addr width => .next (answered (hostRead addr width s))
  | .write addr width d => .next (answered (hostWrite addr width d s))
  | .rst level => .next (setRst level s)
  | .pipeline up => .next { s with hashUp := up }
  | .turn => turn s

/-- One event in the total order (R40): the oldest input, or the unit's turn where the outside does nothing. -/
def advance (s : State) : Outcome State Fault Refusal :=
  match s.inputs with
  | [] => turn s
  | i :: rest => serve i { s with inputs := rest }

/-- `s` with the command word `w` accepted, nothing else coming from outside, `rst` released, and the word's requests answered, so that
the next turn performs it (R30; assumption log, entry 5). -/
def loadCommand (w : Word) (s : State) : State :=
  let s := { s with inputs := [], rst := false }.accept w
  { s with unit := .exec ⟨w, s.nothresh, requestsOf w s, none⟩ }

end Sys2Proof.Machine
end

