-- ==== Sys2Proof/Machine/Step.lean ====
section
/-! DEFINITION. One step of the machine, and the placing of one command where the next step performs it. -/

namespace Sys2Proof.Machine

/-- One event of the machine (20_memory.md R40). -/
def step (s : State) : Host.Outcome State Fault Refusal := advance s

/-- `s` with the instruction of these bits as the accepted command the next step performs: the unit fetches nothing (20_memory.md R43),
so this stands for the host's CMD write (assumption log, entry 5). -/
def State.withFetchWord (s : State) (nbits w : Nat) : State := loadCommand (commandWord nbits w) s

end Sys2Proof.Machine
end

