-- ==== Sys2Proof/Safety.lean ====
section
/-! DEFINITION. The terms the statements use: legal configurations, what a command keeps, the sums and products of the rules'
formulas, and the invariant of the machine. -/

namespace Sys2Proof.Machine

/-! ### Legal configurations -/

/-- The sharing checks pass: B allowed, N in 1..255, T in 1..N (R77). -/
abbrev SharingLegal (s : State) : Prop :=
  s.numB ∈ [16, 20, 24, 28, 32] ∧ 1 ≤ s.numN ∧ 1 ≤ s.numT ∧ s.numT ≤ s.numN

/-- Every used share index is in 1..255 (R83, R84). -/
abbrev IndicesNonzero (s : State) (n : Nat) : Prop := ∀ i < n, s.byte (xAddr i) ≠ 0x00#8

/-- All used share indices are distinct (R83, R84). -/
abbrev IndicesDistinct (s : State) (n : Nat) : Prop := ∀ i < n, ∀ j < n, s.byte (xAddr i) = s.byte (xAddr j) → i = j

/-- Checks 3 and 4 of RECON pass, with NOTHRESH as the command reads it (R84, R111). -/
abbrev RecoveryLegal (s : State) : Prop :=
  s.numB ∈ [16, 20, 24, 28, 32] ∧ (s.commandNothresh = false → 1 ≤ s.numT ∧ s.numT ≤ s.numK)

/-! ### What a command keeps -/

/-- The fields no command writes: CTRL, OVR, the configuration, CCNT, CMDLOG, and what stands outside the unit. -/
abbrev ControlKept (s t : State) : Prop :=
  t.ie = s.ie ∧ t.nothresh = s.nothresh ∧ t.ovr = s.ovr ∧
  t.cfgB = s.cfgB ∧ t.cfgN = s.cfgN ∧ t.cfgT = s.cfgT ∧ t.cfgK = s.cfgK ∧ t.sidLen = s.sidLen ∧
  t.ccnt = s.ccnt ∧ t.cmdlog = s.cmdlog ∧
  t.rst = s.rst ∧ t.hashUp = s.hashUp ∧ t.inputs = s.inputs ∧ t.responses = s.responses

/-- A command that started in `s` has completed in `t` with this code (R30, R94); registers, memory and INVZ are said beside it. -/
abbrev Completed (c : ErrCode) (s t : State) : Prop := t.err = c ∧ t.done = true ∧ t.unit = .idle ∧ ControlKept s t

/-- No general register changed. -/
abbrev RegsKept (s t : State) : Prop := ∀ i, t.reg i = s.reg i

/-- No byte of the windows X, L, R, SID, C and Y changed. -/
abbrev BytesKept (s t : State) : Prop := ∀ a, t.byte a = s.byte a

/-- Outside the addresses `w`, no byte of the windows X, L, R, SID, C and Y changed. -/
abbrev BytesKeptOutside (w : Nat → Prop) (s t : State) : Prop := ∀ a, ¬ w a → t.byte a = s.byte a

/-- Command `i` in `s` completes with an error code and changes nothing else (R94). -/
abbrev FailsWith (i : Instr) (s : State) (c : ErrCode) : Prop :=
  exec i s = .next { s with err := c, done := true, unit := .idle }

/-- A scalar command writes `v` to `rd`, and nothing else but its completion (R64 to R71). -/
def ScalarEffect (i : Instr) (rd : RegNum) (v : State → Byte) : Prop :=
  ∀ s, ∃ t, exec i s = .next t ∧ Completed .success s t ∧ t.reg rd = v s ∧ (∀ r, r ≠ rd → t.reg r = s.reg r) ∧
    BytesKept s t ∧ t.invz = s.invz

/-- How the words of one opcode (bits 31:24) decode: to this command, unless a reserved bit is set (R49, R52). -/
def OpcodeRule (op : Byte) (reservedZero : Word → Prop) (i : Word → Instr) : Prop :=
  ∀ w : Word, w.extractLsb' 24 8 = op →
    (reservedZero w → decode w = .ok (i w)) ∧ (¬ reservedZero w → decode w = .error .reservedField)

/-- An example of the spec: in every state that meets `pre`, the command of word `w` succeeds and leaves `v` in `rd`. -/
def ExampleOf (w : Word) (pre : State → Prop) (rd : RegNum) (v : Byte) : Prop :=
  ∃ i, decode w = .ok i ∧ ∀ s, pre s → ∃ t, exec i s = .next t ∧ t.err = .success ∧ t.reg rd = v

/-- The number of each result code in STATUS bits 11:8, from R92's table. -/
def resultCodes : List (ErrCode × BitVec 4) :=
  [(.success, 0), (.invalidSize, 1), (.invalidShareIndex, 2), (.duplicateShareIndex, 3), (.insufficientShares, 4),
   (.internalFailure, 5), (.illegalCommand, 6), (.badAddress, 7)]

/-- The codes a command can complete with (R92). -/
def codesOf : Instr → List ErrCode
  | .gld _ _ | .gst _ _ => [.success, .badAddress]
  | .derive => [.success, .invalidSize]
  | .eval xs => [.success, .invalidSize] ++ (if xs then [.invalidShareIndex] else [])
  | .recon => [.success, .invalidSize, .invalidShareIndex, .duplicateShareIndex, .insufficientShares]
  | .verify => [.success, .invalidSize, .invalidShareIndex, .duplicateShareIndex, .internalFailure]
  | .nop | .gadd _ _ _ | .gaddi _ _ _ | .gmul _ _ _ | .gmuli _ _ _ | .ginv _ _ | .gexp _ _ _ | .gexpi _ _ _ | .gli _ _
  | .zero => [.success]

/-! ### Assembly -/

/-- Format R assembles with its three registers as written, and is refused if one is out of range (R55). -/
def AssemblesR (line : Nat → Nat → Nat → Asm) (i : RegNum → RegNum → RegNum → Instr) : Prop :=
  ∀ d a b, Asm.assemble (line d a b) =
    if h : d < 16 ∧ a < 16 ∧ b < 16 then some [i (BitVec.ofNatLT d h.1) (BitVec.ofNatLT a h.2.1) (BitVec.ofNatLT b h.2.2)] else none

/-- Format I: two registers and an immediate in 0..255 (R55). -/
def AssemblesI (line : Nat → Nat → Nat → Asm) (i : RegNum → RegNum → Byte → Instr) : Prop :=
  ∀ d a v, Asm.assemble (line d a v) =
    if h : d < 16 ∧ a < 16 ∧ v < 256 then some [i (BitVec.ofNatLT d h.1) (BitVec.ofNatLT a h.2.1) (BitVec.ofNatLT v h.2.2)] else none

/-- Format U: two registers (R55). -/
def AssemblesU (line : Nat → Nat → Asm) (i : RegNum → RegNum → Instr) : Prop :=
  ∀ d a, Asm.assemble (line d a) = if h : d < 16 ∧ a < 16 then some [i (BitVec.ofNatLT d h.1) (BitVec.ofNatLT a h.2)] else none

/-- Format L: a register and an immediate in 0..255 (R55). -/
def AssemblesL (line : Nat → Nat → Asm) (i : RegNum → Byte → Instr) : Prop :=
  ∀ d v, Asm.assemble (line d v) = if h : d < 16 ∧ v < 256 then some [i (BitVec.ofNatLT d h.1) (BitVec.ofNatLT v h.2)] else none

/-- Format M: a register and an address in 0..0xFFFF (R55). -/
def AssemblesM (line : Nat → Nat → Asm) (i : RegNum → Addr → Instr) : Prop :=
  ∀ d a, Asm.assemble (line d a) = if h : d < 16 ∧ a < 65536 then some [i (BitVec.ofNatLT d h.1) (BitVec.ofNatLT a h.2)] else none

/-! ### The host port -/

/-- The data windows by their ranges (R33, R72). -/
abbrev InWindow (a : Nat) : Prop :=
  (0x0100 ≤ a ∧ a ≤ 0x010F) ∨ (0x0200 ≤ a ∧ a ≤ 0x02FE) ∨ (0x0300 ≤ a ∧ a ≤ 0x03FE) ∨ (0x0400 ≤ a ∧ a ≤ 0x041F) ∨
  (0x0500 ≤ a ∧ a ≤ 0x05FE) ∨ (0x2000 ≤ a ∧ a ≤ 0x3FDF) ∨ (0x4000 ≤ a ∧ a ≤ 0x5FDF)

/-- A 4-aligned word whose four bytes all lie in data windows (R37). -/
abbrev WordInWindows (a : Nat) : Prop := a % 4 = 0 ∧ InWindow a ∧ InWindow (a + 1) ∧ InWindow (a + 2) ∧ InWindow (a + 3)

/-- Reads and writes of this width at this address get ERR, read data 0, and change nothing (R37). -/
def PortError (addr : Addr) (width : Nat) (s : State) : Prop :=
  hostRead addr width s = (s, .read 0 .err) ∧ ∀ d, hostWrite addr width d s = (s, .write .err)

/-- Reads and writes of this width at this address get OK (R37). -/
def PortServes (addr : Addr) (width : Nat) (s : State) : Prop :=
  (∃ v, (hostRead addr width s).2 = .read v .ok) ∧ ∀ d, (hostWrite addr width d s).2 = .write .ok

/-- A read is refused because the unit is busy: ERR, data 0, and only OVR is set (R38). -/
def ReadRefused (addr : Addr) (width : Nat) (s : State) : Prop :=
  hostRead addr width s = ({ s with ovr := true }, .read 0 .err)

/-- A write is refused because the unit is busy: ERR, and only OVR is set (R38). -/
def WriteRefused (addr : Addr) (width : Nat) (s : State) : Prop :=
  ∀ d, hostWrite addr width d s = ({ s with ovr := true }, .write .err)

/-! ### The rules' formulas -/

/-- The derivation label's 26 bytes, as R75 lists them. -/
def labelBytes : List Byte :=
  [0x73, 0x65, 0x63, 0x72, 0x65, 0x74, 0x2d, 0x73, 0x68, 0x61, 0x72, 0x69, 0x6e, 0x67, 0x2d, 0x63, 0x6f, 0x65, 0x66, 0x66, 0x69, 0x63,
   0x69, 0x65, 0x6e, 0x74]

/-- `Σ⊕` over 0..<n (R11). -/
def xorSum (n : Nat) (f : Nat → Byte) : Byte := (List.range n).foldr (fun i acc => f i ^^^ acc) 0x00#8

/-- `Π⊗` over a list of positions (R11). -/
def fieldProduct (is : List Nat) (f : Nat → Byte) : Byte := is.foldr (fun i acc => gmul (f i) acc) 0x01#8

/-- `f_k(x)`, lane k's polynomial: `C[0][k] + C[1][k]·x + … + C[T-1][k]·x^(T-1)` (R81). -/
def lanePolynomial (s : State) (k : Nat) (x : Byte) : Byte := xorSum s.numT fun j => gmul (s.byte (cAddr j k)) (gexp x j)

/-- `L_s(0) = Π_{m≠s} x_m · (x_m − x_s)⁻¹` over the indices of slots 0..<n (R85). -/
def lagrangeWeight (s : State) (n i : Nat) : Byte :=
  fieldProduct ((List.range n).filter (· ≠ i)) fun m =>
    gmul (s.byte (xAddr m)) (ginv (s.byte (xAddr m) ^^^ s.byte (xAddr i)))

/-- `Σ y_i[k] · L_i(0)` over slots 0..<n (R85). -/
def interpolated (s : State) (n k : Nat) : Byte := xorSum n fun i => gmul (s.byte (yAddr i k)) (lagrangeWeight s n i)

/-- What `lagrange_combine(n)` leaves: L[0..n), R[0..32), and every other byte as before (R85). -/
abbrev Combined (n : Nat) (s t : State) : Prop :=
  (∀ i < n, t.byte (lAddr i) = lagrangeWeight s n i) ∧
  (∀ k < s.numB, t.byte (rAddr k) = interpolated s n k) ∧
  (∀ k < 32, s.numB ≤ k → t.byte (rAddr k) = 0x00#8) ∧
  BytesKeptOutside (fun a => (lAddr 0 ≤ a ∧ a < lAddr n) ∨ (rAddr 0 ≤ a ∧ a < rAddr 32)) s t

/-! ### The invariant -/

/-- An address of the windows X, L, R, SID, C and Y, which `mem` holds. -/
abbrev inMemory (a : Nat) : Prop := isDataWindow a = true ∧ regionOf a ≠ some .generalRegs

/-- Whether a request is outstanding, as a count (R45). -/
def Running.outstanding (r : Running) : Nat := if r.hashReq = none then 0 else 1

/-- What every run keeps. -/
structure Invariant (s : State) : Prop where
  /-- Memory is in its canonical form. -/
  canonical : Memory.wf s.mem
  /-- Memory lists data-window addresses only (R33, R34). -/
  mapped : ∀ c ∈ s.mem, inMemory c.1
  /-- A running command's word is in CMDLOG, and DONE is 0 (R17, R21, R30). -/
  running : ∀ r, s.unit = .exec r → s.cmdlog = r.word ∧ s.done = false
  /-- The hash port has been asked no more than the command asks (R45). -/
  requests : ∀ r, s.unit = .exec r → r.hashDone + r.outstanding ≤ requestsOf r.word s
  /-- The outstanding request is the next one in order (R45, R76). -/
  pending : ∀ r q, s.unit = .exec r → r.hashReq = some q → q = s.request (r.hashDone + 1)
  /-- In CLEAR everything but CTRL and OVR is at its reset value (R107, R108). -/
  cleared : s.unit = .clear →
    s.g = Vector.replicate 16 0x00#8 ∧ s.mem = [] ∧ s.done = false ∧ s.invz = false ∧ s.err = .success ∧
    s.cfgB = 0 ∧ s.cfgN = 0 ∧ s.cfgT = 0 ∧ s.cfgK = 0 ∧ s.sidLen = 0 ∧ s.ccnt = 0 ∧ s.cmdlog = 0
  /-- While `rst` is asserted every element is at its reset value (R105). -/
  held : s.rst = true → s = s.resetElements

end Sys2Proof.Machine
end

