-- ==== Sys2Proof/Certificates/Slice0/Obligations.lean ====
section
/-! DEFINITION. The statements for the provers, from the numbered rules of spec/. Where a statement reads memory after a write, its
premise `Memory.wf s.mem` is the canonical form every step keeps (`StepKeepsInvariant`). -/

open Sys2Proof Sys2Proof.Machine

/-! ### Encoding -/

/-- Every command's word decodes to that command, with every operand at every value (R48 to R50). -/
def Obligations.DecodeInvertsEncode : Prop := ∀ i : Instr, decode (encode i) = .ok i

/-- Every legal word is the word of the command it decodes to: no two words are one command (R49, R52). -/
def Obligations.EncodeInvertsDecode : Prop := ∀ (w : Word) (i : Instr), decode w = .ok i → encode i = w

/-- The decoder, written from the formats, accepts exactly the words some row of the match/mask table matches, and no two rows match
one word (R51, R52). -/
def Obligations.DecoderAgreesWithMatchAndMask : Prop :=
  (∀ w, (∃ i, decode w = .ok i) ↔ wordWellFormed w = true) ∧
  (∀ w, ∀ r ∈ opcodeRows, ∀ q ∈ opcodeRows, r.accepts w = true → q.accepts w = true → r = q)

/-- Words of the rules' examples and of the decoding vectors decode as the spec says (R64 to R82, 95_test_vectors section 2.2). -/
def Obligations.ExampleWordsDecode : Prop :=
  decode 0x00000000 = .ok .nop ∧ decode 0x01123000 = .ok (.gadd 1 2 3) ∧ decode 0x0245001B = .ok (.gaddi 4 5 0x1B) ∧
  decode 0x03123000 = .ok (.gmul 1 2 3) ∧ decode 0x04210013 = .ok (.gmuli 2 1 0x13) ∧ decode 0x05210000 = .ok (.ginv 2 1) ∧
  decode 0x06312000 = .ok (.gexp 3 1 2) ∧ decode 0x072100FE = .ok (.gexpi 2 1 254) ∧ decode 0x08700053 = .ok (.gli 7 0x53) ∧
  decode 0x10302000 = .ok (.gld 3 0x2000) ∧ decode 0x11404021 = .ok (.gst 4 0x4021) ∧ decode 0x20000000 = .ok .derive ∧
  decode 0x21000001 = .ok (.eval true) ∧ decode 0x22000000 = .ok .recon ∧ decode 0x23000000 = .ok .verify ∧
  decode 0x30000000 = .ok .zero ∧ decode 0x00000001 = .error .reservedField ∧ decode 0x09000000 = .error .reservedOpcode

/-- R53: reserved opcodes and nonzero reserved fields are illegal, and an illegal word only completes with IllegalCommand. -/
def Obligations.ReservedWordsAreIllegal : Prop :=
  (∀ w : Word, let op := (w.extractLsb' 24 8).toNat
    (0x09 ≤ op ∧ op ≤ 0x0F) ∨ (0x12 ≤ op ∧ op ≤ 0x1F) ∨ (0x24 ≤ op ∧ op ≤ 0x2F) ∨ 0x31 ≤ op →
    decode w = .error .reservedOpcode) ∧
  (∀ w : Word, ∀ r ∈ opcodeRows, w.extractLsb' 24 8 = r.pattern.extractLsb' 24 8 → w &&& r.mask ≠ r.pattern →
    decode w = .error .reservedField) ∧
  (∀ (s : State) (r : Running) (e : DecodeError), s.rst = false → s.unit = .exec r → r.hashReq = none →
    decode r.word = .error e → turn s = .next { s with err := .illegalCommand, done := true, unit := .idle })

/-- Every core form assembles to its command with the operands as written, and is refused when an operand is out of range, never
truncated (R55); the pseudo-instructions expand as R56 says; GDIV refuses gd = gs1 and otherwise leaves gs1 · gs2⁻¹ in gd and sets INVZ
when gs2 holds 0. -/
def Obligations.AssemblerRefusesOrExpands : Prop :=
  (Asm.assemble .nop = some [.nop] ∧ Asm.assemble .derive = some [.derive] ∧ Asm.assemble .recon = some [.recon] ∧
    Asm.assemble .verify = some [.verify] ∧ Asm.assemble .zero = some [.zero] ∧ ∀ xs, Asm.assemble (.eval xs) = some [.eval xs]) ∧
  (AssemblesR .gadd .gadd ∧ AssemblesR .gmul .gmul ∧ AssemblesR .gexp .gexp) ∧
  AssemblesU .ginv .ginv ∧
  (AssemblesI .gaddi .gaddi ∧ AssemblesI .gmuli .gmuli ∧ AssemblesI .gexpi .gexpi) ∧
  AssemblesL .gli .gli ∧
  (AssemblesM .gld .gld ∧ AssemblesM .gst .gst) ∧
  (∀ d a b, Asm.assemble (.gsub d a b) = Asm.assemble (.gadd d a b)) ∧
  (∀ d a i, Asm.assemble (.gsubi d a i) = Asm.assemble (.gaddi d a i)) ∧
  (∀ d a, Asm.assemble (.gmov d a) = Asm.assemble (.gaddi d a 0)) ∧
  (∀ d, Asm.assemble (.gclr d) = Asm.assemble (.gli d 0)) ∧
  (∀ d a, Asm.assemble (.gsqr d a) = Asm.assemble (.gmul d a a)) ∧
  (∀ d a b, d = a ∨ 16 ≤ d ∨ 16 ≤ a ∨ 16 ≤ b → Asm.assemble (.gdiv d a b) = none) ∧
  (∀ d a b, d < 16 → a < 16 → b < 16 → d ≠ a →
    ∃ i j, Asm.assemble (.gdiv d a b) = some [i, j] ∧
      ∀ s, ∃ t u, exec i s = .next t ∧ exec j t = .next u ∧
        u.reg (BitVec.ofNat 4 d) = gmul (s.reg (BitVec.ofNat 4 a)) (ginv (s.reg (BitVec.ofNat 4 b))) ∧
        u.invz = (s.invz || s.reg (BitVec.ofNat 4 b) == 0) ∧ (∀ r, r ≠ BitVec.ofNat 4 d → u.reg r = s.reg r))

/-! ### The life of a command -/

/-- A step at the unit's turn runs the decoded command: with no input waiting, or with the turn next in order, `rst` released, the
command's requests answered, `step` is `exec` of the instruction its word decodes to (R30, R52). With no command, in IDLE, a turn keeps
the whole state (R103). -/
def Obligations.StepRunsDecodedCommand : Prop :=
  (∀ (s : State) (r : Running) (i : Instr), s.rst = false → s.unit = .exec r → r.hashReq = none →
    requestsOf r.word s ≤ r.hashDone → decode r.word = .ok i →
    (s.inputs = [] → step s = exec i s) ∧
    (∀ rest, s.inputs = .turn :: rest → step s = exec i { s with inputs := rest })) ∧
  (∀ s : State, s.rst = false → s.unit = .idle → turn s = .next s ∧ (s.inputs = [] → step s = .next s) ∧
    (∀ rest, s.inputs = .turn :: rest → step s = .next { s with inputs := rest }))

/-- A host write to CMD in IDLE accepts the word, in one step (R18, R20, R21, R30, R111). -/
def Obligations.CmdWriteAcceptsWord : Prop :=
  ∀ (s : State) (w : Word) (rest : List Input), s.rst = false → s.unit = .idle → s.inputs = .write 0x000C 32 w :: rest →
    step s = .next { s with
      ccnt := s.ccnt + 1, cmdlog := w, done := false, unit := .exec ⟨w, s.nothresh, 0, none⟩,
      inputs := rest, responses := .write .ok :: s.responses }

/-- A step serves the oldest input: a host access changes the state as the port's rules say, and its answer is recorded (R32, R40). -/
def Obligations.StepServesHostAccess : Prop :=
  (∀ (s : State) (a : Addr) (width : Nat) (rest : List Input), s.rst = false → s.inputs = .read a width :: rest →
    let r := hostRead a width { s with inputs := rest }
    step s = .next { r.1 with responses := r.2 :: s.responses }) ∧
  (∀ (s : State) (a : Addr) (width : Nat) (d : Word) (rest : List Input), s.rst = false → s.inputs = .write a width d :: rest →
    let r := hostWrite a width d { s with inputs := rest }
    step s = .next { r.1 with responses := r.2 :: s.responses })

/-- Every command, in every state, completes: a next state with DONE set and the unit IDLE, with CTRL, OVR, the configuration, CCNT
and CMDLOG as before (R30, R94, R98). -/
def Obligations.EveryCommandCompletes : Prop :=
  ∀ (i : Instr) (s : State), ∃ t c, exec i s = .next t ∧ Completed c s t

/-- The machine never stops: every step answers a next state (R98). -/
def Obligations.StepAlwaysContinues : Prop := ∀ s : State, ∃ t, step s = .next t

/-! ### The field -/

/-- The shift-and-reduce form computes the product of R59 (R60, which the spec derives). -/
def Obligations.ShiftReduceFormIsProduct : Prop := ∀ a b : Byte, gmulShift a b = gmul a b

/-- Addition and multiplication make the bytes a commutative ring of characteristic 2 with unit 0x01 (R63's laws, which the spec
derives from R58 and R59). -/
def Obligations.FieldRingLaws : Prop :=
  ∀ a b c : Byte,
    gadd (gadd a b) c = gadd a (gadd b c) ∧ gadd a b = gadd b a ∧ gadd a 0 = a ∧ gadd a a = 0 ∧
    gmul (gmul a b) c = gmul a (gmul b c) ∧ gmul a b = gmul b a ∧ gmul a (gadd b c) = gadd (gmul a b) (gmul a c) ∧
    gmul a 0 = 0 ∧ gmul a 1 = a

/-- R62: a nonzero element times its inverse is 0x01; the inverse of 0x00 is 0x00, and GINV reports it in INVZ. -/
def Obligations.InverseByFermat : Prop :=
  (∀ a : Byte, ginv a = gexp a 254) ∧ (∀ a : Byte, a ≠ 0 → gmul a (ginv a) = 1) ∧ ginv 0 = 0 ∧
  (∀ (rd rs1 : RegNum) (s : State), s.reg rs1 = 0 →
    ∃ t, exec (.ginv rd rs1) s = .next t ∧ t.reg rd = 0 ∧ t.invz = true ∧ t.err = .success)

/-- The exponent laws and the orders of 0x03 and 0x02 (R63's laws, which the spec derives from R61). -/
def Obligations.ExponentLaws : Prop :=
  (∀ (a : Byte) (d e : Nat), d + e ≤ 255 → gexp a (d + e) = gmul (gexp a d) (gexp a e)) ∧
  (∀ a : Byte, gexp a 0 = 1) ∧ (∀ a : Byte, a ≠ 0 → gexp a 255 = 1) ∧ (∀ e, 1 ≤ e → gexp 0 e = 0) ∧
  (∀ a : Byte, a ≠ 0 → ∃ e < 255, gexp 3 e = a) ∧ (∀ e, 1 ≤ e → e < 51 → gexp 2 e ≠ 1) ∧ gexp 2 51 = 1

/-! ### Scalar commands -/

/-- R64: GADD. -/
def Obligations.GaddAddsRegisters : Prop :=
  (∀ rd rs1 rs2, ScalarEffect (.gadd rd rs1 rs2) rd fun s => s.reg rs1 ^^^ s.reg rs2) ∧
  OpcodeRule 0x01 (fun w => w.extractLsb' 0 12 = 0)
    (fun w => .gadd (w.extractLsb' 20 4) (w.extractLsb' 16 4) (w.extractLsb' 12 4)) ∧
  (∀ rd rs s, ∃ t, exec (.gadd rd rs rs) s = .next t ∧ t.reg rd = 0) ∧
  ExampleOf 0x01123000 (fun s => s.reg 2 = 0x57 ∧ s.reg 3 = 0x83) 1 0xD4

/-- R65: GADDI. -/
def Obligations.GaddiAddsImmediate : Prop :=
  (∀ rd rs1 imm, ScalarEffect (.gaddi rd rs1 imm) rd fun s => s.reg rs1 ^^^ imm) ∧
  OpcodeRule 0x02 (fun w => w.extractLsb' 8 8 = 0)
    (fun w => .gaddi (w.extractLsb' 20 4) (w.extractLsb' 16 4) (w.extractLsb' 0 8)) ∧
  (∀ rd rs1 s, ∃ t, exec (.gaddi rd rs1 0) s = .next t ∧ t.reg rd = s.reg rs1) ∧
  ExampleOf 0x0245001B (fun s => s.reg 5 = 0x57) 4 0x4C

/-- GMUL (R66; its latency sentence is timing, outside the model). -/
def Obligations.GmulMultipliesRegisters : Prop :=
  (∀ rd rs1 rs2, ScalarEffect (.gmul rd rs1 rs2) rd fun s => gmul (s.reg rs1) (s.reg rs2)) ∧
  OpcodeRule 0x03 (fun w => w.extractLsb' 0 12 = 0)
    (fun w => .gmul (w.extractLsb' 20 4) (w.extractLsb' 16 4) (w.extractLsb' 12 4)) ∧
  gmul 0x80 0x02 = 0x1B ∧ gmul 0xFF 0xFF = 0x13 ∧
  ExampleOf 0x03123000 (fun s => s.reg 2 = 0x57 ∧ s.reg 3 = 0x83) 1 0xC1

/-- R67: GMULI. -/
def Obligations.GmuliMultipliesByImmediate : Prop :=
  (∀ rd rs1 imm, ScalarEffect (.gmuli rd rs1 imm) rd fun s => gmul (s.reg rs1) imm) ∧
  OpcodeRule 0x04 (fun w => w.extractLsb' 8 8 = 0)
    (fun w => .gmuli (w.extractLsb' 20 4) (w.extractLsb' 16 4) (w.extractLsb' 0 8)) ∧
  (∀ rd rs1 s, ∃ t, exec (.gmuli rd rs1 0) s = .next t ∧ t.reg rd = 0) ∧
  (∀ rd rs1 s, ∃ t, exec (.gmuli rd rs1 1) s = .next t ∧ t.reg rd = s.reg rs1) ∧
  ExampleOf 0x04210013 (fun s => s.reg 1 = 0x57) 2 0xFE

/-- GINV: the inverse, and INVZ set for a zero operand and otherwise unchanged (R68; its latency sentence is timing). -/
def Obligations.GinvInvertsAndFlagsZero : Prop :=
  (∀ (rd rs1 : RegNum) (s : State), ∃ t, exec (.ginv rd rs1) s = .next t ∧ Completed .success s t ∧
    t.reg rd = ginv (s.reg rs1) ∧ t.invz = (s.invz || s.reg rs1 == 0) ∧ (∀ r, r ≠ rd → t.reg r = s.reg r) ∧ BytesKept s t) ∧
  OpcodeRule 0x05 (fun w => w.extractLsb' 0 16 = 0) (fun w => .ginv (w.extractLsb' 20 4) (w.extractLsb' 16 4)) ∧
  ginv 0x01 = 0x01 ∧ ginv 0x00 = 0x00 ∧ ginv 0x02 = 0x8D ∧ ginv 0x03 = 0xF6 ∧ ginv 0xFF = 0x1C ∧
  ExampleOf 0x05210000 (fun s => s.reg 1 = 0x53) 2 0xCA

/-- R69: GEXP. -/
def Obligations.GexpRaisesToRegister : Prop :=
  (∀ rd rs1 rs2, ScalarEffect (.gexp rd rs1 rs2) rd fun s => gexp (s.reg rs1) (s.reg rs2).toNat) ∧
  OpcodeRule 0x06 (fun w => w.extractLsb' 0 12 = 0)
    (fun w => .gexp (w.extractLsb' 20 4) (w.extractLsb' 16 4) (w.extractLsb' 12 4)) ∧
  (∀ rd rs1 rs2 s, s.reg rs2 = 0 → ∃ t, exec (.gexp rd rs1 rs2) s = .next t ∧ t.reg rd = 1) ∧
  (∀ rd rs1 rs2 s, s.reg rs1 = 0 → s.reg rs2 ≠ 0 → ∃ t, exec (.gexp rd rs1 rs2) s = .next t ∧ t.reg rd = 0) ∧
  (∀ rd rs1 rs2 s, s.reg rs2 = 254 → ∃ t, exec (.gexp rd rs1 rs2) s = .next t ∧ t.reg rd = ginv (s.reg rs1)) ∧
  (∀ rd rs1 rs2 s, s.reg rs1 ≠ 0 → s.reg rs2 = 255 → ∃ t, exec (.gexp rd rs1 rs2) s = .next t ∧ t.reg rd = 1) ∧
  gexp 0x02 8 = 0x1B ∧ gexp 0x03 255 = 0x01 ∧
  ExampleOf 0x06312000 (fun s => s.reg 1 = 0x03 ∧ s.reg 2 = 0x02) 3 0x05

/-- R70: GEXPI. With exponent 254 it inverts and never sets INVZ. -/
def Obligations.GexpiRaisesToImmediate : Prop :=
  (∀ rd rs1 imm, ScalarEffect (.gexpi rd rs1 imm) rd fun s => gexp (s.reg rs1) imm.toNat) ∧
  OpcodeRule 0x07 (fun w => w.extractLsb' 8 8 = 0)
    (fun w => .gexpi (w.extractLsb' 20 4) (w.extractLsb' 16 4) (w.extractLsb' 0 8)) ∧
  (∀ rd rs1 s, ∃ t, exec (.gexpi rd rs1 0) s = .next t ∧ t.reg rd = 1) ∧
  (∀ rd rs1 imm s, s.reg rs1 = 0 → imm ≠ 0 → ∃ t, exec (.gexpi rd rs1 imm) s = .next t ∧ t.reg rd = 0) ∧
  (∀ rd rs1 s, ∃ t, exec (.gexpi rd rs1 254) s = .next t ∧ t.reg rd = ginv (s.reg rs1) ∧ t.invz = s.invz) ∧
  (∀ rd rs1 s, s.reg rs1 ≠ 0 → ∃ t, exec (.gexpi rd rs1 255) s = .next t ∧ t.reg rd = 1) ∧
  ExampleOf 0x072100FE (fun s => s.reg 1 = 0x53) 2 0xCA

/-- R71: GLI. -/
def Obligations.GliLoadsImmediate : Prop :=
  (∀ rd imm, ScalarEffect (.gli rd imm) rd fun _ => imm) ∧
  OpcodeRule 0x08 (fun w => w.extractLsb' 8 12 = 0) (fun w => .gli (w.extractLsb' 20 4) (w.extractLsb' 0 8)) ∧
  ExampleOf 0x08700053 (fun _ => True) 7 0x53

/-! ### Data movement -/

/-- R72: GLD and GST demand a data-window address; any other raises BadAddress with no state change. -/
def Obligations.MovesDemandDataWindow : Prop :=
  ∀ (r : RegNum) (a : Addr) (s : State),
    (¬ InWindow a.toNat → FailsWith (.gld r a) s .badAddress ∧ FailsWith (.gst r a) s .badAddress) ∧
    (InWindow a.toNat →
      (∃ t, exec (.gld r a) s = .next t ∧ t.err = .success) ∧ (∃ t, exec (.gst r a) s = .next t ∧ t.err = .success))

/-- R73: GLD. From the g window it copies a register. The places of X, L, R, SID, C and Y are the address map's (R33). -/
def Obligations.GldLoadsByte : Prop :=
  (∀ (rd : RegNum) (a : Addr) (s : State), InWindow a.toNat →
    ∃ t, exec (.gld rd a) s = .next t ∧ Completed .success s t ∧ t.reg rd = s.memRead a.toNat ∧
      (∀ r, r ≠ rd → t.reg r = s.reg r) ∧ BytesKept s t ∧ t.invz = s.invz) ∧
  (∀ (rd : RegNum) (a : Addr) (s : State), ¬ InWindow a.toNat → FailsWith (.gld rd a) s .badAddress) ∧
  OpcodeRule 0x10 (fun w => w.extractLsb' 16 4 = 0) (fun w => .gld (w.extractLsb' 20 4) (w.extractLsb' 0 16)) ∧
  (∀ (rd i : RegNum) (s : State), ∃ t, exec (.gld rd (0x0100 + i.setWidth 16)) s = .next t ∧ t.reg rd = s.reg i) ∧
  (∀ (rd : RegNum) (s : State), FailsWith (.gld rd 0x0010) s .badAddress) ∧
  (∀ i j k : Nat, xAddr i = 0x0200 + i ∧ lAddr i = 0x0300 + i ∧ rAddr k = 0x0400 + k ∧ sidAddr i = 0x0500 + i ∧
    cAddr j k = 0x2000 + 32 * j + k ∧ yAddr i k = 0x4000 + 32 * i + k) ∧
  ExampleOf 0x10302000 (fun s => s.byte (cAddr 0 0) = 0x3A) 3 0x3A

/-- R74: GST. Into the g window it writes a register; into CMD it raises BadAddress. -/
def Obligations.GstStoresByte : Prop :=
  (∀ (rt : RegNum) (a : Addr) (s : State), Memory.wf s.mem → InWindow a.toNat →
    ∃ t, exec (.gst rt a) s = .next t ∧ Completed .success s t ∧ t.memRead a.toNat = s.reg rt ∧
      (∀ b, InWindow b → b ≠ a.toNat → t.memRead b = s.memRead b) ∧ t.invz = s.invz ∧
      (∀ b, b ≠ a.toNat → t.byte b = s.byte b) ∧ (∀ i : RegNum, a.toNat ≠ 0x0100 + i.toNat → t.reg i = s.reg i)) ∧
  (∀ (rt : RegNum) (a : Addr) (s : State), ¬ InWindow a.toNat → FailsWith (.gst rt a) s .badAddress) ∧
  OpcodeRule 0x11 (fun w => w.extractLsb' 16 4 = 0) (fun w => .gst (w.extractLsb' 20 4) (w.extractLsb' 0 16)) ∧
  (∀ (rt i : RegNum) (s : State), ∃ t, exec (.gst rt (0x0100 + i.setWidth 16)) s = .next t ∧ t.reg i = s.reg rt) ∧
  (∀ (rt : RegNum) (s : State), FailsWith (.gst rt 0x000C) s .badAddress) ∧
  (∃ i, decode 0x11404021 = .ok i ∧ ∀ s, Memory.wf s.mem → s.reg 4 = 0x11 →
    ∃ t, exec i s = .next t ∧ t.err = .success ∧ t.byte (yAddr 1 1) = 0x11)

/-! ### Control commands -/

/-- R90: NOP does the bookkeeping of acceptance and completion and nothing else; an older ERR is cleared. -/
def Obligations.NopOnlyCounts : Prop :=
  (∀ s : State, ∃ t, exec .nop s = .next t ∧ t = { s with err := .success, done := true, unit := .idle }) ∧
  OpcodeRule 0x00 (fun w => w.extractLsb' 0 24 = 0) (fun _ => .nop) ∧
  (∀ s : State, ∃ t, exec .nop (s.accept 0x00000000) = .next t ∧ t.err = .success ∧ t.done = true ∧ t.ccnt = s.ccnt + 1)

/-- ZERO zeroizes every data byte and register; OVR, INVZ, the configuration, CTRL, CCNT and CMDLOG stay (R91; its latency sentence is
timing). -/
def Obligations.ZeroClearsData : Prop :=
  (∀ s : State, ∃ t, exec .zero s = .next t ∧ Completed .success s t ∧ t.invz = s.invz ∧
    (∀ i, t.reg i = 0) ∧ (∀ a, InWindow a → t.memRead a = 0) ∧ (∀ a, ¬ InWindow a → t.byte a = s.byte a)) ∧
  OpcodeRule 0x30 (fun w => w.extractLsb' 0 24 = 0) (fun _ => .zero)

/-! ### Derivation -/

/-- R77: the sharing checks of DERIVE, EVAL and VERIFY; a failing one raises InvalidSize with no state change and no hash request. -/
def Obligations.SharingChecksComeFirst : Prop :=
  (∀ s : State, ¬ SharingLegal s →
    FailsWith .derive s .invalidSize ∧ (∀ xs, FailsWith (.eval xs) s .invalidSize) ∧ FailsWith .verify s .invalidSize ∧
    (∀ w, requestsOf w s = 0)) ∧
  (∀ (s t : State), SharingLegal s → ∀ i ∈ [Instr.derive, .eval false, .eval true, .verify],
    exec i s = .next t → t.err ≠ .invalidSize)

/-- DERIVE fills rows 1..T-1 with the first B bytes of the digests of `LABEL ‖ [T] ‖ [j] ‖ SID[0..SIDLEN)` under the secret, the rest
of each row 0x00, and changes nothing else; T = 1 writes no row (R75, R76, R78). -/
def Obligations.DeriveFillsRows : Prop :=
  ∀ s : State, Memory.wf s.mem → SharingLegal s →
    ∃ t, exec .derive s = .next t ∧ Completed .success s t ∧ RegsKept s t ∧ t.invz = s.invz ∧
      (∀ j, 1 ≤ j → j < s.numT →
        (∀ k < s.numB, t.byte (cAddr j k) =
          (Config.hmacSha256 (s.bytes (cAddr 0 0) s.numB)
            (labelBytes ++ [s.cfgT] ++ [BitVec.ofNat 8 j] ++ s.bytes (sidAddr 0) s.sidLen.toNat)).toList.getD k 0) ∧
        (∀ k, s.numB ≤ k → k < 32 → t.byte (cAddr j k) = 0)) ∧
      BytesKeptOutside (fun a => cAddr 1 0 ≤ a ∧ a < cAddr s.numT 0) s t

/-- During a DERIVE the unit asks for j = 1, 2, … in order, one request at a time, waits for each response, and asks T-1 times in
all; no other word asks at all. A pipeline that does not answer leaves the unit where it is (R44 to R46, R75, R76). -/
def Obligations.RequestsInOrderOneAtATime : Prop :=
  (∀ (s : State) (r : Running), s.rst = false → s.inputs = [] → s.unit = .exec r → decode r.word = .ok .derive → SharingLegal s →
    requestsOf r.word s = s.numT - 1 ∧
    (r.hashReq = none → r.hashDone + 1 < s.numT →
      let key := s.bytes (cAddr 0 0) s.numB
      let msg := labelBytes ++ [s.cfgT] ++ [BitVec.ofNat 8 (r.hashDone + 1)] ++ s.bytes (sidAddr 0) s.sidLen.toNat
      step s = .next { s with unit := .exec { r with hashReq := some ⟨key, msg⟩ } }) ∧
    (∀ q, r.hashReq = some q → s.hashUp = true →
      step s = .next { s with unit := .exec { r with hashDone := r.hashDone + 1, hashReq := none } }) ∧
    (∀ q, r.hashReq = some q → s.hashUp = false → step s = .next s)) ∧
  (∀ (w : Word) (s : State), decode w ≠ .ok .derive → requestsOf w s = 0)

/-- Two DERIVEs with equal secrets, lengths, thresholds and session ids write equal rows, whatever else differs (R79's Determinism, which
the spec derives). -/
def Obligations.DerivationIsDeterministic : Prop :=
  ∀ s₁ s₂ t₁ t₂ : State, Memory.wf s₁.mem → Memory.wf s₂.mem → SharingLegal s₁ → SharingLegal s₂ →
    s₁.cfgB = s₂.cfgB → s₁.cfgT = s₂.cfgT → s₁.sidLen = s₂.sidLen →
    (∀ k < s₁.numB, s₁.byte (cAddr 0 k) = s₂.byte (cAddr 0 k)) →
    (∀ i < s₁.sidLen.toNat, s₁.byte (sidAddr i) = s₂.byte (sidAddr i)) →
    exec .derive s₁ = .next t₁ → exec .derive s₂ = .next t₂ →
    ∀ j, 1 ≤ j → j < s₁.numT → ∀ k < 32, t₁.byte (cAddr j k) = t₂.byte (cAddr j k)

/-! ### Sharing -/

/-- R81: the unit's Horner evaluation of lane k is the lane's polynomial. -/
def Obligations.HornerIsLanePolynomial : Prop := ∀ (s : State) (k : Nat) (x : Byte), s.evalLane k x = lanePolynomial s k x

/-- EVAL and EVAL.X: slot i gets index i+1 or keeps the host's, and the lanes' polynomials at it, the rest of its row 0x00; nothing
else changes. A zero index stops EVAL.X before any slot is written (R82). -/
def Obligations.EvalWritesShares : Prop :=
  (∀ (xs : Bool) (s : State), Memory.wf s.mem → SharingLegal s → (xs = true → IndicesNonzero s s.numN) →
    ∃ t, exec (.eval xs) s = .next t ∧ Completed .success s t ∧ RegsKept s t ∧ t.invz = s.invz ∧
      (∀ i < s.numN, let x := if xs then s.byte (xAddr i) else BitVec.ofNat 8 (i + 1)
        t.byte (xAddr i) = x ∧ (∀ k < s.numB, t.byte (yAddr i k) = lanePolynomial s k x) ∧
        (∀ k, s.numB ≤ k → k < 32 → t.byte (yAddr i k) = 0)) ∧
      BytesKeptOutside (fun a => (xAddr 0 ≤ a ∧ a < xAddr s.numN) ∨ (yAddr 0 0 ≤ a ∧ a < yAddr s.numN 0)) s t) ∧
  (∀ s : State, SharingLegal s → ¬ IndicesNonzero s s.numN → FailsWith (.eval true) s .invalidShareIndex) ∧
  OpcodeRule 0x21 (fun w => w.extractLsb' 1 23 = 0) (fun w => .eval (w.getLsbD 0))

/-- With T = 1 every share's value is the secret, byte for byte, for EVAL and EVAL.X alike (R82). -/
def Obligations.ThresholdOneSharesAreSecret : Prop :=
  ∀ (xs : Bool) (s : State), Memory.wf s.mem → SharingLegal s → s.numT = 1 → (xs = true → IndicesNonzero s s.numN) →
    ∃ t, exec (.eval xs) s = .next t ∧ t.err = .success ∧ ∀ i < s.numN, ∀ k < s.numB, t.byte (yAddr i k) = s.byte (cAddr 0 k)

/-- Lanes are independent: lane k of EVAL's shares depends on lane k of the rows and on the indices alone, and lane k of RECON's and
VERIFY's result on lane k of the slots and on the indices alone (R80). -/
def Obligations.LanesAreIndependent : Prop :=
  ∀ (s₁ s₂ t₁ t₂ : State) (k : Nat), Memory.wf s₁.mem → Memory.wf s₂.mem →
    s₁.cfgB = s₂.cfgB → s₁.cfgN = s₂.cfgN → s₁.cfgT = s₂.cfgT → s₁.cfgK = s₂.cfgK → k < s₁.numB →
    (∀ i < 255, s₁.byte (xAddr i) = s₂.byte (xAddr i)) →
    ((∀ j < 255, s₁.byte (cAddr j k) = s₂.byte (cAddr j k)) →
      ∀ xs, exec (.eval xs) s₁ = .next t₁ → exec (.eval xs) s₂ = .next t₂ → t₁.err = .success → t₂.err = .success →
      ∀ i < s₁.numN, t₁.byte (yAddr i k) = t₂.byte (yAddr i k)) ∧
    ((∀ i < 255, s₁.byte (yAddr i k) = s₂.byte (yAddr i k)) →
      (exec .recon s₁ = .next t₁ → exec .recon s₂ = .next t₂ → t₁.err = .success → t₂.err = .success →
        t₁.byte (rAddr k) = t₂.byte (rAddr k)) ∧
      (exec .verify s₁ = .next t₁ → exec .verify s₂ = .next t₂ → t₁.err ∈ [.success, .internalFailure] →
        t₂.err ∈ [.success, .internalFailure] → t₁.byte (rAddr k) = t₂.byte (rAddr k)))

/-- VERIFY: the index checks over slots 0..T-1, then the combination into L and R, then success or InternalFailure as R agrees with
row 0; L and R stay written either way (R83, R85). -/
def Obligations.VerifyReconstructsAndCompares : Prop :=
  ∀ s : State, Memory.wf s.mem → SharingLegal s →
    (¬ IndicesNonzero s s.numT → FailsWith .verify s .invalidShareIndex) ∧
    (IndicesNonzero s s.numT → ¬ IndicesDistinct s s.numT → FailsWith .verify s .duplicateShareIndex) ∧
    (IndicesNonzero s s.numT → IndicesDistinct s s.numT →
      ∃ t, exec .verify s = .next t ∧ Combined s.numT s t ∧ RegsKept s t ∧ t.invz = s.invz ∧
        ((∀ k < s.numB, interpolated s s.numT k = s.byte (cAddr 0 k)) → Completed .success s t) ∧
        (¬ (∀ k < s.numB, interpolated s s.numT k = s.byte (cAddr 0 k)) → Completed .internalFailure s t))

/-! ### Recovery -/

/-- R84: RECON's checks, the first failing one reported with no state change; NOTHRESH is the CTRL bit at acceptance. -/
def Obligations.ReconChecksInOrder : Prop :=
  (∀ s : State, ¬ IndicesNonzero s s.numK → FailsWith .recon s .invalidShareIndex) ∧
  (∀ s : State, IndicesNonzero s s.numK → ¬ IndicesDistinct s s.numK → FailsWith .recon s .duplicateShareIndex) ∧
  (∀ s : State, IndicesNonzero s s.numK → IndicesDistinct s s.numK → s.numB ∉ [16, 20, 24, 28, 32] →
    FailsWith .recon s .invalidSize) ∧
  (∀ s : State, IndicesNonzero s s.numK → IndicesDistinct s s.numK → s.numB ∈ [16, 20, 24, 28, 32] →
    s.commandNothresh = false →
    (s.numT = 0 → FailsWith .recon s .invalidSize) ∧
    (s.numT ≠ 0 → s.numK < s.numT → FailsWith .recon s .insufficientShares)) ∧
  (∀ s : State, IndicesNonzero s s.numK → IndicesDistinct s s.numK → RecoveryLegal s →
    ∃ t, exec .recon s = .next t ∧ t.err = .success) ∧
  (∀ (s : State) (w : Word), (s.accept w).commandNothresh = s.nothresh)

/-- RECON combines all K slots into L and R by the Lagrange formula, and changes nothing else (R85 to R87). -/
def Obligations.ReconInterpolatesAtZero : Prop :=
  ∀ s : State, Memory.wf s.mem → IndicesNonzero s s.numK → IndicesDistinct s s.numK → RecoveryLegal s →
    ∃ t, exec .recon s = .next t ∧ Completed .success s t ∧ RegsKept s t ∧ t.invz = s.invz ∧ Combined s.numK s t ∧
      (s.numK = 0 → ∀ k < 32, t.byte (rAddr k) = 0) ∧
      (s.numK = 1 → t.byte (lAddr 0) = 1 ∧ ∀ k < s.numB, t.byte (rAddr k) = s.byte (yAddr 0 k))

/-- R89's Correctness, which the spec derives: after EVAL has made shares, any T of them with distinct indices, loaded into slots
0..T-1 of a unit in any order, make RECON recover the secret. The indices EVAL gives its slots (xs = 0) are all distinct, so any T
slots will do then. -/
def Obligations.AnyThresholdSharesRecoverSecret : Prop :=
  (∀ (xs : Bool) (s t u : State) (σ : Nat → Nat),
    Memory.wf s.mem → Memory.wf u.mem → SharingLegal s → exec (.eval xs) s = .next t → t.err = .success →
    (∀ i < s.numT, σ i < s.numN) →
    (∀ i < s.numT, ∀ j < s.numT, t.byte (xAddr (σ i)) = t.byte (xAddr (σ j)) → i = j) →
    u.cfgB = s.cfgB → u.cfgT = s.cfgT → u.cfgK = s.cfgT →
    (∀ i < s.numT, u.byte (xAddr i) = t.byte (xAddr (σ i))) →
    (∀ i < s.numT, ∀ k < s.numB, u.byte (yAddr i k) = t.byte (yAddr (σ i) k)) →
    ∃ v, exec .recon u = .next v ∧ v.err = .success ∧ ∀ k < s.numB, v.byte (rAddr k) = s.byte (cAddr 0 k)) ∧
  (∀ s t : State, Memory.wf s.mem → SharingLegal s → exec (.eval false) s = .next t →
    t.err = .success ∧ ∀ i < s.numN, ∀ j < s.numN, t.byte (xAddr i) = t.byte (xAddr j) → i = j)

/-- After an EVAL with xs = 0 and no host write in between, VERIFY completes with code 0 and R holds the secret (a corner case of
R83, which the spec derives). -/
def Obligations.VerifyAfterEvalSucceeds : Prop :=
  ∀ s t : State, Memory.wf s.mem → SharingLegal s → exec (.eval false) s = .next t →
    ∃ u, exec .verify t = .next u ∧ u.err = .success ∧ ∀ k < s.numB, u.byte (rAddr k) = s.byte (cAddr 0 k)

/-! ### Errors -/

/-- R94: a command that raises a code completes with it and changes nothing else, except that InternalFailure, which only VERIFY
raises, leaves the L and R it computed; a success completes the same way with code 0. CCNT and CMDLOG are acceptance's. -/
def Obligations.FailedCommandsChangeNothing : Prop :=
  (∀ (i : Instr) (s t : State), exec i s = .next t → t.err ≠ .success → t.err ≠ .internalFailure →
    t = { s with err := t.err, done := true, unit := .idle }) ∧
  (∀ (i : Instr) (s t : State), Memory.wf s.mem → exec i s = .next t → t.err = .internalFailure →
    i = .verify ∧ Completed .internalFailure s t ∧ RegsKept s t ∧ t.invz = s.invz ∧ Combined s.numT s t) ∧
  (∀ (s : State) (r : Running) (e : DecodeError), s.rst = false → s.unit = .exec r → r.hashReq = none →
    decode r.word = .error e → turn s = .next { s with err := .illegalCommand, done := true, unit := .idle }) ∧
  (∀ (i : Instr) (s t : State), exec i s = .next t → Completed t.err s t) ∧
  (∀ (s : State) (w : Word), (s.accept w).ccnt = s.ccnt + 1 ∧ (s.accept w).cmdlog = w)

/-- Each command completes only with the codes R92 gives it, and STATUS bits 11:8 then hold the code's number. -/
def Obligations.CommandsRaiseOnlyTheirCodes : Prop :=
  ∀ (i : Instr) (s t : State), exec i s = .next t →
    t.err ∈ codesOf i ∧ (t.err, t.statusWord.extractLsb' 8 4) ∈ resultCodes

/-- Only GINV of a zero operand changes INVZ; no other command touches a flag (R63, R68, R70, R85). -/
def Obligations.OnlyGinvOfZeroSetsInvz : Prop :=
  ∀ (i : Instr) (s t : State), exec i s = .next t → t.invz ≠ s.invz →
    t.invz = true ∧ ∃ rd rs1, i = .ginv rd rs1 ∧ s.reg rs1 = 0

/-! ### The host port -/

/-- R37: which accesses get ERR, with no state change and no OVR even while busy, and which are let through. -/
def Obligations.PortAddressRules : Prop :=
  (∀ (a : Addr) (width : Nat) (s : State), width ≠ 8 → width ≠ 32 → PortError a width s) ∧
  (∀ (a : Addr) (s : State), a.toNat ≤ 0x2B → PortError a 8 s) ∧
  (∀ (a : Addr) (s : State), a.toNat % 4 ≠ 0 → PortError a 32 s) ∧
  (∀ (a : Addr) (width : Nat) (s : State), ¬ a.toNat ≤ 0x2B → ¬ InWindow a.toNat → PortError a width s) ∧
  (∀ (a : Addr) (s : State), ¬ a.toNat ≤ 0x2B → ¬ WordInWindows a.toNat → PortError a 32 s) ∧
  (∀ (a : Addr) (s : State), s.unit = .idle → a.toNat ≤ 0x2B → a.toNat % 4 = 0 → PortServes a 32 s) ∧
  (∀ (a : Addr) (s : State), s.unit = .idle → InWindow a.toNat → PortServes a 8 s) ∧
  (∀ (a : Addr) (s : State), s.unit = .idle → WordInWindows a.toNat → PortServes a 32 s)

/-- R38: while BUSY, what is served, and that every other access is refused, with OVR its only trace, but for the
accesses R37 rejects: ERR without OVR. What the served reads return and the served writes do: `ControlRegisterReads`,
`ControlRegisterWrites`. -/
def Obligations.BusyServesOnlyStatus : Prop :=
  ∀ s : State, s.busy = true →
    (∀ a ∈ [0x0000, 0x0004, 0x0008, 0x000C, 0x0024, 0x0028], ∃ v, hostRead (BitVec.ofNat 16 a) 32 s = (s, .read v .ok)) ∧
    (∀ d, (hostWrite 0x0004 32 d s).2 = .write .ok ∧ (hostWrite 0x0008 32 d s).2 = .write .ok) ∧
    (∀ a ∈ [0x0000, 0x0024, 0x0028], ∀ d, hostWrite (BitVec.ofNat 16 a) 32 d s = (s, .write .ok)) ∧
    WriteRefused 0x000C 32 s ∧
    (∀ a ∈ [0x0010, 0x0014, 0x0018, 0x001C, 0x0020],
      ReadRefused (BitVec.ofNat 16 a) 32 s ∧ WriteRefused (BitVec.ofNat 16 a) 32 s) ∧
    (∀ a : Addr, InWindow a.toNat → ReadRefused a 8 s ∧ WriteRefused a 8 s) ∧
    (∀ a : Addr, WordInWindows a.toNat → ReadRefused a 32 s ∧ WriteRefused a 32 s) ∧
    (∀ (a : Addr) (width : Nat),
      (width ≠ 8 ∧ width ≠ 32) ∨ (width = 8 ∧ ¬ InWindow a.toNat) ∨
      (width = 32 ∧ ¬ (a.toNat ≤ 0x2B ∧ a.toNat % 4 = 0) ∧ ¬ WordInWindows a.toNat) → PortError a width s)

/-- R36: a word of a data window moves its four bytes little-endian, and a write changes those four bytes alone; a word read at 0x2000
is `{S[3], S[2], S[1], S[0]}`. -/
def Obligations.PortIsLittleEndian : Prop :=
  (∀ (a : Addr) (s : State), s.unit = .idle → Memory.wf s.mem → WordInWindows a.toNat →
    (∃ v : Word, hostRead a 32 s = (s, .read v .ok) ∧
      v.extractLsb' 0 8 = s.memRead a.toNat ∧ v.extractLsb' 8 8 = s.memRead (a.toNat + 1) ∧
      v.extractLsb' 16 8 = s.memRead (a.toNat + 2) ∧ v.extractLsb' 24 8 = s.memRead (a.toNat + 3)) ∧
    (∀ d : Word, ∃ t, hostWrite a 32 d s = (t, .write .ok) ∧
      t.memRead a.toNat = d.extractLsb' 0 8 ∧ t.memRead (a.toNat + 1) = d.extractLsb' 8 8 ∧
      t.memRead (a.toNat + 2) = d.extractLsb' 16 8 ∧ t.memRead (a.toNat + 3) = d.extractLsb' 24 8 ∧
      (∀ b, InWindow b → ¬ (a.toNat ≤ b ∧ b < a.toNat + 4) → t.memRead b = s.memRead b) ∧
      t = { s with g := t.g, mem := t.mem })) ∧
  (∀ s : State, s.unit = .idle → hostRead 0x2000 32 s =
    (s, .read (s.byte (cAddr 0 3) ++ s.byte (cAddr 0 2) ++ s.byte (cAddr 0 1) ++ s.byte (cAddr 0 0)) .ok))

/-- An 8-bit access of a data window moves one byte and nothing else (R37, R39). That the byte stands in data bits 7:0 is the model's
choice: assumption log, entry 10. -/
def Obligations.ByteAccessMovesOneByte : Prop :=
  ∀ (a : Addr) (s : State), s.unit = .idle → Memory.wf s.mem → InWindow a.toNat →
    hostRead a 8 s = (s, .read ((s.memRead a.toNat).setWidth 32) .ok) ∧
    (∀ d : Word, ∃ t, hostWrite a 8 d s = (t, .write .ok) ∧ t.memRead a.toNat = d.setWidth 8 ∧
      (∀ b, InWindow b → b ≠ a.toNat → t.memRead b = s.memRead b) ∧ t = { s with g := t.g, mem := t.mem })

/-- What the control registers read as, reserved bits 0, with no side effect: ID, CTRL, STATUS, CMD, CCNT and CMDLOG in every state,
busy or not, with BUSY = 1 exactly outside IDLE and ERR by its number; the configuration registers in IDLE (R15 to R22, R30, R38, R39,
R92). With `rst` asserted, that the port answers at all is the model's reading: assumption log, entry 7. -/
def Obligations.ControlRegisterReads : Prop :=
  ∀ s : State,
    hostRead 0x0000 32 s = (s, .read 0x47460007 .ok) ∧
    (∃ v : Word, hostRead 0x0004 32 s = (s, .read v .ok) ∧ v.getLsbD 0 = s.ie ∧ v.getLsbD 1 = s.nothresh ∧
      v.extractLsb' 2 30 = 0) ∧
    (∃ v : Word, hostRead 0x0008 32 s = (s, .read v .ok) ∧ v.getLsbD 0 = decide (s.unit ≠ .idle) ∧ v.getLsbD 1 = s.done ∧
      v.getLsbD 2 = s.ovr ∧ v.getLsbD 3 = s.invz ∧ v.extractLsb' 4 4 = 0 ∧ (s.err, v.extractLsb' 8 4) ∈ resultCodes ∧
      v.extractLsb' 12 20 = 0) ∧
    hostRead 0x000C 32 s = (s, .read 0 .ok) ∧
    hostRead 0x0024 32 s = (s, .read s.ccnt .ok) ∧ hostRead 0x0028 32 s = (s, .read s.cmdlog .ok) ∧
    (s.unit = .idle →
      hostRead 0x0010 32 s = (s, .read (s.cfgB.setWidth 32) .ok) ∧ hostRead 0x0014 32 s = (s, .read (s.cfgN.setWidth 32) .ok) ∧
      hostRead 0x0018 32 s = (s, .read (s.cfgT.setWidth 32) .ok) ∧ hostRead 0x001C 32 s = (s, .read (s.cfgK.setWidth 32) .ok) ∧
      hostRead 0x0020 32 s = (s, .read (s.sidLen.setWidth 32) .ok))

/-- What writes to the control registers do. In every state, busy or not: ID, CCNT and CMDLOG ignore them; CTRL, without SRST, takes IE
and NOTHRESH; STATUS clears the W1C bits written as 1. In IDLE a configuration register stores bits 7:0, legal or not (R15 to R22, R38,
R39). With `rst` asserted such a write does not last (R105; assumption log, entry 7). -/
def Obligations.ControlRegisterWrites : Prop :=
  ∀ (s : State) (d : Word),
    hostWrite 0x0000 32 d s = (s, .write .ok) ∧ hostWrite 0x0024 32 d s = (s, .write .ok) ∧
    hostWrite 0x0028 32 d s = (s, .write .ok) ∧
    (d.getLsbD 31 = false →
      hostWrite 0x0004 32 d s = ({ s with ie := d.getLsbD 0, nothresh := d.getLsbD 1 }, .write .ok)) ∧
    hostWrite 0x0008 32 d s = ({ s with
      done := if d.getLsbD 1 then false else s.done, ovr := if d.getLsbD 2 then false else s.ovr,
      invz := if d.getLsbD 3 then false else s.invz }, .write .ok) ∧
    (s.unit = .idle →
      hostWrite 0x0010 32 d s = ({ s with cfgB := d.extractLsb' 0 8 }, .write .ok) ∧
      hostWrite 0x0014 32 d s = ({ s with cfgN := d.extractLsb' 0 8 }, .write .ok) ∧
      hostWrite 0x0018 32 d s = ({ s with cfgT := d.extractLsb' 0 8 }, .write .ok) ∧
      hostWrite 0x001C 32 d s = ({ s with cfgK := d.extractLsb' 0 8 }, .write .ok) ∧
      hostWrite 0x0020 32 d s = ({ s with sidLen := d.extractLsb' 0 8 }, .write .ok))

/-! ### Reset and interrupt -/

/-- R106: a CTRL write with SRST = 1 is a soft reset, busy or not: every element at its reset value, CLEAR entered, the write's other
bits discarded, the port answering OK; a pulse of `rst` has the same effect. -/
def Obligations.SoftResetEqualsRstPulse : Prop :=
  ∀ (s : State) (d : Word), s.rst = false → d.getLsbD 31 = true →
    let t := { State.reset with hashUp := s.hashUp, inputs := s.inputs, responses := s.responses }
    hostWrite 0x0004 32 d s = (t, .write .ok) ∧ t.ctrlWord = 0 ∧
    ∃ u, serve (.rst true) s = .next u ∧ serve (.rst false) u = .next t

/-- R107: the reset values, of every state element the spec gives one; CLEAR with BUSY = 1 first, then IDLE with BUSY = 0. -/
def Obligations.ResetValues : Prop :=
  let s := State.reset
  (hostRead 0x0000 32 s).2 = .read 0x47460007 .ok ∧ s.ie = false ∧ s.nothresh = false ∧ s.busy = true ∧
  s.done = false ∧ s.ovr = false ∧ s.invz = false ∧ s.err = .success ∧
  s.cfgB = 0 ∧ s.cfgN = 0 ∧ s.cfgT = 0 ∧ s.cfgK = 0 ∧ s.sidLen = 0 ∧ s.ccnt = 0 ∧ s.cmdlog = 0 ∧
  (∀ i, s.reg i = 0) ∧ (∀ a, s.byte a = 0) ∧ s.unit = .clear ∧ s.irq = false ∧
  ∃ t, step s = .next t ∧ t = { s with unit := .idle } ∧ t.busy = false

/-- While `rst` is asserted every element is held at its reset value and `irq` is low, whatever the host does; released, the unit
enters CLEAR; a turn ends CLEAR and changes the unit state alone, so OVR is kept and DONE stays 0 (R105, R107, R108). What the port
answers under `rst` is the model's reading: assumption log, entry 7; so is that CTRL and STATUS writes served during CLEAR outlast it:
entry 11. -/
def Obligations.RstHoldsThenClears : Prop :=
  (∀ s : State, ∃ t, serve (.rst true) s = .next t ∧ t.rst = true ∧ t = t.resetElements ∧ t.irq = false) ∧
  (∀ (s t : State) (i : Input), s.rst = true → s = s.resetElements → (∀ level, i ≠ .rst level) → serve i s = .next t →
    t.rst = true ∧ t = t.resetElements ∧ t.irq = false) ∧
  (∀ s : State, s.rst = true → ∃ t, serve (.rst false) s = .next t ∧ t.rst = false ∧ t.unit = .clear ∧ t = t.resetElements) ∧
  (∀ s : State, s.rst = false → s.unit = .clear → turn s = .next { s with unit := .idle })

/-- R97: `irq` is IE AND DONE; it rises at a completion with IE = 1 whatever the code, or when IE is set with DONE = 1, and falls at a
write of 1 to DONE, a write of 0 to IE, the next acceptance, or a reset; OVR and INVZ do not matter. -/
def Obligations.IrqFollowsDoneAndEnable : Prop :=
  (∀ s : State, s.rst = false → s.irq = (s.ie && s.done)) ∧
  (∀ (i : Instr) (s t : State), s.rst = false → exec i s = .next t → t.irq = s.ie) ∧
  (∀ (s : State) (c : ErrCode), s.rst = false → (s.complete c).irq = s.ie) ∧
  (∀ (s : State) (d : Word), s.rst = false → s.done = true → d.getLsbD 31 = false →
    (hostWrite 0x0004 32 d s).1.irq = d.getLsbD 0) ∧
  (∀ (s : State) (d : Word), d.getLsbD 1 = true → (hostWrite 0x0008 32 d s).1.irq = false) ∧
  (∀ (s : State) (w : Word), (s.accept w).irq = false) ∧
  (∀ s : State, s.resetElements.irq = false) ∧
  (∀ (s : State) (o z : Bool), { s with ovr := o, invz := z }.irq = s.irq)

/-! ### The whole machine -/

/-- The invariant holds right after reset. -/
def Obligations.ResetMeetsInvariant : Prop := Invariant State.reset

/-- Every step keeps the invariant: canonical memory within the data windows, CMDLOG and DONE true to the running command, the hash
port asked in order and no more than the command asks, CLEAR and `rst` holding the reset values (R17, R21, R30, R33, R45, R105, R107,
R108). -/
def Obligations.StepKeepsInvariant : Prop := ∀ s t : State, Invariant s → step s = .next t → Invariant t

/-- A command in EXEC completes after finitely many moves, if the pipeline answers and the host does nothing (R46, R114). -/
def Obligations.RunningCommandCompletes : Prop :=
  ∀ (s : State) (r : Running), s.rst = false → s.hashUp = true → s.inputs = [] → s.unit = .exec r →
    ∃ k ≤ 510, ∃ t, Host.Core.run Sys2Proof.core k s = .next t ∧ t.unit = .idle ∧ t.done = true

/-- No host access while a command runs, short of a soft reset, changes what the command then does: its code, registers and memory are
the same, NOTHRESH included, which was read at acceptance (R38, R40, R111, R112). -/
def Obligations.BusyAccessesDoNotDisturbCommand : Prop :=
  ∀ (s : State) (r : Running) (x : Input) (t : State), s.rst = false → s.unit = .exec r →
    ((∃ a w, x = .read a w) ∨ (∃ a w d, x = .write a w d ∧ ¬ (a = 0x0004 ∧ w = 32 ∧ d.getLsbD 31 = true))) →
    serve x s = .next t →
    t.unit = .exec r ∧ ∀ i, ∃ u v, exec i s = .next u ∧ exec i t = .next v ∧
      v.g = u.g ∧ v.mem = u.mem ∧ v.err = u.err ∧ v.done = u.done ∧ v.unit = u.unit

/-- While BUSY the host learns nothing of the registers and the memory: two states that differ in these alone answer every access
alike, and differ in these alone afterwards (R38, R40). -/
def Obligations.BusyHidesData : Prop :=
  ∀ (s : State) (g : Vector Byte 16) (m : Memory), s.busy = true →
    let s' := { s with g := g, mem := m }
    (∀ (a : Addr) (w : Nat), (hostRead a w s').2 = (hostRead a w s).2 ∧
      ∃ g' m', (hostRead a w s').1 = { (hostRead a w s).1 with g := g', mem := m' }) ∧
    (∀ (a : Addr) (w : Nat) (d : Word), (hostWrite a w d s').2 = (hostWrite a w d s).2 ∧
      ∃ g' m', (hostWrite a w d s').1 = { (hostWrite a w d s).1 with g := g', mem := m' })

/-- Both outcomes of a second CMD write right after the first exist: accepted after the first command has completed, or refused while
it still runs (95_test_vectors P5; R30, R38). -/
def Obligations.SecondCommandRaceBothWays : Prop :=
  let idle := { State.reset with unit := .idle }
  let nop : Input := .write 0x000C 32 0x00000000
  let gli : Input := .write 0x000C 32 0x08100053
  (∃ t, Host.Core.run Sys2Proof.core 4 { idle with inputs := [nop, .turn, gli, .turn] } = .next t ∧
    t.reg 1 = 0x53 ∧ t.ccnt = 2 ∧ t.ovr = false ∧ t.responses = [.write .ok, .write .ok]) ∧
  (∃ t, Host.Core.run Sys2Proof.core 3 { idle with inputs := [nop, gli, .turn] } = .next t ∧
    t.reg 1 = 0 ∧ t.ccnt = 1 ∧ t.ovr = true ∧ t.responses = [.write .err, .write .ok])
end

