-- ==== Sys2Proof/Laws/State.lean ====
section
/-! SUPPORT. One lemma per field per update of the state, so that no proof unfolds a record update; and the registers and bytes read
after one update. -/

namespace Sys2Proof.Machine

variable (s : State)


/-! `setReg` -/

@[simp] theorem setReg_mem (i : RegNum) (v : Byte) : (s.setReg i v).mem = s.mem := rfl
@[simp] theorem setReg_ie (i : RegNum) (v : Byte) : (s.setReg i v).ie = s.ie := rfl
@[simp] theorem setReg_nothresh (i : RegNum) (v : Byte) : (s.setReg i v).nothresh = s.nothresh := rfl
@[simp] theorem setReg_done (i : RegNum) (v : Byte) : (s.setReg i v).done = s.done := rfl
@[simp] theorem setReg_ovr (i : RegNum) (v : Byte) : (s.setReg i v).ovr = s.ovr := rfl
@[simp] theorem setReg_invz (i : RegNum) (v : Byte) : (s.setReg i v).invz = s.invz := rfl
@[simp] theorem setReg_err (i : RegNum) (v : Byte) : (s.setReg i v).err = s.err := rfl
@[simp] theorem setReg_cfgB (i : RegNum) (v : Byte) : (s.setReg i v).cfgB = s.cfgB := rfl
@[simp] theorem setReg_cfgN (i : RegNum) (v : Byte) : (s.setReg i v).cfgN = s.cfgN := rfl
@[simp] theorem setReg_cfgT (i : RegNum) (v : Byte) : (s.setReg i v).cfgT = s.cfgT := rfl
@[simp] theorem setReg_cfgK (i : RegNum) (v : Byte) : (s.setReg i v).cfgK = s.cfgK := rfl
@[simp] theorem setReg_sidLen (i : RegNum) (v : Byte) : (s.setReg i v).sidLen = s.sidLen := rfl
@[simp] theorem setReg_ccnt (i : RegNum) (v : Byte) : (s.setReg i v).ccnt = s.ccnt := rfl
@[simp] theorem setReg_cmdlog (i : RegNum) (v : Byte) : (s.setReg i v).cmdlog = s.cmdlog := rfl
@[simp] theorem setReg_unit (i : RegNum) (v : Byte) : (s.setReg i v).unit = s.unit := rfl
@[simp] theorem setReg_rst (i : RegNum) (v : Byte) : (s.setReg i v).rst = s.rst := rfl
@[simp] theorem setReg_hashUp (i : RegNum) (v : Byte) : (s.setReg i v).hashUp = s.hashUp := rfl
@[simp] theorem setReg_inputs (i : RegNum) (v : Byte) : (s.setReg i v).inputs = s.inputs := rfl
@[simp] theorem setReg_responses (i : RegNum) (v : Byte) : (s.setReg i v).responses = s.responses := rfl

/-! `setByte` -/

@[simp] theorem setByte_g (a : Nat) (v : Byte) : (s.setByte a v).g = s.g := rfl
@[simp] theorem setByte_ie (a : Nat) (v : Byte) : (s.setByte a v).ie = s.ie := rfl
@[simp] theorem setByte_nothresh (a : Nat) (v : Byte) : (s.setByte a v).nothresh = s.nothresh := rfl
@[simp] theorem setByte_done (a : Nat) (v : Byte) : (s.setByte a v).done = s.done := rfl
@[simp] theorem setByte_ovr (a : Nat) (v : Byte) : (s.setByte a v).ovr = s.ovr := rfl
@[simp] theorem setByte_invz (a : Nat) (v : Byte) : (s.setByte a v).invz = s.invz := rfl
@[simp] theorem setByte_err (a : Nat) (v : Byte) : (s.setByte a v).err = s.err := rfl
@[simp] theorem setByte_cfgB (a : Nat) (v : Byte) : (s.setByte a v).cfgB = s.cfgB := rfl
@[simp] theorem setByte_cfgN (a : Nat) (v : Byte) : (s.setByte a v).cfgN = s.cfgN := rfl
@[simp] theorem setByte_cfgT (a : Nat) (v : Byte) : (s.setByte a v).cfgT = s.cfgT := rfl
@[simp] theorem setByte_cfgK (a : Nat) (v : Byte) : (s.setByte a v).cfgK = s.cfgK := rfl
@[simp] theorem setByte_sidLen (a : Nat) (v : Byte) : (s.setByte a v).sidLen = s.sidLen := rfl
@[simp] theorem setByte_ccnt (a : Nat) (v : Byte) : (s.setByte a v).ccnt = s.ccnt := rfl
@[simp] theorem setByte_cmdlog (a : Nat) (v : Byte) : (s.setByte a v).cmdlog = s.cmdlog := rfl
@[simp] theorem setByte_unit (a : Nat) (v : Byte) : (s.setByte a v).unit = s.unit := rfl
@[simp] theorem setByte_rst (a : Nat) (v : Byte) : (s.setByte a v).rst = s.rst := rfl
@[simp] theorem setByte_hashUp (a : Nat) (v : Byte) : (s.setByte a v).hashUp = s.hashUp := rfl
@[simp] theorem setByte_inputs (a : Nat) (v : Byte) : (s.setByte a v).inputs = s.inputs := rfl
@[simp] theorem setByte_responses (a : Nat) (v : Byte) : (s.setByte a v).responses = s.responses := rfl
@[simp] theorem setByte_mem (a : Nat) (v : Byte) : (s.setByte a v).mem = Memory.write s.mem a v := rfl

/-! `clearBytes` -/

@[simp] theorem clearBytes_g (b n : Nat) : (s.clearBytes b n).g = s.g := rfl
@[simp] theorem clearBytes_ie (b n : Nat) : (s.clearBytes b n).ie = s.ie := rfl
@[simp] theorem clearBytes_nothresh (b n : Nat) : (s.clearBytes b n).nothresh = s.nothresh := rfl
@[simp] theorem clearBytes_done (b n : Nat) : (s.clearBytes b n).done = s.done := rfl
@[simp] theorem clearBytes_ovr (b n : Nat) : (s.clearBytes b n).ovr = s.ovr := rfl
@[simp] theorem clearBytes_invz (b n : Nat) : (s.clearBytes b n).invz = s.invz := rfl
@[simp] theorem clearBytes_err (b n : Nat) : (s.clearBytes b n).err = s.err := rfl
@[simp] theorem clearBytes_cfgB (b n : Nat) : (s.clearBytes b n).cfgB = s.cfgB := rfl
@[simp] theorem clearBytes_cfgN (b n : Nat) : (s.clearBytes b n).cfgN = s.cfgN := rfl
@[simp] theorem clearBytes_cfgT (b n : Nat) : (s.clearBytes b n).cfgT = s.cfgT := rfl
@[simp] theorem clearBytes_cfgK (b n : Nat) : (s.clearBytes b n).cfgK = s.cfgK := rfl
@[simp] theorem clearBytes_sidLen (b n : Nat) : (s.clearBytes b n).sidLen = s.sidLen := rfl
@[simp] theorem clearBytes_ccnt (b n : Nat) : (s.clearBytes b n).ccnt = s.ccnt := rfl
@[simp] theorem clearBytes_cmdlog (b n : Nat) : (s.clearBytes b n).cmdlog = s.cmdlog := rfl
@[simp] theorem clearBytes_unit (b n : Nat) : (s.clearBytes b n).unit = s.unit := rfl
@[simp] theorem clearBytes_rst (b n : Nat) : (s.clearBytes b n).rst = s.rst := rfl
@[simp] theorem clearBytes_hashUp (b n : Nat) : (s.clearBytes b n).hashUp = s.hashUp := rfl
@[simp] theorem clearBytes_inputs (b n : Nat) : (s.clearBytes b n).inputs = s.inputs := rfl
@[simp] theorem clearBytes_responses (b n : Nat) : (s.clearBytes b n).responses = s.responses := rfl
@[simp] theorem clearBytes_mem (b n : Nat) : (s.clearBytes b n).mem = Memory.clear s.mem b n := rfl

/-! `complete` -/

@[simp] theorem complete_g (c : ErrCode) : (s.complete c).g = s.g := rfl
@[simp] theorem complete_mem (c : ErrCode) : (s.complete c).mem = s.mem := rfl
@[simp] theorem complete_ie (c : ErrCode) : (s.complete c).ie = s.ie := rfl
@[simp] theorem complete_nothresh (c : ErrCode) : (s.complete c).nothresh = s.nothresh := rfl
@[simp] theorem complete_ovr (c : ErrCode) : (s.complete c).ovr = s.ovr := rfl
@[simp] theorem complete_invz (c : ErrCode) : (s.complete c).invz = s.invz := rfl
@[simp] theorem complete_cfgB (c : ErrCode) : (s.complete c).cfgB = s.cfgB := rfl
@[simp] theorem complete_cfgN (c : ErrCode) : (s.complete c).cfgN = s.cfgN := rfl
@[simp] theorem complete_cfgT (c : ErrCode) : (s.complete c).cfgT = s.cfgT := rfl
@[simp] theorem complete_cfgK (c : ErrCode) : (s.complete c).cfgK = s.cfgK := rfl
@[simp] theorem complete_sidLen (c : ErrCode) : (s.complete c).sidLen = s.sidLen := rfl
@[simp] theorem complete_ccnt (c : ErrCode) : (s.complete c).ccnt = s.ccnt := rfl
@[simp] theorem complete_cmdlog (c : ErrCode) : (s.complete c).cmdlog = s.cmdlog := rfl
@[simp] theorem complete_rst (c : ErrCode) : (s.complete c).rst = s.rst := rfl
@[simp] theorem complete_hashUp (c : ErrCode) : (s.complete c).hashUp = s.hashUp := rfl
@[simp] theorem complete_inputs (c : ErrCode) : (s.complete c).inputs = s.inputs := rfl
@[simp] theorem complete_responses (c : ErrCode) : (s.complete c).responses = s.responses := rfl
@[simp] theorem complete_err (c : ErrCode) : (s.complete c).err = c := rfl
@[simp] theorem complete_done (c : ErrCode) : (s.complete c).done = true := rfl
@[simp] theorem complete_unit (c : ErrCode) : (s.complete c).unit = .idle := rfl

/-! `accept` -/

@[simp] theorem accept_g (w : Word) : (s.accept w).g = s.g := rfl
@[simp] theorem accept_mem (w : Word) : (s.accept w).mem = s.mem := rfl
@[simp] theorem accept_ie (w : Word) : (s.accept w).ie = s.ie := rfl
@[simp] theorem accept_nothresh (w : Word) : (s.accept w).nothresh = s.nothresh := rfl
@[simp] theorem accept_ovr (w : Word) : (s.accept w).ovr = s.ovr := rfl
@[simp] theorem accept_invz (w : Word) : (s.accept w).invz = s.invz := rfl
@[simp] theorem accept_err (w : Word) : (s.accept w).err = s.err := rfl
@[simp] theorem accept_cfgB (w : Word) : (s.accept w).cfgB = s.cfgB := rfl
@[simp] theorem accept_cfgN (w : Word) : (s.accept w).cfgN = s.cfgN := rfl
@[simp] theorem accept_cfgT (w : Word) : (s.accept w).cfgT = s.cfgT := rfl
@[simp] theorem accept_cfgK (w : Word) : (s.accept w).cfgK = s.cfgK := rfl
@[simp] theorem accept_sidLen (w : Word) : (s.accept w).sidLen = s.sidLen := rfl
@[simp] theorem accept_rst (w : Word) : (s.accept w).rst = s.rst := rfl
@[simp] theorem accept_hashUp (w : Word) : (s.accept w).hashUp = s.hashUp := rfl
@[simp] theorem accept_inputs (w : Word) : (s.accept w).inputs = s.inputs := rfl
@[simp] theorem accept_responses (w : Word) : (s.accept w).responses = s.responses := rfl
@[simp] theorem accept_ccnt (w : Word) : (s.accept w).ccnt = s.ccnt + 1 := rfl
@[simp] theorem accept_cmdlog (w : Word) : (s.accept w).cmdlog = w := rfl
@[simp] theorem accept_done (w : Word) : (s.accept w).done = false := rfl
@[simp] theorem accept_unit (w : Word) : (s.accept w).unit = .exec ⟨w, s.nothresh, 0, none⟩ := rfl

/-! `setOvr` -/

@[simp] theorem setOvr_g : (s.setOvr).g = s.g := rfl
@[simp] theorem setOvr_mem : (s.setOvr).mem = s.mem := rfl
@[simp] theorem setOvr_ie : (s.setOvr).ie = s.ie := rfl
@[simp] theorem setOvr_nothresh : (s.setOvr).nothresh = s.nothresh := rfl
@[simp] theorem setOvr_done : (s.setOvr).done = s.done := rfl
@[simp] theorem setOvr_invz : (s.setOvr).invz = s.invz := rfl
@[simp] theorem setOvr_err : (s.setOvr).err = s.err := rfl
@[simp] theorem setOvr_cfgB : (s.setOvr).cfgB = s.cfgB := rfl
@[simp] theorem setOvr_cfgN : (s.setOvr).cfgN = s.cfgN := rfl
@[simp] theorem setOvr_cfgT : (s.setOvr).cfgT = s.cfgT := rfl
@[simp] theorem setOvr_cfgK : (s.setOvr).cfgK = s.cfgK := rfl
@[simp] theorem setOvr_sidLen : (s.setOvr).sidLen = s.sidLen := rfl
@[simp] theorem setOvr_ccnt : (s.setOvr).ccnt = s.ccnt := rfl
@[simp] theorem setOvr_cmdlog : (s.setOvr).cmdlog = s.cmdlog := rfl
@[simp] theorem setOvr_unit : (s.setOvr).unit = s.unit := rfl
@[simp] theorem setOvr_rst : (s.setOvr).rst = s.rst := rfl
@[simp] theorem setOvr_hashUp : (s.setOvr).hashUp = s.hashUp := rfl
@[simp] theorem setOvr_inputs : (s.setOvr).inputs = s.inputs := rfl
@[simp] theorem setOvr_responses : (s.setOvr).responses = s.responses := rfl
@[simp] theorem setOvr_ovr : (s.setOvr).ovr = true := rfl

/-! `noteInverse` -/

@[simp] theorem noteInverse_g (a : Byte) : (s.noteInverse a).g = s.g := rfl
@[simp] theorem noteInverse_mem (a : Byte) : (s.noteInverse a).mem = s.mem := rfl
@[simp] theorem noteInverse_ie (a : Byte) : (s.noteInverse a).ie = s.ie := rfl
@[simp] theorem noteInverse_nothresh (a : Byte) : (s.noteInverse a).nothresh = s.nothresh := rfl
@[simp] theorem noteInverse_done (a : Byte) : (s.noteInverse a).done = s.done := rfl
@[simp] theorem noteInverse_ovr (a : Byte) : (s.noteInverse a).ovr = s.ovr := rfl
@[simp] theorem noteInverse_err (a : Byte) : (s.noteInverse a).err = s.err := rfl
@[simp] theorem noteInverse_cfgB (a : Byte) : (s.noteInverse a).cfgB = s.cfgB := rfl
@[simp] theorem noteInverse_cfgN (a : Byte) : (s.noteInverse a).cfgN = s.cfgN := rfl
@[simp] theorem noteInverse_cfgT (a : Byte) : (s.noteInverse a).cfgT = s.cfgT := rfl
@[simp] theorem noteInverse_cfgK (a : Byte) : (s.noteInverse a).cfgK = s.cfgK := rfl
@[simp] theorem noteInverse_sidLen (a : Byte) : (s.noteInverse a).sidLen = s.sidLen := rfl
@[simp] theorem noteInverse_ccnt (a : Byte) : (s.noteInverse a).ccnt = s.ccnt := rfl
@[simp] theorem noteInverse_cmdlog (a : Byte) : (s.noteInverse a).cmdlog = s.cmdlog := rfl
@[simp] theorem noteInverse_unit (a : Byte) : (s.noteInverse a).unit = s.unit := rfl
@[simp] theorem noteInverse_rst (a : Byte) : (s.noteInverse a).rst = s.rst := rfl
@[simp] theorem noteInverse_hashUp (a : Byte) : (s.noteInverse a).hashUp = s.hashUp := rfl
@[simp] theorem noteInverse_inputs (a : Byte) : (s.noteInverse a).inputs = s.inputs := rfl
@[simp] theorem noteInverse_responses (a : Byte) : (s.noteInverse a).responses = s.responses := rfl
@[simp] theorem noteInverse_invz (a : Byte) : (s.noteInverse a).invz = (s.invz || a == 0x00#8) := rfl

/-! `writeStatus` -/

@[simp] theorem writeStatus_g (d : Word) : (s.writeStatus d).g = s.g := rfl
@[simp] theorem writeStatus_mem (d : Word) : (s.writeStatus d).mem = s.mem := rfl
@[simp] theorem writeStatus_ie (d : Word) : (s.writeStatus d).ie = s.ie := rfl
@[simp] theorem writeStatus_nothresh (d : Word) : (s.writeStatus d).nothresh = s.nothresh := rfl
@[simp] theorem writeStatus_err (d : Word) : (s.writeStatus d).err = s.err := rfl
@[simp] theorem writeStatus_cfgB (d : Word) : (s.writeStatus d).cfgB = s.cfgB := rfl
@[simp] theorem writeStatus_cfgN (d : Word) : (s.writeStatus d).cfgN = s.cfgN := rfl
@[simp] theorem writeStatus_cfgT (d : Word) : (s.writeStatus d).cfgT = s.cfgT := rfl
@[simp] theorem writeStatus_cfgK (d : Word) : (s.writeStatus d).cfgK = s.cfgK := rfl
@[simp] theorem writeStatus_sidLen (d : Word) : (s.writeStatus d).sidLen = s.sidLen := rfl
@[simp] theorem writeStatus_ccnt (d : Word) : (s.writeStatus d).ccnt = s.ccnt := rfl
@[simp] theorem writeStatus_cmdlog (d : Word) : (s.writeStatus d).cmdlog = s.cmdlog := rfl
@[simp] theorem writeStatus_unit (d : Word) : (s.writeStatus d).unit = s.unit := rfl
@[simp] theorem writeStatus_rst (d : Word) : (s.writeStatus d).rst = s.rst := rfl
@[simp] theorem writeStatus_hashUp (d : Word) : (s.writeStatus d).hashUp = s.hashUp := rfl
@[simp] theorem writeStatus_inputs (d : Word) : (s.writeStatus d).inputs = s.inputs := rfl
@[simp] theorem writeStatus_responses (d : Word) : (s.writeStatus d).responses = s.responses := rfl

/-! `resetElements` -/

@[simp] theorem resetElements_rst : (s.resetElements).rst = s.rst := rfl
@[simp] theorem resetElements_hashUp : (s.resetElements).hashUp = s.hashUp := rfl
@[simp] theorem resetElements_inputs : (s.resetElements).inputs = s.inputs := rfl
@[simp] theorem resetElements_responses : (s.resetElements).responses = s.responses := rfl
@[simp] theorem resetElements_g : (s.resetElements).g = Vector.replicate 16 0x00#8 := rfl
@[simp] theorem resetElements_mem : (s.resetElements).mem = [] := rfl
@[simp] theorem resetElements_ie : (s.resetElements).ie = false := rfl
@[simp] theorem resetElements_nothresh : (s.resetElements).nothresh = false := rfl
@[simp] theorem resetElements_done : (s.resetElements).done = false := rfl
@[simp] theorem resetElements_ovr : (s.resetElements).ovr = false := rfl
@[simp] theorem resetElements_invz : (s.resetElements).invz = false := rfl
@[simp] theorem resetElements_err : (s.resetElements).err = .success := rfl
@[simp] theorem resetElements_cfgB : (s.resetElements).cfgB = 0 := rfl
@[simp] theorem resetElements_cfgN : (s.resetElements).cfgN = 0 := rfl
@[simp] theorem resetElements_cfgT : (s.resetElements).cfgT = 0 := rfl
@[simp] theorem resetElements_cfgK : (s.resetElements).cfgK = 0 := rfl
@[simp] theorem resetElements_sidLen : (s.resetElements).sidLen = 0 := rfl
@[simp] theorem resetElements_ccnt : (s.resetElements).ccnt = 0 := rfl
@[simp] theorem resetElements_cmdlog : (s.resetElements).cmdlog = 0 := rfl
@[simp] theorem resetElements_unit : (s.resetElements).unit = .clear := rfl

/-! `setBytes` changes memory alone -/

theorem setBytes_eq (a : Nat) (vs : List Byte) : s.setBytes a vs = { s with mem := (s.setBytes a vs).mem } := by
  induction vs generalizing s a with
  | nil => rfl
  | cons v vs ih => rw [State.setBytes, ih]; rfl

@[simp] theorem setBytes_g (a : Nat) (vs : List Byte) : (s.setBytes a vs).g = s.g := by rw [setBytes_eq]
@[simp] theorem setBytes_ie (a : Nat) (vs : List Byte) : (s.setBytes a vs).ie = s.ie := by rw [setBytes_eq]
@[simp] theorem setBytes_nothresh (a : Nat) (vs : List Byte) : (s.setBytes a vs).nothresh = s.nothresh := by rw [setBytes_eq]
@[simp] theorem setBytes_done (a : Nat) (vs : List Byte) : (s.setBytes a vs).done = s.done := by rw [setBytes_eq]
@[simp] theorem setBytes_ovr (a : Nat) (vs : List Byte) : (s.setBytes a vs).ovr = s.ovr := by rw [setBytes_eq]
@[simp] theorem setBytes_invz (a : Nat) (vs : List Byte) : (s.setBytes a vs).invz = s.invz := by rw [setBytes_eq]
@[simp] theorem setBytes_err (a : Nat) (vs : List Byte) : (s.setBytes a vs).err = s.err := by rw [setBytes_eq]
@[simp] theorem setBytes_cfgB (a : Nat) (vs : List Byte) : (s.setBytes a vs).cfgB = s.cfgB := by rw [setBytes_eq]
@[simp] theorem setBytes_cfgN (a : Nat) (vs : List Byte) : (s.setBytes a vs).cfgN = s.cfgN := by rw [setBytes_eq]
@[simp] theorem setBytes_cfgT (a : Nat) (vs : List Byte) : (s.setBytes a vs).cfgT = s.cfgT := by rw [setBytes_eq]
@[simp] theorem setBytes_cfgK (a : Nat) (vs : List Byte) : (s.setBytes a vs).cfgK = s.cfgK := by rw [setBytes_eq]
@[simp] theorem setBytes_sidLen (a : Nat) (vs : List Byte) : (s.setBytes a vs).sidLen = s.sidLen := by rw [setBytes_eq]
@[simp] theorem setBytes_ccnt (a : Nat) (vs : List Byte) : (s.setBytes a vs).ccnt = s.ccnt := by rw [setBytes_eq]
@[simp] theorem setBytes_cmdlog (a : Nat) (vs : List Byte) : (s.setBytes a vs).cmdlog = s.cmdlog := by rw [setBytes_eq]
@[simp] theorem setBytes_unit (a : Nat) (vs : List Byte) : (s.setBytes a vs).unit = s.unit := by rw [setBytes_eq]
@[simp] theorem setBytes_rst (a : Nat) (vs : List Byte) : (s.setBytes a vs).rst = s.rst := by rw [setBytes_eq]
@[simp] theorem setBytes_hashUp (a : Nat) (vs : List Byte) : (s.setBytes a vs).hashUp = s.hashUp := by rw [setBytes_eq]
@[simp] theorem setBytes_inputs (a : Nat) (vs : List Byte) : (s.setBytes a vs).inputs = s.inputs := by rw [setBytes_eq]
@[simp] theorem setBytes_responses (a : Nat) (vs : List Byte) : (s.setBytes a vs).responses = s.responses := by rw [setBytes_eq]

/-! `memWrite` changes the register file or memory alone -/

theorem memWrite_eq (a : Nat) (v : Byte) :
    s.memWrite a v = { s with g := (s.memWrite a v).g, mem := (s.memWrite a v).mem } := by
  unfold State.memWrite
  split <;> rfl

@[simp] theorem memWrite_ie (a : Nat) (v : Byte) : (s.memWrite a v).ie = s.ie := by rw [memWrite_eq]
@[simp] theorem memWrite_nothresh (a : Nat) (v : Byte) : (s.memWrite a v).nothresh = s.nothresh := by rw [memWrite_eq]
@[simp] theorem memWrite_done (a : Nat) (v : Byte) : (s.memWrite a v).done = s.done := by rw [memWrite_eq]
@[simp] theorem memWrite_ovr (a : Nat) (v : Byte) : (s.memWrite a v).ovr = s.ovr := by rw [memWrite_eq]
@[simp] theorem memWrite_invz (a : Nat) (v : Byte) : (s.memWrite a v).invz = s.invz := by rw [memWrite_eq]
@[simp] theorem memWrite_err (a : Nat) (v : Byte) : (s.memWrite a v).err = s.err := by rw [memWrite_eq]
@[simp] theorem memWrite_cfgB (a : Nat) (v : Byte) : (s.memWrite a v).cfgB = s.cfgB := by rw [memWrite_eq]
@[simp] theorem memWrite_cfgN (a : Nat) (v : Byte) : (s.memWrite a v).cfgN = s.cfgN := by rw [memWrite_eq]
@[simp] theorem memWrite_cfgT (a : Nat) (v : Byte) : (s.memWrite a v).cfgT = s.cfgT := by rw [memWrite_eq]
@[simp] theorem memWrite_cfgK (a : Nat) (v : Byte) : (s.memWrite a v).cfgK = s.cfgK := by rw [memWrite_eq]
@[simp] theorem memWrite_sidLen (a : Nat) (v : Byte) : (s.memWrite a v).sidLen = s.sidLen := by rw [memWrite_eq]
@[simp] theorem memWrite_ccnt (a : Nat) (v : Byte) : (s.memWrite a v).ccnt = s.ccnt := by rw [memWrite_eq]
@[simp] theorem memWrite_cmdlog (a : Nat) (v : Byte) : (s.memWrite a v).cmdlog = s.cmdlog := by rw [memWrite_eq]
@[simp] theorem memWrite_unit (a : Nat) (v : Byte) : (s.memWrite a v).unit = s.unit := by rw [memWrite_eq]
@[simp] theorem memWrite_rst (a : Nat) (v : Byte) : (s.memWrite a v).rst = s.rst := by rw [memWrite_eq]
@[simp] theorem memWrite_hashUp (a : Nat) (v : Byte) : (s.memWrite a v).hashUp = s.hashUp := by rw [memWrite_eq]
@[simp] theorem memWrite_inputs (a : Nat) (v : Byte) : (s.memWrite a v).inputs = s.inputs := by rw [memWrite_eq]
@[simp] theorem memWrite_responses (a : Nat) (v : Byte) : (s.memWrite a v).responses = s.responses := by rw [memWrite_eq]

/-! Registers -/

@[simp] theorem reg_setReg_same (i : RegNum) (v : Byte) : (s.setReg i v).reg i = v := by
  simp [State.reg, State.setReg]

theorem reg_setReg_ne {i j : RegNum} (v : Byte) (h : j ≠ i) : (s.setReg i v).reg j = s.reg j := by
  have : i.toNat ≠ j.toNat := fun e => h (BitVec.eq_of_toNat_eq e.symm)
  simp [State.reg, State.setReg, Vector.getElem_set_ne _ _ this]

/-- The registers are read from `g` alone. -/
theorem reg_congr {s t : State} (h : t.g = s.g) (i : RegNum) : t.reg i = s.reg i := by
  simp [State.reg, h]

/-- The memory bytes are read from `mem` alone. -/
theorem byte_congr {s t : State} (h : t.mem = s.mem) (a : Nat) : t.byte a = s.byte a := by
  simp [State.byte, h]

@[simp] theorem reg_setByte (a : Nat) (v : Byte) (i : RegNum) : (s.setByte a v).reg i = s.reg i := rfl
@[simp] theorem reg_setBytes (a : Nat) (vs : List Byte) (i : RegNum) : (s.setBytes a vs).reg i = s.reg i :=
  reg_congr (setBytes_g s a vs) i
@[simp] theorem reg_complete (c : ErrCode) (i : RegNum) : (s.complete c).reg i = s.reg i := rfl
@[simp] theorem reg_noteInverse (a : Byte) (i : RegNum) : (s.noteInverse a).reg i = s.reg i := rfl
@[simp] theorem byte_setReg (i : RegNum) (v : Byte) (a : Nat) : (s.setReg i v).byte a = s.byte a := rfl
@[simp] theorem byte_complete (c : ErrCode) (a : Nat) : (s.complete c).byte a = s.byte a := rfl
@[simp] theorem byte_noteInverse (b : Byte) (a : Nat) : (s.noteInverse b).byte a = s.byte a := rfl

end Sys2Proof.Machine
end

