-- ==== Sys2Proof/Laws/Memory.lean ====
section
/-! SUPPORT. Memory: a read after a write, the canonical form kept by every operation, and canonical memories with equal reads are
equal; then the same of the state's bytes. -/

namespace Sys2Proof.Machine

/-! ### Reads -/

theorem Memory.read_consNonzero (a : Nat) (v : Byte) (m : Memory) (b : Nat)
    (h : b = a → Memory.read m a = 0x00#8) :
    Memory.read (Memory.consNonzero a v m) b = if a = b then v else Memory.read m b := by
  unfold Memory.consNonzero
  split
  · next hv =>
    split
    · next hab => subst hab; rw [h rfl, hv]
    · rfl
  · rfl

theorem Memory.read_eq_zero_of_lt {m : Memory} {a : Nat} (h : ∀ c ∈ m, a < c.1) : Memory.read m a = 0x00#8 := by
  induction m with
  | nil => rfl
  | cons c m ih =>
    obtain ⟨b, u⟩ := c
    have hb : a < b := h (b, u) (by simp)
    rw [Memory.read, if_neg (by omega)]
    exact ih fun c hc => h c (by simp [hc])

/-- A read after a write: the value written at its address, and what was there elsewhere. -/
theorem Memory.read_write {m : Memory} (hm : Memory.wf m) (a : Nat) (v : Byte) (b : Nat) :
    Memory.read (Memory.write m a v) b = if a = b then v else Memory.read m b := by
  induction m with
  | nil => exact Memory.read_consNonzero a v [] b fun _ => rfl
  | cons c m ih =>
    obtain ⟨k, u⟩ := c
    have hk : ∀ d ∈ m, k < d.1 := (List.pairwise_cons.mp hm.1).1
    have hm' : Memory.wf m := ⟨(List.pairwise_cons.mp hm.1).2, fun d hd => hm.2 d (by simp [hd])⟩
    rw [Memory.write]
    split
    · next hak =>
      refine Memory.read_consNonzero a v _ b fun _ => Memory.read_eq_zero_of_lt ?_
      intro d hd
      rcases List.mem_cons.mp hd with rfl | hd
      · exact hak
      · exact lt_trans hak (hk d hd)
    · split
      · next hak =>
        subst hak
        rw [Memory.read_consNonzero a v m b fun _ => Memory.read_eq_zero_of_lt hk]
        by_cases hab : a = b <;> simp [hab, Memory.read]
      · next h1 h2 =>
        simp only [Memory.read, ih hm']
        by_cases hkb : k = b
        · have : a ≠ b := by omega
          simp [hkb, this]
        · simp [hkb]

theorem Memory.read_clear (m : Memory) (base size a : Nat) :
    Memory.read (Memory.clear m base size) a = if base ≤ a ∧ a < base + size then 0x00#8 else Memory.read m a := by
  induction m with
  | nil => simp [Memory.clear, Memory.read]
  | cons c m ih =>
    obtain ⟨k, u⟩ := c
    rw [show Memory.clear ((k, u) :: m) base size
        = if base ≤ k ∧ k < base + size then Memory.clear m base size else (k, u) :: Memory.clear m base size by
      simp only [Memory.clear, List.filter_cons]
      by_cases h : base ≤ k ∧ k < base + size
      · simp [h]
      · rw [if_neg h, if_pos]; simp only [Bool.not_eq_true', Bool.and_eq_false_iff, decide_eq_false_iff_not]; omega]
    by_cases hk : base ≤ k ∧ k < base + size
    · rw [if_pos hk, ih]
      by_cases ha : base ≤ a ∧ a < base + size
      · simp [ha]
      · have : k ≠ a := by rintro rfl; exact ha hk
        simp [ha, Memory.read, this]
    · rw [if_neg hk, Memory.read, Memory.read, ih]
      by_cases hka : k = a
      · subst hka; simp [hk]
      · simp [hka]

/-! ### The canonical form -/

theorem Memory.mem_consNonzero {a : Nat} {v : Byte} {m : Memory} {c : Host.Cell}
    (h : c ∈ Memory.consNonzero a v m) : (c = (a, v) ∧ v ≠ 0x00#8) ∨ c ∈ m := by
  unfold Memory.consNonzero at h
  split at h
  · exact Or.inr h
  · next hv => exact (List.mem_cons.mp h).imp_left fun e => ⟨e, hv⟩

/-- An entry after a write is the one written, or was there before. -/
theorem Memory.mem_write {m : Memory} {a : Nat} {v : Byte} {c : Host.Cell} (h : c ∈ Memory.write m a v) :
    (c = (a, v) ∧ v ≠ 0x00#8) ∨ c ∈ m := by
  induction m with
  | nil => exact Memory.mem_consNonzero h
  | cons d m ih =>
    rw [Memory.write] at h
    split at h
    · exact Memory.mem_consNonzero h
    · split at h
      · exact (Memory.mem_consNonzero h).imp_right (List.mem_cons_of_mem _)
      · rcases List.mem_cons.mp h with rfl | h
        · exact Or.inr (by simp)
        · exact (ih h).imp_right (List.mem_cons_of_mem _)

theorem Memory.wf_consNonzero {a : Nat} {v : Byte} {m : Memory} (hm : Memory.wf m) (h : ∀ c ∈ m, a < c.1) :
    Memory.wf (Memory.consNonzero a v m) := by
  unfold Memory.consNonzero
  split
  · exact hm
  · next hv =>
    refine ⟨List.pairwise_cons.mpr ⟨h, hm.1⟩, fun c hc => ?_⟩
    rcases List.mem_cons.mp hc with rfl | hc
    · exact hv
    · exact hm.2 c hc

/-- A write keeps the canonical form. -/
theorem Memory.wf_write {m : Memory} (hm : Memory.wf m) (a : Nat) (v : Byte) : Memory.wf (Memory.write m a v) := by
  induction m with
  | nil => exact Memory.wf_consNonzero hm (by simp)
  | cons d m ih =>
    obtain ⟨k, u⟩ := d
    have hk : ∀ d ∈ m, k < d.1 := (List.pairwise_cons.mp hm.1).1
    have hm' : Memory.wf m := ⟨(List.pairwise_cons.mp hm.1).2, fun d hd => hm.2 d (by simp [hd])⟩
    rw [Memory.write]
    split
    · next hak =>
      refine Memory.wf_consNonzero hm fun c hc => ?_
      rcases List.mem_cons.mp hc with rfl | hc
      · exact hak
      · exact lt_trans hak (hk c hc)
    · split
      · next hak => subst hak; exact Memory.wf_consNonzero hm' hk
      · refine ⟨List.pairwise_cons.mpr ⟨fun c hc => ?_, (ih hm').1⟩, fun c hc => ?_⟩
        · rcases Memory.mem_write hc with ⟨rfl, -⟩ | hc
          · show k < a; omega
          · exact hk c hc
        · rcases List.mem_cons.mp hc with rfl | hc
          · exact hm.2 (k, u) (by simp)
          · exact (ih hm').2 c hc

/-- Clearing keeps the canonical form. -/
theorem Memory.wf_clear {m : Memory} (hm : Memory.wf m) (base size : Nat) : Memory.wf (Memory.clear m base size) :=
  ⟨hm.1.filter _, fun c hc => hm.2 c (List.mem_filter.mp hc).1⟩

theorem Memory.read_of_mem {m : Memory} (hm : Memory.wf m) {c : Host.Cell} (hc : c ∈ m) : Memory.read m c.1 = c.2 := by
  induction m with
  | nil => simp at hc
  | cons d m ih =>
    obtain ⟨k, u⟩ := d
    have hk : ∀ d ∈ m, k < d.1 := (List.pairwise_cons.mp hm.1).1
    rcases List.mem_cons.mp hc with rfl | hc
    · simp [Memory.read]
    · have := hk c hc
      rw [Memory.read, if_neg (by omega)]
      exact ih ⟨(List.pairwise_cons.mp hm.1).2, fun d hd => hm.2 d (by simp [hd])⟩ hc

/-- Canonical memories that read alike everywhere are the same list. -/
theorem Memory.ext_read {m n : Memory} (hm : Memory.wf m) (hn : Memory.wf n)
    (h : ∀ a, Memory.read m a = Memory.read n a) : m = n := by
  induction m generalizing n with
  | nil =>
    cases n with
    | nil => rfl
    | cons c n =>
      have := Memory.read_of_mem hn (c := c) (by simp)
      rw [← h] at this
      exact absurd this.symm (hn.2 c (by simp))
  | cons c m ih =>
    cases n with
    | nil =>
      have := Memory.read_of_mem hm (c := c) (by simp)
      rw [h] at this
      exact absurd this.symm (hm.2 c (by simp))
    | cons d n =>
      have hc : ∀ e ∈ m, c.1 < e.1 := (List.pairwise_cons.mp hm.1).1
      have hd : ∀ e ∈ n, d.1 < e.1 := (List.pairwise_cons.mp hn.1).1
      have hm' : Memory.wf m := ⟨(List.pairwise_cons.mp hm.1).2, fun e he => hm.2 e (by simp [he])⟩
      have hn' : Memory.wf n := ⟨(List.pairwise_cons.mp hn.1).2, fun e he => hn.2 e (by simp [he])⟩
      have hrc := Memory.read_of_mem hm (c := c) (by simp)
      have hrd := Memory.read_of_mem hn (c := d) (by simp)
      have hcd : c.1 = d.1 := by
        rcases lt_trichotomy c.1 d.1 with hlt | heq | hgt
        · refine absurd ?_ (hm.2 c (by simp))
          rw [← hrc, h]
          refine Memory.read_eq_zero_of_lt fun e he => ?_
          rcases List.mem_cons.mp he with rfl | he
          · exact hlt
          · exact lt_trans hlt (hd e he)
        · exact heq
        · refine absurd ?_ (hn.2 d (by simp))
          rw [← hrd, ← h]
          refine Memory.read_eq_zero_of_lt fun e he => ?_
          rcases List.mem_cons.mp he with rfl | he
          · exact hgt
          · exact lt_trans hgt (hc e he)
      have hval : c.2 = d.2 := by rw [← hrc, ← hrd, h, hcd]
      have hcell : c = d := Prod.ext hcd hval
      subst hcell
      congr 1
      refine ih hm' hn' fun a => ?_
      by_cases hac : c.1 = a
      · subst hac
        rw [Memory.read_eq_zero_of_lt hc, Memory.read_eq_zero_of_lt hd]
      · have := h a
        simpa [Memory.read, hac] using this

/-! ### The state's bytes -/

theorem byte_setByte {s : State} (hs : Memory.wf s.mem) (a : Nat) (v : Byte) (b : Nat) :
    (s.setByte a v).byte b = if a = b then v else s.byte b := Memory.read_write hs a v b

theorem byte_clearBytes (s : State) (base size a : Nat) :
    (s.clearBytes base size).byte a = if base ≤ a ∧ a < base + size then 0x00#8 else s.byte a :=
  Memory.read_clear s.mem base size a

theorem wf_setBytes {s : State} (hs : Memory.wf s.mem) (a : Nat) (vs : List Byte) : Memory.wf (s.setBytes a vs).mem := by
  induction vs generalizing s a with
  | nil => exact hs
  | cons v vs ih => exact ih (s := s.setByte a v) (Memory.wf_write hs a v) (a + 1)

theorem wf_memWrite {s : State} (hs : Memory.wf s.mem) (a : Nat) (v : Byte) : Memory.wf (s.memWrite a v).mem := by
  unfold State.memWrite
  split
  · exact hs
  · exact Memory.wf_write hs a v

/-- A byte after consecutive bytes are written: the value written there, or what was there before. -/
theorem byte_setBytes {s : State} (hs : Memory.wf s.mem) (a : Nat) (vs : List Byte) (b : Nat) :
    (s.setBytes a vs).byte b = if h : a ≤ b ∧ b - a < vs.length then vs[b - a]'h.2 else s.byte b := by
  induction vs generalizing s a with
  | nil => simp [State.setBytes]
  | cons v vs ih =>
    rw [State.setBytes, ih (s := s.setByte a v) (Memory.wf_write hs a v) (a + 1), byte_setByte hs]
    by_cases hab : a = b
    · subst hab; simp
    · by_cases h : a + 1 ≤ b ∧ b - (a + 1) < vs.length
      · have h' : a ≤ b ∧ b - a < (v :: vs).length := by simp only [List.length_cons]; omega
        rw [dif_pos h, dif_pos h']
        have : b - a = (b - (a + 1)) + 1 := by omega
        simp [this]
      · have h' : ¬ (a ≤ b ∧ b - a < (v :: vs).length) := by simp only [List.length_cons]; omega
        rw [dif_neg h, dif_neg h', if_neg hab]

/-- An entry after consecutive bytes are written was there before, or lies where they are written. -/
theorem mem_setBytes {s : State} {a : Nat} {vs : List Byte} {c : Host.Cell} (h : c ∈ (s.setBytes a vs).mem) :
    (a ≤ c.1 ∧ c.1 < a + vs.length) ∨ c ∈ s.mem := by
  induction vs generalizing s a with
  | nil => exact Or.inr h
  | cons v vs ih =>
    rw [State.setBytes] at h
    rcases ih h with h | h
    · exact Or.inl (by simp only [List.length_cons]; omega)
    · rcases Memory.mem_write h with ⟨rfl, -⟩ | h
      · exact Or.inl (by simp)
      · exact Or.inr h

end Sys2Proof.Machine
end

