-- ==== Sys2Proof/Laws/Exec.lean ====
section
/-! SUPPORT. What each shared operation can do, said once: the checks, the bulk writes, and the shape of every command's outcome. -/

namespace Sys2Proof.Machine

open Host

/-! ### The address map -/

theorem regionOf_x {s : Nat} (h : s < 255) : regionOf (xAddr s) = some .shareIndices := by
  unfold regionOf xAddr; repeat (first | rw [if_neg (by omega)] | rw [if_pos (by omega)])

theorem regionOf_l {s : Nat} (h : s < 255) : regionOf (lAddr s) = some .lagrangeBasis := by
  unfold regionOf lAddr; repeat (first | rw [if_neg (by omega)] | rw [if_pos (by omega)])

theorem regionOf_r {k : Nat} (h : k < 32) : regionOf (rAddr k) = some .result := by
  unfold regionOf rAddr; repeat (first | rw [if_neg (by omega)] | rw [if_pos (by omega)])

theorem regionOf_sid {i : Nat} (h : i < 255) : regionOf (sidAddr i) = some .sessionId := by
  unfold regionOf sidAddr; repeat (first | rw [if_neg (by omega)] | rw [if_pos (by omega)])

theorem regionOf_c {j k : Nat} (hj : j < 255) (hk : k < 32) : regionOf (cAddr j k) = some .coefficientRows := by
  unfold regionOf cAddr; repeat (first | rw [if_neg (by omega)] | rw [if_pos (by omega)])

theorem regionOf_y {s k : Nat} (hs : s < 255) (hk : k < 32) : regionOf (yAddr s k) = some .shareValues := by
  unfold regionOf yAddr; repeat (first | rw [if_neg (by omega)] | rw [if_pos (by omega)])

theorem inMemory_of_region {a : Nat} {r : Region} (h : regionOf a = some r) (hc : r ≠ .control) (hg : r ≠ .generalRegs) :
    inMemory a := by
  refine ⟨?_, by simp [h, hg]⟩
  unfold isDataWindow
  cases r <;> simp_all

/-- `isDataWindow` by the ranges of R72. -/
theorem isDataWindow_iff (a : Nat) : isDataWindow a = true ↔
    (0x0100 ≤ a ∧ a ≤ 0x010F) ∨ (0x0200 ≤ a ∧ a ≤ 0x02FE) ∨ (0x0300 ≤ a ∧ a ≤ 0x03FE) ∨ (0x0400 ≤ a ∧ a ≤ 0x041F) ∨
    (0x0500 ≤ a ∧ a ≤ 0x05FE) ∨ (0x2000 ≤ a ∧ a ≤ 0x3FDF) ∨ (0x4000 ≤ a ∧ a ≤ 0x5FDF) := by
  unfold isDataWindow regionOf
  split_ifs <;> simp <;> omega

theorem regionOf_eq_g_iff (a : Nat) : regionOf a = some .generalRegs ↔ 0x0100 ≤ a ∧ a ≤ 0x010F := by
  unfold regionOf
  split_ifs <;> simp <;> omega

theorem regionOf_eq_control_iff (a : Nat) : regionOf a = some .control ↔ a ≤ 0x002B := by
  unfold regionOf
  split_ifs <;> simp <;> omega

/-! ### The checks -/

@[simp] theorem checked_some (c : ErrCode) (s : State) (o : Outcome State Fault Refusal) :
    checked (some c) s o = .next (s.complete c) := rfl

@[simp] theorem checked_none (s : State) (o : Outcome State Fault Refusal) : checked none s o = o := rfl

@[simp] theorem firstError_some (c : ErrCode) (b : Option ErrCode) : firstError (some c) b = some c := rfl

@[simp] theorem firstError_none (b : Option ErrCode) : firstError none b = b := rfl

theorem lengthAllowed_iff (s : State) : s.lengthAllowed = true ↔ s.numB ∈ [16, 20, 24, 28, 32] := by
  simp [State.lengthAllowed, Config.allowedLengths]

/-- The sharing checks report InvalidSize or nothing, and nothing exactly for a legal configuration (R77). -/
theorem sharingError_eq (s : State) : sharingError s = if SharingLegal s then none else some .invalidSize := by
  have hB := lengthAllowed_iff s
  unfold sharingError SharingLegal
  by_cases hb : s.lengthAllowed = true
  · have hB := hB.mp hb
    by_cases hn : s.numN = 0
    · rw [if_neg (by simp [hb]), if_pos hn, if_neg (by omega)]
    · by_cases ht : s.numT = 0 ∨ s.numN < s.numT
      · rw [if_neg (by simp [hb]), if_neg hn, if_pos ht, if_neg (by omega)]
      · rw [if_neg (by simp [hb]), if_neg hn, if_neg ht, if_pos ⟨hB, by omega, by omega, by omega⟩]
  · rw [if_pos (by simpa using hb), if_neg fun h => hb (hB.mpr h.1)]

theorem mem_bytes {s : State} {a n : Nat} {v : Byte} : v ∈ s.bytes a n ↔ ∃ k < n, s.byte (a + k) = v := by
  simp [State.bytes]

theorem hasZero_iff (s : State) (n : Nat) : hasZero (s.indices n) = false ↔ IndicesNonzero s n := by
  rw [← Bool.not_eq_true]
  unfold hasZero State.indices
  rw [List.any_eq_true]
  constructor
  · intro h i hi h0
    exact h ⟨_, mem_bytes.mpr ⟨i, hi, rfl⟩, by simpa [xAddr] using h0⟩
  · rintro h ⟨v, hv, h0⟩
    obtain ⟨k, hk, rfl⟩ := mem_bytes.mp hv
    exact h k hk (by simpa [xAddr] using h0)

theorem hasEqual_iff (xs : List Byte) : hasEqual xs = false ↔ xs.Nodup := by
  induction xs with
  | nil => simp [hasEqual]
  | cons x xs ih => simp [hasEqual, List.nodup_cons, ih]

theorem hasEqual_indices_iff (s : State) (n : Nat) : hasEqual (s.indices n) = false ↔ IndicesDistinct s n := by
  rw [hasEqual_iff, State.indices, State.bytes, List.nodup_map_iff_inj_on List.nodup_range]
  simp only [List.mem_range, xAddr, Nat.add_zero]
  exact ⟨fun h i hi j hj e => h i hi j hj e, fun h i hi j hj e => h i hi j hj e⟩

/-- The index checks, in their order (R83, R84). -/
theorem indexError_eq_none_iff (s : State) (n : Nat) :
    indexError s n = none ↔ IndicesNonzero s n ∧ IndicesDistinct s n := by
  rw [← hasZero_iff, ← hasEqual_indices_iff, indexError]
  cases hasZero (s.indices n) <;> cases hasEqual (s.indices n) <;> simp

theorem recoveryError_eq_none_iff (s : State) : recoveryError s = none ↔ RecoveryLegal s := by
  unfold recoveryError RecoveryLegal
  rw [← lengthAllowed_iff]
  cases s.lengthAllowed <;> cases s.commandNothresh <;> simp
  · by_cases h0 : s.numT = 0
    · simp [h0]
    · by_cases hk : s.numK < s.numT
      · simp [h0, hk]
      · simp [h0, hk]; omega

/-! ### The bulk writes change memory alone -/

theorem deriveRows_eq (s0 : State) (n j : Nat) (s : State) :
    deriveRows s0 n j s = { s with mem := (deriveRows s0 n j s).mem } := by
  induction n generalizing j s with
  | zero => rfl
  | succ n ih => rw [deriveRows, ih, setBytes_eq]

theorem evalSlot_eq (xs : Bool) (s : State) (i : Nat) : evalSlot xs s i = { s with mem := (evalSlot xs s i).mem } := by
  rw [evalSlot, setBytes_eq]; rfl

theorem foldl_evalSlot_eq (xs : Bool) (is : List Nat) (s : State) :
    is.foldl (evalSlot xs) s = { s with mem := (is.foldl (evalSlot xs) s).mem } := by
  induction is generalizing s with
  | nil => rfl
  | cons i is ih => rw [List.foldl_cons, ih, evalSlot_eq]

theorem evalSlots_eq (xs : Bool) (n : Nat) (s : State) : evalSlots xs n s = { s with mem := (evalSlots xs n s).mem } :=
  foldl_evalSlot_eq xs (List.range n) s

theorem lagrangeCombine_eq (n : Nat) (s : State) : lagrangeCombine n s = { s with mem := (lagrangeCombine n s).mem } := by
  rw [lagrangeCombine, setBytes_eq, setBytes_eq]

theorem length_padRow {bs : List Byte} (h : bs.length ≤ 32) : (padRow bs).length = 32 := by
  simp [padRow]; omega

/-! ### The shape of an outcome -/

/-- What every command can do: it answers a next state, in which it has completed, and only the registers, the memory and INVZ may
differ besides (R30, R94). -/
theorem exec_shape (i : Instr) (s : State) :
    ∃ c g m z, exec i s = .next ({ s with g := g, mem := m, invz := z }.complete c) := by
  cases i with
  | nop => exact ⟨.success, s.g, s.mem, s.invz, rfl⟩
  | gadd rd rs1 rs2 => exact ⟨.success, _, s.mem, s.invz, rfl⟩
  | gaddi rd rs1 imm => exact ⟨.success, _, s.mem, s.invz, rfl⟩
  | gmul rd rs1 rs2 => exact ⟨.success, _, s.mem, s.invz, rfl⟩
  | gmuli rd rs1 imm => exact ⟨.success, _, s.mem, s.invz, rfl⟩
  | ginv rd rs1 => exact ⟨.success, _, s.mem, _, rfl⟩
  | gexp rd rs1 rs2 => exact ⟨.success, _, s.mem, s.invz, rfl⟩
  | gexpi rd rs1 imm => exact ⟨.success, _, s.mem, s.invz, rfl⟩
  | gli rd imm => exact ⟨.success, _, s.mem, s.invz, rfl⟩
  | gld rd addr =>
    rw [exec, execGld]
    cases addressError addr with
    | none => exact ⟨.success, _, s.mem, s.invz, rfl⟩
    | some c => exact ⟨c, s.g, s.mem, s.invz, rfl⟩
  | gst rt addr =>
    rw [exec, execGst]
    cases addressError addr with
    | none => rw [checked_none, memWrite_eq]; exact ⟨.success, _, _, s.invz, rfl⟩
    | some c => exact ⟨c, s.g, s.mem, s.invz, rfl⟩
  | derive =>
    rw [exec, execDerive]
    cases sharingError s with
    | none => rw [checked_none, deriveRows_eq]; exact ⟨.success, s.g, _, s.invz, rfl⟩
    | some c => exact ⟨c, s.g, s.mem, s.invz, rfl⟩
  | eval xs =>
    rw [exec, execEval]
    cases firstError (sharingError s) (evalIndexError xs s) with
    | none => rw [checked_none, evalSlots_eq]; exact ⟨.success, s.g, _, s.invz, rfl⟩
    | some c => exact ⟨c, s.g, s.mem, s.invz, rfl⟩
  | recon =>
    rw [exec, execRecon]
    cases firstError (indexError s s.numK) (recoveryError s) with
    | none => rw [checked_none, lagrangeCombine_eq]; exact ⟨.success, s.g, _, s.invz, rfl⟩
    | some c => exact ⟨c, s.g, s.mem, s.invz, rfl⟩
  | verify =>
    rw [exec, execVerify]
    cases firstError (sharingError s) (indexError s s.numT) with
    | none =>
      rw [checked_none, compareSecret, lagrangeCombine_eq]
      split
      · exact ⟨.success, s.g, _, s.invz, rfl⟩
      · exact ⟨.internalFailure, s.g, _, s.invz, rfl⟩
    | some c => exact ⟨c, s.g, s.mem, s.invz, rfl⟩
  | zero => exact ⟨.success, _, _, s.invz, rfl⟩

end Sys2Proof.Machine
end

