-- ==== Sys2Proof/Laws/PerInstr.lean ====
section
/-! SUPPORT. Per-instruction statements over the syntax: each command's word fits the opcode map's row of its own mnemonic, whatever
the operands (30_encoding.md R51): no operand bit falls into a bit the row fixes. -/

namespace Sys2Proof

/-- The mnemonic of a command's row (R51). -/
def Instr.mnemonic : Instr → String
  | .nop => "NOP"
  | .gadd _ _ _ => "GADD"
  | .gaddi _ _ _ => "GADDI"
  | .gmul _ _ _ => "GMUL"
  | .gmuli _ _ _ => "GMULI"
  | .ginv _ _ => "GINV"
  | .gexp _ _ _ => "GEXP"
  | .gexpi _ _ _ => "GEXPI"
  | .gli _ _ => "GLI"
  | .gld _ _ => "GLD"
  | .gst _ _ => "GST"
  | .derive => "DERIVE"
  | .eval _ => "EVAL"
  | .recon => "RECON"
  | .verify => "VERIFY"
  | .zero => "ZERO"

namespace Laws.RowFit

/-- The command's word matches the row of its mnemonic. -/
def Statement (i : Instr) : Prop := ∃ r ∈ opcodeRows, r.mnemonic = i.mnemonic ∧ r.accepts (encode i) = true

theorem wordR_masked (op : Byte) (rd rs1 rs2 : RegNum) :
    wordR op rd rs1 rs2 &&& 0xFF000FFF#32 = op.setWidth 32 <<< 24 := by
  unfold wordR
  apply BitVec.eq_of_getLsbD_eq
  intro i hi
  simp only [BitVec.getLsbD_and, BitVec.getLsbD_append, BitVec.getLsbD_shiftLeft, BitVec.getLsbD_setWidth, hi]
  interval_cases i <;> simp

theorem wordI_masked (op : Byte) (rd rs1 : RegNum) (imm : Byte) :
    wordI op rd rs1 imm &&& 0xFF00FF00#32 = op.setWidth 32 <<< 24 := by
  unfold wordI
  apply BitVec.eq_of_getLsbD_eq
  intro i hi
  simp only [BitVec.getLsbD_and, BitVec.getLsbD_append, BitVec.getLsbD_shiftLeft, BitVec.getLsbD_setWidth, hi]
  interval_cases i <;> simp

theorem wordM_masked (op : Byte) (rd : RegNum) (addr : Addr) :
    wordM op rd addr &&& 0xFF0F0000#32 = op.setWidth 32 <<< 24 := by
  unfold wordM
  apply BitVec.eq_of_getLsbD_eq
  intro i hi
  simp only [BitVec.getLsbD_and, BitVec.getLsbD_append, BitVec.getLsbD_shiftLeft, BitVec.getLsbD_setWidth, hi]
  interval_cases i <;> simp

theorem nop : Statement .nop := by unfold Statement; decide

theorem gadd (rd rs1 rs2 : RegNum) : Statement (.gadd rd rs1 rs2) :=
  ⟨⟨"GADD", 0x01000000, 0xFF000FFF⟩, by decide, rfl, beq_iff_eq.mpr (wordR_masked 0x01 rd rs1 rs2)⟩

theorem gaddi (rd rs1 : RegNum) (imm : Byte) : Statement (.gaddi rd rs1 imm) :=
  ⟨⟨"GADDI", 0x02000000, 0xFF00FF00⟩, by decide, rfl, beq_iff_eq.mpr (wordI_masked 0x02 rd rs1 imm)⟩

theorem gmul (rd rs1 rs2 : RegNum) : Statement (.gmul rd rs1 rs2) :=
  ⟨⟨"GMUL", 0x03000000, 0xFF000FFF⟩, by decide, rfl, beq_iff_eq.mpr (wordR_masked 0x03 rd rs1 rs2)⟩

theorem gmuli (rd rs1 : RegNum) (imm : Byte) : Statement (.gmuli rd rs1 imm) :=
  ⟨⟨"GMULI", 0x04000000, 0xFF00FF00⟩, by decide, rfl, beq_iff_eq.mpr (wordI_masked 0x04 rd rs1 imm)⟩

theorem ginv (rd rs1 : RegNum) : Statement (.ginv rd rs1) := by
  refine ⟨⟨"GINV", 0x05000000, 0xFF00FFFF⟩, by decide, rfl, beq_iff_eq.mpr ?_⟩
  unfold encode
  apply BitVec.eq_of_getLsbD_eq
  intro i hi
  simp only [BitVec.getLsbD_and, BitVec.getLsbD_append]
  interval_cases i <;> simp

theorem gexp (rd rs1 rs2 : RegNum) : Statement (.gexp rd rs1 rs2) :=
  ⟨⟨"GEXP", 0x06000000, 0xFF000FFF⟩, by decide, rfl, beq_iff_eq.mpr (wordR_masked 0x06 rd rs1 rs2)⟩

theorem gexpi (rd rs1 : RegNum) (imm : Byte) : Statement (.gexpi rd rs1 imm) :=
  ⟨⟨"GEXPI", 0x07000000, 0xFF00FF00⟩, by decide, rfl, beq_iff_eq.mpr (wordI_masked 0x07 rd rs1 imm)⟩

theorem gli (rd : RegNum) (imm : Byte) : Statement (.gli rd imm) := by
  refine ⟨⟨"GLI", 0x08000000, 0xFF0FFF00⟩, by decide, rfl, beq_iff_eq.mpr ?_⟩
  unfold encode
  apply BitVec.eq_of_getLsbD_eq
  intro i hi
  simp only [BitVec.getLsbD_and, BitVec.getLsbD_append]
  interval_cases i <;> simp

theorem gld (rd : RegNum) (addr : Addr) : Statement (.gld rd addr) :=
  ⟨⟨"GLD", 0x10000000, 0xFF0F0000⟩, by decide, rfl, beq_iff_eq.mpr (wordM_masked 0x10 rd addr)⟩

theorem gst (rt : RegNum) (addr : Addr) : Statement (.gst rt addr) :=
  ⟨⟨"GST", 0x11000000, 0xFF0F0000⟩, by decide, rfl, beq_iff_eq.mpr (wordM_masked 0x11 rt addr)⟩

theorem derive : Statement .derive := by unfold Statement; decide

theorem eval (xs : Bool) : Statement (.eval xs) := by cases xs <;> unfold Statement <;> decide

theorem recon : Statement .recon := by unfold Statement; decide

theorem verify : Statement .verify := by unfold Statement; decide

theorem zero : Statement .zero := by unfold Statement; decide

end Laws.RowFit

end Sys2Proof
end

