-- ==== Sys2Proof/Laws/Run.lean ====
section
/-! SUPPORT. What a turn, a host access and an input can do, said once; and that every operation keeps memory canonical and inside the
data windows. -/

namespace Sys2Proof.Machine

open Host

/-! ### Turns -/

theorem turn_rst {s : State} (h : s.rst = true) : turn s = .next s := by
  simp [turn, h]

theorem turn_idle {s : State} (h : s.rst = false) (hu : s.unit = .idle) : turn s = .next s := by
  simp [turn, h, hu]

theorem turn_clear {s : State} (h : s.rst = false) (hu : s.unit = .clear) : turn s = .next { s with unit := .idle } := by
  simp [turn, h, hu]

theorem turn_exec {s : State} {r : Running} (h : s.rst = false) (hu : s.unit = .exec r) : turn s = progress r s := by
  simp [turn, h, hu]

theorem progress_answered {s : State} {r : Running} {q : HashReq} (hq : r.hashReq = some q) (hup : s.hashUp = true) :
    progress r s = .next { s with unit := .exec { r with hashDone := r.hashDone + 1, hashReq := none } } := by
  simp [progress, hq, hup]

theorem progress_waits {s : State} {r : Running} {q : HashReq} (hq : r.hashReq = some q) (hup : s.hashUp = false) :
    progress r s = .next s := by
  simp [progress, hq, hup]

theorem progress_asks {s : State} {r : Running} (hq : r.hashReq = none) (h : r.hashDone < requestsOf r.word s) :
    progress r s = .next { s with unit := .exec { r with hashReq := some (s.request (r.hashDone + 1)) } } := by
  simp [progress, hq, h]

theorem progress_performs {s : State} {r : Running} {i : Instr} (hq : r.hashReq = none)
    (h : requestsOf r.word s ≤ r.hashDone) (hd : decode r.word = .ok i) : progress r s = exec i s := by
  simp [progress, hq, Nat.not_lt.mpr h, hd]

theorem requestsOf_derive {w : Word} {s : State} (hd : decode w = .ok .derive) (hs : SharingLegal s) :
    requestsOf w s = s.numT - 1 := by
  simp [requestsOf, hd, sharingError_eq, hs]

theorem requestsOf_other {w : Word} {s : State} (hd : decode w ≠ .ok .derive) : requestsOf w s = 0 := by
  unfold requestsOf
  split
  · exact absurd ‹_› hd
  · rfl

theorem requestsOf_illegal {w : Word} {s : State} {e : DecodeError} (hd : decode w = .error e) : requestsOf w s = 0 :=
  requestsOf_other (by simp [hd])

/-- At most 254 requests are made by one command (R45, R5). -/
theorem requestsOf_le (w : Word) (s : State) : requestsOf w s ≤ 254 := by
  have : s.numT < 256 := s.cfgT.isLt
  unfold requestsOf
  split
  · split <;> omega
  · omega

/-- The requests a word makes depend on B, N and T alone. -/
theorem requestsOf_congr (w : Word) {s t : State} (hB : t.cfgB = s.cfgB) (hN : t.cfgN = s.cfgN) (hT : t.cfgT = s.cfgT) :
    requestsOf w t = requestsOf w s := by
  have e : sharingError t = sharingError s := by
    unfold sharingError State.lengthAllowed State.numB State.numN State.numT
    rw [hB, hN, hT]
  unfold requestsOf
  rw [e, State.numT, State.numT, hT]

/-- What a request holds depends on B, T, SIDLEN and memory alone. -/
theorem request_congr (j : Nat) {s t : State} (hB : t.cfgB = s.cfgB) (hT : t.cfgT = s.cfgT) (hL : t.sidLen = s.sidLen)
    (hm : t.mem = s.mem) : t.request j = s.request j := by
  simp [State.request, State.secretKey, State.message, State.bytes, State.byte, State.numB, hB, hT, hL, hm]

/-! ### Host accesses -/

/-- A read is let through by R37 or gets ERR with nothing changed; then it is refused with OVR set, or served with nothing changed. -/
theorem hostRead_cases (addr : Addr) (width : Nat) (s : State) :
    (target addr width = none ∧ hostRead addr width s = (s, .read 0 .err)) ∨
    (∃ t, target addr width = some t ∧ (s.busy && !servedRead t) = true ∧ hostRead addr width s = (s.setOvr, .read 0 .err)) ∨
    (∃ t, target addr width = some t ∧ (s.busy && !servedRead t) = false ∧
      hostRead addr width s = (s, .read (s.readTarget t) .ok)) := by
  unfold hostRead
  cases target addr width with
  | none => exact Or.inl ⟨rfl, rfl⟩
  | some t =>
    cases h : (s.busy && !servedRead t) with
    | true => exact Or.inr (Or.inl ⟨t, rfl, h, by simp only [h]; rfl⟩)
    | false => exact Or.inr (Or.inr ⟨t, rfl, h, by simp only [h]; rfl⟩)

/-- A write is let through by R37 or gets ERR with nothing changed; then it is refused with OVR set, or served. -/
theorem hostWrite_cases (addr : Addr) (width : Nat) (d : Word) (s : State) :
    (target addr width = none ∧ hostWrite addr width d s = (s, .write .err)) ∨
    (∃ t, target addr width = some t ∧ (s.busy && !servedWrite t) = true ∧ hostWrite addr width d s = (s.setOvr, .write .err)) ∨
    (∃ t, target addr width = some t ∧ (s.busy && !servedWrite t) = false ∧
      hostWrite addr width d s = (s.writeTarget d t, .write .ok)) := by
  unfold hostWrite
  cases target addr width with
  | none => exact Or.inl ⟨rfl, rfl⟩
  | some t =>
    cases h : (s.busy && !servedWrite t) with
    | true => exact Or.inr (Or.inl ⟨t, rfl, h, by simp only [h]; rfl⟩)
    | false => exact Or.inr (Or.inr ⟨t, rfl, h, by simp only [h]; rfl⟩)

/-- What R37 lets through: a control register as a whole, a data-window byte, or a 4-aligned word of data-window bytes. -/
theorem target_cases {addr : Addr} {width : Nat} {t : Target} (h : target addr width = some t) :
    (width = 32 ∧ addr.toNat % 4 = 0 ∧ regionOf addr.toNat = some .control ∧ ∃ r, ctrlRegAt addr.toNat = some r ∧ t = .reg r) ∨
    (width = 32 ∧ addr.toNat % 4 = 0 ∧ wordMapped addr.toNat = true ∧ t = .word addr.toNat) ∨
    (width = 8 ∧ isDataWindow addr.toNat = true ∧ t = .byte addr.toNat) := by
  unfold target at h
  simp only at h
  split_ifs at h with h1 h2 h3 h4 h5 h6
  · obtain ⟨r, hr, rfl⟩ := Option.map_eq_some_iff.mp h
    exact Or.inl ⟨h1, by simpa using h2, h3, r, hr, rfl⟩
  · exact Or.inr (Or.inl ⟨h1, by simpa using h2, h4, (Option.some.inj h).symm⟩)
  · exact Or.inr (Or.inr ⟨h5, h6, (Option.some.inj h).symm⟩)

theorem wordMapped_iff (a : Nat) : wordMapped a = true ↔
    isDataWindow a = true ∧ isDataWindow (a + 1) = true ∧ isDataWindow (a + 2) = true ∧ isDataWindow (a + 3) = true := by
  simp [wordMapped, and_assoc]

/-- With `rst` released an answer is recorded and nothing else happens. -/
theorem answered_released {r : State × HostAnswer} (h : r.1.rst = false) :
    answered r = { r.1 with responses := r.2 :: r.1.responses } := by
  simp [answered, State.holdReset, h]

/-- With `rst` asserted an answer is recorded and every element stays at its reset value. -/
theorem answered_held {r : State × HostAnswer} (h : r.1.rst = true) :
    answered r = { r.1.resetElements with responses := r.2 :: r.1.responses } := by
  simp [answered, State.holdReset, h]

/-! ### Memory stays canonical and inside the data windows -/

/-- Memory is canonical and lists addresses of the windows X, L, R, SID, C and Y alone. -/
def MemOk (m : Memory) : Prop := Memory.wf m ∧ ∀ c ∈ m, inMemory c.1

theorem memOk_nil : MemOk [] := ⟨⟨List.Pairwise.nil, by simp⟩, by simp⟩

theorem memOk_setByte {s : State} (h : MemOk s.mem) {a : Nat} (ha : inMemory a) (v : Byte) : MemOk (s.setByte a v).mem :=
  ⟨Memory.wf_write h.1 a v, fun c hc => by
    rcases Memory.mem_write hc with ⟨rfl, -⟩ | hc
    · exact ha
    · exact h.2 c hc⟩

theorem memOk_setBytes {s : State} (h : MemOk s.mem) {a : Nat} {vs : List Byte}
    (ha : ∀ b, a ≤ b → b < a + vs.length → inMemory b) : MemOk (s.setBytes a vs).mem :=
  ⟨wf_setBytes h.1 a vs, fun c hc => by
    rcases mem_setBytes hc with ⟨h1, h2⟩ | hc
    · exact ha c.1 h1 h2
    · exact h.2 c hc⟩

theorem memOk_memWrite {s : State} (h : MemOk s.mem) {a : Nat} (ha : isDataWindow a = true) (v : Byte) :
    MemOk (s.memWrite a v).mem := by
  unfold State.memWrite
  split
  · exact h
  · next hg => exact memOk_setByte h ⟨ha, hg⟩ v

theorem memOk_clear {m : Memory} (h : MemOk m) (base size : Nat) : MemOk (Memory.clear m base size) :=
  ⟨Memory.wf_clear h.1 base size, fun c hc => h.2 c (List.mem_filter.mp hc).1⟩

theorem inMemory_iff (a : Nat) : inMemory a ↔
    (0x0200 ≤ a ∧ a ≤ 0x02FE) ∨ (0x0300 ≤ a ∧ a ≤ 0x03FE) ∨ (0x0400 ≤ a ∧ a ≤ 0x041F) ∨
    (0x0500 ≤ a ∧ a ≤ 0x05FE) ∨ (0x2000 ≤ a ∧ a ≤ 0x3FDF) ∨ (0x4000 ≤ a ∧ a ≤ 0x5FDF) := by
  unfold inMemory
  rw [isDataWindow_iff, ne_eq, regionOf_eq_g_iff]
  omega

theorem numB_le {s : State} (h : s.numB ∈ [16, 20, 24, 28, 32]) : s.numB ≤ 32 := by
  simp at h; omega

theorem length_derivedRow (s : State) (j : Nat) : (s.derivedRow j).length = 32 := by
  apply length_padRow
  simp [HashReq.answer]

theorem length_shareRow {s : State} (h : s.numB ≤ 32) (x : Byte) : (s.shareRow x).length = 32 := by
  apply length_padRow
  simpa using h

theorem memOk_deriveRows {s0 : State} {n j : Nat} (hj : j + n ≤ 255) {s : State} (h : MemOk s.mem) :
    MemOk (deriveRows s0 n j s).mem := by
  induction n generalizing j s with
  | zero => exact h
  | succ n ih =>
    refine ih (by omega) (memOk_setBytes h fun b h1 h2 => ?_)
    rw [length_derivedRow] at h2
    rw [inMemory_iff]
    unfold cAddr at h1 h2
    omega

theorem memOk_evalSlot {xs : Bool} {s : State} (hB : s.numB ≤ 32) {i : Nat} (hi : i < 255) (h : MemOk s.mem) :
    MemOk (evalSlot xs s i).mem := by
  unfold evalSlot
  refine memOk_setBytes (memOk_setByte h ?_ _) fun b h1 h2 => ?_
  · rw [inMemory_iff]; unfold xAddr; omega
  · rw [length_shareRow hB] at h2
    rw [inMemory_iff]
    unfold yAddr at h1 h2
    omega

theorem memOk_foldl_evalSlot {xs : Bool} {is : List Nat} (his : ∀ i ∈ is, i < 255) {s : State} (hB : s.numB ≤ 32)
    (h : MemOk s.mem) : MemOk (is.foldl (evalSlot xs) s).mem := by
  induction is generalizing s with
  | nil => exact h
  | cons i is ih =>
    refine ih (fun j hj => his j (by simp [hj])) ?_ (memOk_evalSlot hB (his i (by simp)) h)
    rw [evalSlot_eq]; exact hB

theorem memOk_lagrangeCombine {s : State} (hB : s.numB ≤ 32) {n : Nat} (hn : n ≤ 255) (h : MemOk s.mem) :
    MemOk (lagrangeCombine n s).mem := by
  unfold lagrangeCombine
  refine memOk_setBytes (memOk_setBytes h fun b h1 h2 => ?_) fun b h1 h2 => ?_
  · simp only [State.basis, List.length_map, List.length_range] at h2
    rw [inMemory_iff]
    unfold lAddr at h1 h2
    omega
  · rw [length_padRow (by simpa using hB)] at h2
    rw [inMemory_iff]
    unfold rAddr at h1 h2
    omega

/-- Every command keeps memory canonical and inside the data windows. -/
theorem memOk_exec {i : Instr} {s t : State} (h : MemOk s.mem) (he : exec i s = .next t) : MemOk t.mem := by
  have hT : s.numT < 256 := s.cfgT.isLt
  have hN : s.numN < 256 := s.cfgN.isLt
  have hK : s.numK < 256 := s.cfgK.isLt
  cases i with
  | gld rd addr =>
    rw [exec, execGld] at he
    cases ha : addressError addr <;> rw [ha] at he <;> cases he <;> exact h
  | gst rt addr =>
    rw [exec, execGst] at he
    cases ha : addressError addr with
    | none =>
      rw [ha] at he
      cases he
      have : isDataWindow addr.toNat = true := by
        unfold addressError at ha
        by_contra hc
        rw [if_neg hc] at ha
        simp at ha
      exact memOk_memWrite h this _
    | some c => rw [ha] at he; cases he; exact h
  | derive =>
    rw [exec, execDerive, sharingError_eq] at he
    split_ifs at he with hl
    · cases he
      exact memOk_deriveRows (by omega) h
    · cases he; exact h
  | eval xs =>
    rw [exec, execEval, sharingError_eq] at he
    split_ifs at he with hl
    · rw [firstError_none] at he
      cases hx : evalIndexError xs s <;> rw [hx] at he <;> cases he
      · exact memOk_foldl_evalSlot (fun i hi => by have := List.mem_range.mp hi; omega) (numB_le hl.1) h
      · exact h
    · cases he; exact h
  | recon =>
    rw [exec, execRecon] at he
    cases hx : firstError (indexError s s.numK) (recoveryError s) with
    | none =>
      rw [hx] at he
      cases he
      have hr : recoveryError s = none := by
        cases hi : indexError s s.numK <;> rw [hi] at hx <;> simp_all
      exact memOk_lagrangeCombine (numB_le ((recoveryError_eq_none_iff s).mp hr).1) (by omega) h
    | some c => rw [hx] at he; cases he; exact h
  | verify =>
    rw [exec, execVerify, sharingError_eq] at he
    split_ifs at he with hl
    · rw [firstError_none] at he
      cases hx : indexError s s.numT <;> rw [hx] at he
      · rw [checked_none, compareSecret] at he
        have hm := memOk_lagrangeCombine (numB_le hl.1) (n := s.numT) (by omega) h
        split at he <;> cases he <;> exact hm
      · cases he; exact h
    · cases he; exact h
  | zero =>
    cases he
    exact memOk_clear (memOk_clear (memOk_clear (memOk_clear (memOk_clear (memOk_clear h _ _) _ _) _ _) _ _) _ _) _ _
  | nop => cases he; exact h
  | gadd rd rs1 rs2 => cases he; exact h
  | gaddi rd rs1 imm => cases he; exact h
  | gmul rd rs1 rs2 => cases he; exact h
  | gmuli rd rs1 imm => cases he; exact h
  | ginv rd rs1 => cases he; exact h
  | gexp rd rs1 rs2 => cases he; exact h
  | gexpi rd rs1 imm => cases he; exact h
  | gli rd imm => cases he; exact h

end Sys2Proof.Machine
end

