-- ==== Sys2Proof/Tests/Slice0.lean ====
section
/-! SUPPORT. Tests of the model. Every expected result is the spec's own: the words of its encodings and examples, and the vectors of
95_test_vectors.md (cited by section). After them, for every statement with hypotheses, a concrete state and operands that meet them. -/

namespace Sys2Proof.Tests

open Sys2Proof.Machine Host

/-! ### Helpers -/

/-- A unit fresh from reset, once CLEAR has ended. -/
def ready : State := { State.reset with unit := .idle }

/-- The state a command leaves. -/
def after (i : Instr) (s : State) : State :=
  match exec i s with
  | .next t => t
  | .fault _ => s
  | .refused _ => s

theorem exec_after (i : Instr) (s : State) : exec i s = .next (after i s) := by
  obtain ⟨c, g, m, z, h⟩ := exec_shape i s
  unfold after
  rw [h]

/-- The state one step leaves. -/
def stepped (s : State) : State :=
  match step s with
  | .next t => t
  | .fault _ => s
  | .refused _ => s

/-- `ready` with two registers set. -/
def withRegs (a : RegNum) (u : Byte) (b : RegNum) (v : Byte) : State := (ready.setReg a u).setReg b v

/-- A unit that has just been handed a command word. -/
def running (w : Word) : State := ready.accept w

/-- Lane 0 of E3 (section 2.6), B = 16: C[0][0] = 1, C[1][0] = 2, C[2][0] = 3, X = 2, FF, 2. -/
def e3 : State :=
  { ready with
    cfgB := 16, cfgN := 3, cfgT := 3,
    mem := [(0x0200, 0x02), (0x0201, 0xFF), (0x0202, 0x02), (0x2000, 0x01), (0x2020, 0x02), (0x2040, 0x03)] }

/-- A small sharing, B = 16, N = 3, T = 2: C[0][0] = 1, C[1][0] = 2. -/
def small : State := { ready with cfgB := 16, cfgN := 3, cfgT := 2, mem := [(0x2000, 0x01), (0x2020, 0x02)] }

/-- `small` after EVAL: by hand, 1 + 2·x at x = 1, 2, 3 is 03, 05, 07. -/
def smallShares : State :=
  { small with
    done := true,
    mem := [(0x0200, 1), (0x0201, 2), (0x0202, 3), (0x2000, 0x01), (0x2020, 0x02), (0x4000, 0x03), (0x4020, 0x05), (0x4040, 0x07)] }

/-- Another unit, holding shares 3 and 1 of `small` in slots 0 and 1, B = 16, T = K = 2. -/
def gathered : State :=
  { ready with
    cfgB := 16, cfgT := 2, cfgK := 2,
    mem := [(0x0200, 3), (0x0201, 1), (0x4000, 0x07), (0x4020, 0x03)] }

/-- D2 (section 2.5), SID = "A", without the secret. -/
def d2 : State := { ready with cfgB := 16, cfgN := 3, cfgT := 2, sidLen := 1, mem := [(0x0500, 0x41)] }

/-! ### Well-formedness refuses -/

/-- 30_encoding.md R49, R51: a nonzero reserved field of each format (N, X, R, U, I, L, M), and reserved opcodes. -/
theorem test_wordWellFormed_refuses :
    wordWellFormed 0x00000001 = false ∧ wordWellFormed 0x30000100 = false ∧ wordWellFormed 0x21000002 = false ∧
    wordWellFormed 0x01123001 = false ∧ wordWellFormed 0x05213000 = false ∧ wordWellFormed 0x0245011B = false ∧
    wordWellFormed 0x08710053 = false ∧ wordWellFormed 0x10312000 = false ∧ wordWellFormed 0x09000000 = false ∧
    wordWellFormed 0xFF000000 = false := by decide

/-- R55: operands out of range; R56: GDIV with gd = gs1. -/
theorem test_asm_refuses :
    Asm.assemble (.gadd 16 0 0) = none ∧ Asm.assemble (.gmul 0 16 0) = none ∧ Asm.assemble (.gexp 0 0 16) = none ∧
    Asm.assemble (.ginv 0 16) = none ∧ Asm.assemble (.gaddi 0 0 256) = none ∧ Asm.assemble (.gmuli 0 0 256) = none ∧
    Asm.assemble (.gexpi 16 0 0) = none ∧ Asm.assemble (.gli 0 256) = none ∧ Asm.assemble (.gld 0 65536) = none ∧
    Asm.assemble (.gst 16 0) = none ∧ Asm.assemble (.gsub 0 0 16) = none ∧ Asm.assemble (.gsubi 0 0 256) = none ∧
    Asm.assemble (.gmov 0 16) = none ∧ Asm.assemble (.gclr 16) = none ∧ Asm.assemble (.gsqr 16 0) = none ∧
    Asm.assemble (.gdiv 6 6 1) = none := by decide

/-- R56, program P1 steps 7 and 8: GDIV g7, g6, g1. -/
theorem test_asm_gdiv : (Asm.assemble (.gdiv 7 6 1)).map (·.map encode) = some [0x05710000, 0x03767000] := by decide

/-! ### Decoding: a word of each row, from its encoding, with every field told apart -/

theorem test_decode_nop : decode 0x00000000 = .ok .nop := by decide
theorem test_decode_gadd : decode 0x01123000 = .ok (.gadd 1 2 3) := by decide
theorem test_decode_gaddi : decode 0x0245001B = .ok (.gaddi 4 5 0x1B) := by decide
theorem test_decode_gmul : decode 0x03376000 = .ok (.gmul 3 7 6) := by decide
theorem test_decode_gmuli : decode 0x04210013 = .ok (.gmuli 2 1 0x13) := by decide
theorem test_decode_ginv : decode 0x05210000 = .ok (.ginv 2 1) := by decide
theorem test_decode_gexp : decode 0x06312000 = .ok (.gexp 3 1 2) := by decide
theorem test_decode_gexpi : decode 0x079100FE = .ok (.gexpi 9 1 254) := by decide
theorem test_decode_gli : decode 0x08F000A5 = .ok (.gli 15 0xA5) := by decide
theorem test_decode_gld : decode 0x10302000 = .ok (.gld 3 0x2000) := by decide
theorem test_decode_gst : decode 0x11404021 = .ok (.gst 4 0x4021) := by decide
theorem test_decode_derive : decode 0x20000000 = .ok .derive := by decide
theorem test_decode_eval : decode 0x21000000 = .ok (.eval false) ∧ decode 0x21000001 = .ok (.eval true) := by decide
theorem test_decode_recon : decode 0x22000000 = .ok .recon := by decide
theorem test_decode_verify : decode 0x23000000 = .ok .verify := by decide
theorem test_decode_zero : decode 0x30000000 = .ok .zero := by decide

/-- Section 2.2, the words that complete with code 6. -/
theorem test_decode_illegal :
    decode 0x00000001 = .error .reservedField ∧ decode 0x01123001 = .error .reservedField ∧
    decode 0x0245011B = .error .reservedField ∧ decode 0x05213000 = .error .reservedField ∧
    decode 0x08710053 = .error .reservedField ∧ decode 0x10312000 = .error .reservedField ∧
    decode 0x21000002 = .error .reservedField ∧ decode 0x30000100 = .error .reservedField ∧
    decode 0x09000000 = .error .reservedOpcode ∧ decode 0xFF000000 = .error .reservedOpcode := by decide

/-- Words of program P1. -/
theorem test_encode :
    encode (.gli 1 0x53) = 0x08100053 ∧ encode (.ginv 5 4) = 0x05540000 ∧ encode (.gmul 3 1 2) = 0x03312000 ∧
    encode (.gst 7 0x0400) = 0x11700400 ∧ encode (.gexpi 9 1 254) = 0x079100FE ∧ encode (.gld 10 0x0010) = 0x10A00010 := by decide

/-! ### Commands -/

/-- R64's example. -/
theorem test_gadd : (after (.gadd 1 2 3) (withRegs 2 0x57 3 0x83)).reg 1 = 0xD4 := by decide
/-- R65's example. -/
theorem test_gaddi : (after (.gaddi 4 5 0x1B) (ready.setReg 5 0x57)).reg 4 = 0x4C := by decide
/-- R66's example, and P1 step 8: a source that is also the destination. -/
theorem test_gmul : (after (.gmul 1 2 3) (withRegs 2 0x57 3 0x83)).reg 1 = 0xC1 ∧
    (after (.gmul 7 6 7) (withRegs 6 0x07 7 0xCA)).reg 7 = 0x40 := by decide +kernel
/-- R67's example. -/
theorem test_gmuli : (after (.gmuli 2 1 0x13) (ready.setReg 1 0x57)).reg 2 = 0xFE := by decide
set_option maxRecDepth 10000 in
/-- R68's example; INVZ stays as it was for a nonzero operand. -/
theorem test_ginv : (after (.ginv 2 1) (ready.setReg 1 0x53)).reg 2 = 0xCA ∧
    (after (.ginv 2 1) (ready.setReg 1 0x53)).invz = false := by decide +kernel
/-- Section 2.1: the inverse of 0x00 sets INVZ. -/
theorem test_ginv_zero : (after (.ginv 5 4) (ready.setReg 5 0x99)).reg 5 = 0x00 ∧ (after (.ginv 5 4) ready).invz = true := by
  decide +kernel
/-- R69's example, and 0⁰ = 1 (section 2.1). -/
theorem test_gexp : (after (.gexp 3 1 2) (withRegs 1 0x03 2 0x02)).reg 3 = 0x05 ∧ (after (.gexp 3 1 2) ready).reg 3 = 0x01 := by
  decide +kernel
set_option maxRecDepth 10000 in
/-- R70's example: no INVZ for a zero base, and section 2.1's 2⁵¹. -/
theorem test_gexpi : (after (.gexpi 2 1 254) (ready.setReg 1 0x53)).reg 2 = 0xCA ∧ (after (.gexpi 2 1 254) ready).invz = false ∧
    (after (.gexpi 2 1 51) (ready.setReg 1 0x02)).reg 2 = 0x01 := by decide +kernel
/-- R71's example. -/
theorem test_gli : (after (.gli 7 0x53) ready).reg 7 = 0x53 := by decide
/-- Section 2.3: a register copy through memory, and the addresses that fail. -/
theorem test_gld : (after (.gld 1 0x0105) (ready.setReg 5 0x77)).reg 1 = 0x77 ∧ (after (.gld 1 0x5FDF) ready).err = .success ∧
    (after (.gld 1 0x0010) ready).err = .badAddress ∧ (after (.gld 1 0x02FF) ready).err = .badAddress ∧
    (after (.gld 1 0x5FE0) ready).err = .badAddress ∧ (after (.gld 1 0x0110) ready).err = .badAddress := by decide
/-- Section 2.3. -/
theorem test_gst : (after (.gst 4 0x4021) (ready.setReg 4 0x11)).byte (yAddr 1 1) = 0x11 ∧
    (after (.gst 1 0x000C) ready).err = .badAddress := by decide
/-- D2 (section 2.5): the message bytes. -/
theorem test_derive_message : d2.message 1 =
    [0x73, 0x65, 0x63, 0x72, 0x65, 0x74, 0x2d, 0x73, 0x68, 0x61, 0x72, 0x69, 0x6e, 0x67, 0x2d, 0x63, 0x6f, 0x65, 0x66, 0x66, 0x69,
      0x63, 0x69, 0x65, 0x6e, 0x74, 0x02, 0x01, 0x41] := by decide
/-- The check vectors of section 2.5: T > N fails; B = 32, N = T = 1 writes nothing. -/
theorem test_derive_checks : (after .derive { ready with cfgB := 16, cfgN := 3, cfgT := 4 }).err = .invalidSize ∧
    (after .derive { ready with cfgB := 32, cfgN := 1, cfgT := 1 }).err = .success ∧
    (after .derive { ready with cfgB := 32, cfgN := 1, cfgT := 1 }).mem = [] := by decide
/-- E3 (section 2.6). -/
theorem test_eval_x : (after (.eval true) e3).mem =
    e3.mem ++ [(0x4000, 0x09), (0x4020, 0xD1), (0x4040, 0x09)] ∧ (after (.eval true) e3).err = .success := by decide +kernel
/-- E4 (section 2.6): nothing is written. -/
theorem test_eval_x_zeroIndex :
    let s := { e3 with mem := [(0x0200, 2), (0x0202, 2), (0x2000, 1), (0x2020, 2), (0x2040, 3), (0x4020, 0xAB)] }
    (after (.eval true) s).err = .invalidShareIndex ∧ (after (.eval true) s).mem = s.mem := by decide +kernel
set_option maxRecDepth 10000 in
/-- V2 (section 2.7): L and R from shares 3 and 1. -/
theorem test_recon : let t := after .recon gathered
    t.byte (lAddr 0) = 0x8D ∧ t.byte (lAddr 1) = 0x8C ∧ t.byte (rAddr 0) = 0x01 ∧ t.byte (rAddr 1) = 0 := by decide +kernel
/-- V4, V9 and V11 (section 2.7). -/
theorem test_recon_checks : (after .recon { gathered with cfgK := 1 }).statusWord = 0x00000402 ∧
    (after .recon { gathered with cfgB := 15, mem := [(0x0200, 1), (0x0201, 1)] }).err = .duplicateShareIndex ∧
    (after .recon { gathered with cfgT := 0 }).err = .invalidSize := by decide
set_option maxRecDepth 10000 in
/-- T1 (section 2.8): L = F7, F6 for indices 1, 2, and R agrees. -/
theorem test_verify : let t := after .verify smallShares
    t.err = .success ∧ t.byte (lAddr 0) = 0xF7 ∧ t.byte (lAddr 1) = 0xF6 ∧ t.byte (rAddr 0) = 0x01 := by decide +kernel
set_option maxRecDepth 10000 in
/-- T2 (section 2.8): bit 0 of Y[0][0] flipped puts lane 0 off by L[0] = F7; L and R stay written. -/
theorem test_verify_flipped : let t := after .verify (smallShares.setByte (yAddr 0 0) 0x02)
    t.err = .internalFailure ∧ t.byte (rAddr 0) = 0x01 ^^^ 0xF7 ∧ t.byte (lAddr 1) = 0xF6 := by decide +kernel
/-- K1 (section 2.9): an older ERR is cleared. -/
theorem test_nop : let t := stepped (stepped { ready with err := .insufficientShares, inputs := [.write 0x000C 32 0] })
    t.err = .success ∧ t.done = true ∧ t.ccnt = 1 := by decide
/-- K2 (section 2.9). -/
theorem test_zero : let t := after .zero ((smallShares.setReg 3 0x11).setByte (sidAddr 254) 0x22)
    t.mem = [] ∧ t.reg 3 = 0 ∧ t.cfgB = 16 ∧ t.cfgN = 3 ∧ t.cfgT = 2 := by decide

/-! ### The host port and the life of a command (section 2.4) -/

theorem test_port_idle :
    (hostRead 0x0000 32 ready).2 = .read 0x47460007 .ok ∧ hostRead 0x0000 8 ready = (ready, .read 0 .err) ∧
    (hostRead 0x0002 32 ready).2 = .read 0 .err ∧ hostWrite 0x02FC 32 0x11223344 ready = (ready, .write .err) ∧
    (hostWrite 0x0201 32 0 ready).2 = .write .err ∧
    (hostRead 0x0100 32 { ready with g := #v[1, 2, 3, 4, 0, 0, 0, 0, 0, 0, 0, 0, 0, 0, 0, 0] }).2 = .read 0x04030201 .ok ∧
    (hostWrite 0x2000 32 0x03020100 ready).1.mem = [(0x2001, 1), (0x2002, 2), (0x2003, 3)] ∧
    (hostRead 0x0010 32 (hostWrite 0x0010 32 0x12345610 ready).1).2 = .read 0x00000010 .ok ∧
    (hostRead 0x0004 32 (hostWrite 0x0004 32 0x7FFFFFFF ready).1).2 = .read 0x00000003 .ok := by decide

theorem test_port_busy : let s := running 0x00000000
    hostRead 0x0400 32 s = ({ s with ovr := true }, .read 0 .err) ∧ hostWrite 0x000C 32 0 s = ({ s with ovr := true }, .write .err) ∧
    (hostRead 0x0008 32 s).2 = .read 1 .ok ∧ (hostWrite 0x0008 32 4 { s with ovr := true }).1 = s ∧
    hostRead 0x0100 8 s = ({ s with ovr := true }, .read 0 .err) ∧ hostRead 0x0008 8 s = (s, .read 0 .err) := by decide

/-- STATUS = 0x30E, written 0xF0E, reads 0x300. -/
theorem test_port_w1c : let s := { ready with err := .duplicateShareIndex, invz := true, ovr := true, done := true }
    s.statusWord = 0x0000030E ∧ (hostWrite 0x0008 32 0x00000F0E s).1.statusWord = 0x00000300 := by decide

/-- The soft reset of section 2.4. -/
theorem test_port_softReset : (hostWrite 0x0004 32 0x80000001 smallShares) = (State.reset, .write .ok) := by decide

/-- P1 step 1, from reset: CLEAR ends, the host writes the word, the unit performs it. -/
theorem test_life : let t := stepped (stepped (stepped { State.reset with inputs := [.turn, .write 0x000C 32 0x08100053] }))
    t.reg 1 = 0x53 ∧ t.ccnt = 1 ∧ t.cmdlog = 0x08100053 ∧ t.statusWord = 0x00000002 ∧ t.responses = [.write .ok] := by decide

/-- An illegal word completes with code 6 (section 2.2). -/
theorem test_illegal_completes : (stepped (running 0x09000000)).statusWord = 0x00000602 := by decide

/-- The very next step performs the placed instruction. -/
theorem test_withFetchWord : (stepped (State.reset.withFetchWord 32 0x08100053)).reg 1 = 0x53 := by decide

/-! ### Witnesses: what meets the hypotheses of each statement, clause by clause -/

/-- E3 with index 1 of X zero. -/
def zeroIndex : State := { e3 with mem := [(0x0200, 2), (0x0202, 2), (0x2000, 1), (0x2020, 2), (0x2040, 3)] }

/-- A running DERIVE of `d2`, its one request not yet made. -/
def deriving0 : Running := ⟨0x20000000, false, 0, none⟩

/-- The same, its one request outstanding. -/
def deriving1 : Running := ⟨0x20000000, false, 0, some (d2.request 1)⟩

theorem witness_EncodeInvertsDecode : decode 0x01FED000 = .ok (.gadd 15 14 13) := by decide

theorem witness_DecoderAgreesWithMatchAndMask :
    let r : OpRow := ⟨"EVAL", 0x21000000, 0xFFFFFFFE⟩
    r ∈ opcodeRows ∧ r.accepts 0x21000001 = true := by decide

theorem witness_ReservedWordsAreIllegal :
    (∀ op ∈ [0x09, 0x0F, 0x12, 0x1F, 0x24, 0x2F, 0x31, 0xFF],
      let op := ((BitVec.ofNat 32 (op * 2 ^ 24)).extractLsb' 24 8).toNat
      (0x09 ≤ op ∧ op ≤ 0x0F) ∨ (0x12 ≤ op ∧ op ≤ 0x1F) ∨ (0x24 ≤ op ∧ op ≤ 0x2F) ∨ 0x31 ≤ op) ∧
    (let r : OpRow := ⟨"ZERO", 0x30000000, 0xFFFFFFFF⟩;
      r ∈ opcodeRows ∧ (0x30000100 : Word).extractLsb' 24 8 = r.pattern.extractLsb' 24 8 ∧ 0x30000100 &&& r.mask ≠ r.pattern) ∧
    ((running 0x09000000).rst = false ∧ (running 0x09000000).unit = .exec ⟨0x09000000, false, 0, none⟩ ∧
      decode 0x09000000 = .error .reservedOpcode) := by decide

/-- Each range's last operand and the first beyond it; GDIV's forms. -/
theorem witness_AssemblerRefusesOrExpands : 7 < 16 ∧ 6 < 16 ∧ 1 < 16 ∧ 7 ≠ 6 ∧ (6 = 6 ∨ 16 ≤ 6 ∨ 16 ≤ 6 ∨ 16 ≤ 1) ∧
    Asm.assemble (.gmul 15 15 15) = some [.gmul 15 15 15] ∧ Asm.assemble (.gmul 15 15 16) = none ∧
    Asm.assemble (.gexpi 0 0 255) = some [.gexpi 0 0 255] ∧ Asm.assemble (.gexpi 0 0 256) = none ∧
    Asm.assemble (.gst 0 65535) = some [.gst 0 65535] ∧ Asm.assemble (.gst 0 65536) = none := by decide

theorem witness_StepRunsDecodedCommand :
    let r : Running := ⟨0x08100053, false, 0, none⟩
    let s := running 0x08100053
    s.rst = false ∧ s.unit = .exec r ∧ r.hashReq = none ∧ requestsOf r.word s ≤ r.hashDone ∧ decode r.word = .ok (.gli 1 0x53) ∧
    s.inputs = [] ∧ { s with inputs := [.turn] }.inputs = .turn :: [] ∧
    (ready.rst = false ∧ ready.unit = .idle ∧ ready.inputs = [] ∧ { ready with inputs := [.turn] }.inputs = .turn :: []) := by decide

/-- The same of a DERIVE, its one request answered. -/
theorem witness_StepRunsDecodedCommand_derive :
    let r : Running := { deriving0 with hashDone := 1 }
    let s := { d2 with unit := .exec r }
    s.rst = false ∧ s.unit = .exec r ∧ r.hashReq = none ∧ requestsOf r.word s ≤ r.hashDone ∧ decode r.word = .ok .derive := by decide

theorem witness_CmdWriteAcceptsWord : let s := { ready with inputs := [.write 0x000C 32 0x08100053] }
    s.rst = false ∧ s.unit = .idle ∧ s.inputs = .write 0x000C 32 0x08100053 :: [] := by decide

theorem witness_StepServesHostAccess :
    (let s := { ready with inputs := [.read 0x0000 32] }; s.rst = false ∧ s.inputs = .read 0x0000 32 :: []) ∧
    (let s := { ready with inputs := [.write 0x0010 32 16] }; s.rst = false ∧ s.inputs = .write 0x0010 32 16 :: []) := by decide

theorem witness_InverseByFermat : (0x53 : Byte) ≠ 0 ∧ ready.reg 4 = 0 := by decide

theorem witness_ExponentLaws : 254 + 1 ≤ 255 ∧ (0x53 : Byte) ≠ 0 ∧ 1 ≤ 1 ∧ 1 ≤ 50 ∧ 50 < 51 := by decide

/-- Words with the reserved bits of their format 0, and words with one of them set, for `OpcodeRule` in formats R, I, U, L, M, X, N. -/
theorem witness_OpcodeRule :
    ((0x01123000 : Word).extractLsb' 24 8 = 0x01 ∧ (0x01123000 : Word).extractLsb' 0 12 = 0 ∧ (0x01123001 : Word).extractLsb' 24 8 = 0x01 ∧
      ¬ (0x01123001 : Word).extractLsb' 0 12 = 0) ∧
    ((0x0245001B : Word).extractLsb' 24 8 = 0x02 ∧ (0x0245001B : Word).extractLsb' 8 8 = 0 ∧ ¬ (0x0245011B : Word).extractLsb' 8 8 = 0) ∧
    ((0x05210000 : Word).extractLsb' 24 8 = 0x05 ∧ (0x05210000 : Word).extractLsb' 0 16 = 0 ∧ ¬ (0x05213000 : Word).extractLsb' 0 16 = 0) ∧
    ((0x08700053 : Word).extractLsb' 24 8 = 0x08 ∧ (0x08700053 : Word).extractLsb' 8 12 = 0 ∧ ¬ (0x08710053 : Word).extractLsb' 8 12 = 0) ∧
    ((0x10302000 : Word).extractLsb' 24 8 = 0x10 ∧ (0x10302000 : Word).extractLsb' 16 4 = 0 ∧ ¬ (0x10312000 : Word).extractLsb' 16 4 = 0) ∧
    ((0x21000001 : Word).extractLsb' 24 8 = 0x21 ∧ (0x21000001 : Word).extractLsb' 1 23 = 0 ∧ ¬ (0x21000002 : Word).extractLsb' 1 23 = 0) ∧
    ((0x30000000 : Word).extractLsb' 24 8 = 0x30 ∧ (0x30000000 : Word).extractLsb' 0 24 = 0 ∧ ¬ (0x30000100 : Word).extractLsb' 0 24 = 0) := by
  decide

/-- GADD, GMUL: registers 2 and 3; GADDI: register 5. -/
theorem witness_GaddAddsRegisters_GmulMultipliesRegisters_GaddiAddsImmediate :
    ((withRegs 2 0x57 3 0x83).reg 2 = 0x57 ∧ (withRegs 2 0x57 3 0x83).reg 3 = 0x83) ∧ (ready.setReg 5 0x57).reg 5 = 0x57 := by decide

/-- GMULI: register 1 = 57; GINV and GEXPI: register 1 = 53; a register other than the destination. -/
theorem witness_GmuliMultipliesByImmediate_GinvInvertsAndFlagsZero :
    (ready.setReg 1 0x57).reg 1 = 0x57 ∧ (ready.setReg 1 0x53).reg 1 = 0x53 ∧ (3 : RegNum) ≠ 2 := by decide

theorem witness_GexpRaisesToRegister :
    ready.reg 2 = 0 ∧ ((ready.setReg 2 0x01).reg 1 = 0 ∧ (ready.setReg 2 0x01).reg 2 ≠ 0) ∧ (ready.setReg 2 0xFE).reg 2 = 254 ∧
    ((withRegs 1 0x03 2 0xFF).reg 1 ≠ 0 ∧ (withRegs 1 0x03 2 0xFF).reg 2 = 255) ∧
    ((withRegs 1 0x03 2 0x02).reg 1 = 0x03 ∧ (withRegs 1 0x03 2 0x02).reg 2 = 0x02) := by decide

theorem witness_GexpiRaisesToImmediate_GliLoadsImmediate :
    (ready.reg 1 = 0 ∧ (0x01 : Byte) ≠ 0) ∧ (ready.setReg 1 0x53).reg 1 ≠ 0 ∧ (ready.setReg 1 0x53).reg 1 = 0x53 := by decide

/-- The first and last address of each data window, and the addresses just outside. -/
theorem witness_MovesDemandDataWindow :
    (∀ a ∈ [0x0100, 0x010F, 0x0200, 0x02FE, 0x0300, 0x03FE, 0x0400, 0x041F, 0x0500, 0x05FE, 0x2000, 0x3FDF, 0x4000, 0x5FDF],
      InWindow a) ∧
    (∀ a ∈ [0x0000, 0x000C, 0x0010, 0x002B, 0x002C, 0x00FF, 0x0110, 0x01FF, 0x02FF, 0x03FF, 0x0420, 0x04FF, 0x05FF, 0x1FFF, 0x3FE0,
      0x3FFF, 0x5FE0, 0xFFFF], ¬ InWindow a) := by decide

theorem witness_GldLoadsByte : (ready.setByte 0x2000 0x3A).byte (cAddr 0 0) = 0x3A ∧ InWindow (0x2000 : Addr).toNat ∧
    ¬ InWindow (0x02FF : Addr).toNat ∧ (2 : RegNum) ≠ 3 := by decide

theorem witness_GstStoresByte : Memory.wf small.mem ∧ (small.setReg 4 0x11).reg 4 = 0x11 ∧ Memory.wf (small.setReg 4 0x11).mem ∧
    InWindow (0x4021 : Addr).toNat ∧ ¬ InWindow (0x5FE0 : Addr).toNat ∧ (InWindow 0x4020 ∧ 0x4020 ≠ (0x4021 : Addr).toNat) ∧
    (0x0101 : Addr).toNat ≠ 0x0100 + (2 : RegNum).toNat := by decide

/-- NOP and ZERO: see `witness_OpcodeRule`; addresses in and out of the windows. -/
theorem witness_ZeroClearsData : InWindow 0x0100 ∧ InWindow 0x5FDF ∧ ¬ InWindow 0x0110 ∧
    (0x00000000 : Word).extractLsb' 24 8 = 0x00 ∧ (0x00000000 : Word).extractLsb' 0 24 = 0 ∧ ¬ (0x00000001 : Word).extractLsb' 0 24 = 0 := by
  decide

/-- The failing rows of the check vectors, and the legal boundary (section 2.5). -/
theorem witness_SharingChecksComeFirst :
    ¬ SharingLegal { ready with cfgN := 3, cfgT := 2 } ∧ ¬ SharingLegal { ready with cfgB := 17, cfgN := 3, cfgT := 2 } ∧
    ¬ SharingLegal { ready with cfgB := 16 } ∧ ¬ SharingLegal { ready with cfgB := 16, cfgN := 3 } ∧
    ¬ SharingLegal { ready with cfgB := 16, cfgN := 3, cfgT := 4 } ∧ SharingLegal { ready with cfgB := 16, cfgN := 255, cfgT := 255 } ∧
    SharingLegal { ready with cfgB := 32, cfgN := 1, cfgT := 1 } ∧ SharingLegal small := by decide

theorem witness_SharingChecksComeFirst_next : exec .verify smallShares = .next (after .verify smallShares) := exec_after _ _

/-- Rows 1..T-1 and their lanes at both ends, for T = 2 and T = 255. -/
theorem witness_DeriveFillsRows : (Memory.wf d2.mem ∧ SharingLegal d2 ∧ 1 ≤ 1 ∧ 1 < d2.numT ∧ 15 < d2.numB ∧ d2.numB ≤ 16 ∧ 31 < 32) ∧
    (let s := { d2 with cfgN := 255, cfgT := 255 }; SharingLegal s ∧ 254 < s.numT) ∧
    ¬ (cAddr 1 0 ≤ cAddr 0 31 ∧ cAddr 0 31 < cAddr d2.numT 0) := by decide

theorem witness_RequestsInOrderOneAtATime :
    (let s := { d2 with unit := .exec deriving0 };
      s.rst = false ∧ s.inputs = [] ∧ s.unit = .exec deriving0 ∧ decode deriving0.word = .ok .derive ∧ SharingLegal s ∧
      deriving0.hashReq = none ∧ deriving0.hashDone + 1 < s.numT) ∧
    (let s := { d2 with unit := .exec deriving1 };
      s.rst = false ∧ s.inputs = [] ∧ s.unit = .exec deriving1 ∧ decode deriving1.word = .ok .derive ∧ SharingLegal s ∧
      deriving1.hashReq = some (d2.request 1) ∧ s.hashUp = true ∧ { s with hashUp := false }.hashUp = false) ∧
    decode 0x21000000 ≠ .ok .derive := by decide

/-- Two units that share secret, lengths, threshold and session id, and differ in N, a register, a share and what follows SID. -/
theorem witness_DerivationIsDeterministic :
    let s := { d2.setReg 3 0x55 with cfgN := 7, mem := [(0x0500, 0x41), (0x0501, 0x99), (0x4000, 0x12)] }
    (Memory.wf d2.mem ∧ Memory.wf s.mem ∧ SharingLegal d2 ∧ SharingLegal s ∧ d2.cfgB = s.cfgB ∧ d2.cfgT = s.cfgT ∧
      d2.sidLen = s.sidLen ∧ (∀ k < d2.numB, d2.byte (cAddr 0 k) = s.byte (cAddr 0 k)) ∧
      (∀ i < d2.sidLen.toNat, d2.byte (sidAddr i) = s.byte (sidAddr i))) ∧
    1 < d2.numT := by decide

theorem witness_DerivationIsDeterministic_next (s : State) : exec .derive s = .next (after .derive s) := exec_after _ _

theorem witness_EvalWritesShares :
    (Memory.wf e3.mem ∧ SharingLegal e3 ∧ (true = true → IndicesNonzero e3 e3.numN) ∧ (false = true → IndicesNonzero zeroIndex zeroIndex.numN)) ∧
    2 < e3.numN ∧ 15 < e3.numB ∧ e3.numB ≤ 16 ∧
    ¬ ((xAddr 0 ≤ 0x0203 ∧ 0x0203 < xAddr e3.numN) ∨ (yAddr 0 0 ≤ 0x0203 ∧ 0x0203 < yAddr e3.numN 0)) ∧
    (SharingLegal zeroIndex ∧ ¬ IndicesNonzero zeroIndex zeroIndex.numN) := by decide

/-- E2's configuration (section 2.6). -/
theorem witness_ThresholdOneSharesAreSecret :
    let s := { ready with cfgB := 16, cfgN := 5, cfgT := 1, mem := [(0x2001, 0x01), (0x2020, 0xEE)] }
    (Memory.wf s.mem ∧ SharingLegal s ∧ s.numT = 1 ∧ 4 < s.numN ∧ 15 < s.numB ∧ (false = true → IndicesNonzero s s.numN)) ∧
    (let u := { s with cfgN := 1, mem := [(0x0200, 0x09), (0x2001, 0x01)] }
     Memory.wf u.mem ∧ SharingLegal u ∧ u.numT = 1 ∧ (true = true → IndicesNonzero u u.numN)) := by
  refine ⟨?_, ?_⟩ <;> decide

/-- `smallShares` and the same with lane 1 of row 0 and of slot 0 changed: lane 0 alike. -/
theorem witness_LanesAreIndependent :
    let s := (smallShares.setByte (cAddr 0 1) 0x77).setByte (yAddr 0 1) 0x66
    (Memory.wf smallShares.mem ∧ Memory.wf s.mem ∧ smallShares.cfgB = s.cfgB ∧ smallShares.cfgN = s.cfgN ∧ smallShares.cfgT = s.cfgT ∧
      smallShares.cfgK = s.cfgK ∧ 0 < smallShares.numB) ∧
    (∀ i < 255, smallShares.byte (xAddr i) = s.byte (xAddr i)) ∧ (∀ j < 255, smallShares.byte (cAddr j 0) = s.byte (cAddr j 0)) ∧
    (∀ i < 255, smallShares.byte (yAddr i 0) = s.byte (yAddr i 0)) := by decide +kernel

set_option maxRecDepth 10000 in
/-- All three commands get as far as their results in both states. -/
theorem witness_LanesAreIndependent_codes :
    let s := (smallShares.setByte (cAddr 0 1) 0x77).setByte (yAddr 0 1) 0x66
    (after (.eval false) smallShares).err = .success ∧ (after (.eval true) s).err = .success ∧
    (after .recon { smallShares with cfgK := 2 }).err = .success ∧ (after .recon { s with cfgK := 2 }).err = .success ∧
    (after .verify smallShares).err ∈ [.success, .internalFailure] ∧ (after .verify s).err ∈ [.success, .internalFailure] := by
  decide +kernel

/-- T3 and T4 (section 2.8), then a legal configuration; the last two clauses are `test_verify` and `test_verify_flipped`. -/
theorem witness_VerifyReconstructsAndCompares :
    (Memory.wf zeroIndex.mem ∧ SharingLegal zeroIndex ∧ ¬ IndicesNonzero zeroIndex zeroIndex.numT) ∧
    (Memory.wf e3.mem ∧ SharingLegal e3 ∧ IndicesNonzero e3 e3.numT ∧ ¬ IndicesDistinct e3 e3.numT) ∧
    (Memory.wf smallShares.mem ∧ SharingLegal smallShares ∧ IndicesNonzero smallShares smallShares.numT ∧
      IndicesDistinct smallShares smallShares.numT) := by decide

set_option maxRecDepth 10000 in
/-- R agrees with row 0 in one state, and does not in the other. -/
theorem witness_VerifyReconstructsAndCompares_agreement :
    (∀ k < smallShares.numB, interpolated smallShares smallShares.numT k = smallShares.byte (cAddr 0 k)) ∧
    (let s := smallShares.setByte (yAddr 0 0) 0x02;
      ¬ ∀ k < s.numB, interpolated s s.numT k = s.byte (cAddr 0 k)) := by decide +kernel

theorem witness_ReconChecksInOrder :
    (let s := { gathered with mem := [(0x0201, 2)] }; ¬ IndicesNonzero s s.numK) ∧
    (let s := { gathered with mem := [(0x0200, 1), (0x0201, 1)] }; IndicesNonzero s s.numK ∧ ¬ IndicesDistinct s s.numK) ∧
    (let s := { gathered with cfgB := 15 }; IndicesNonzero s s.numK ∧ IndicesDistinct s s.numK ∧ s.numB ∉ [16, 20, 24, 28, 32]) ∧
    (IndicesNonzero gathered gathered.numK ∧ IndicesDistinct gathered gathered.numK ∧ gathered.numB ∈ [16, 20, 24, 28, 32] ∧
      gathered.commandNothresh = false ∧ { gathered with cfgT := 0 }.numT = 0 ∧ gathered.numT ≠ 0 ∧
      { gathered with cfgK := 1 }.numK < gathered.numT) ∧
    (IndicesNonzero gathered gathered.numK ∧ IndicesDistinct gathered gathered.numK ∧ RecoveryLegal gathered) := by
  refine ⟨?_, ?_, ?_, ?_, ?_⟩ <;> decide

/-- K = T, and K = 0 and K = 1 with NOTHRESH (V5, V6 of section 2.7). -/
theorem witness_ReconInterpolatesAtZero :
    (Memory.wf gathered.mem ∧ IndicesNonzero gathered gathered.numK ∧ IndicesDistinct gathered gathered.numK ∧ RecoveryLegal gathered) ∧
    (let s := { gathered with cfgK := 0, nothresh := true };
      IndicesNonzero s s.numK ∧ IndicesDistinct s s.numK ∧ RecoveryLegal s ∧ s.numK = 0) ∧
    (let s := { gathered with cfgK := 1, nothresh := true };
      IndicesNonzero s s.numK ∧ IndicesDistinct s s.numK ∧ RecoveryLegal s ∧ s.numK = 1) := by decide

/-- EVAL of `small` leaves `smallShares`. -/
theorem test_eval : exec (.eval false) small = .next smallShares := by
  rw [exec_after]; exact congrArg _ (by decide +kernel)

/-- Shares 3 and 1 of `small`, in slots 0 and 1 of `gathered`. -/
theorem witness_AnyThresholdSharesRecoverSecret : let σ := fun i => if i = 0 then 2 else 0
    Memory.wf small.mem ∧ Memory.wf gathered.mem ∧ SharingLegal small ∧ smallShares.err = .success ∧ (∀ i < small.numT, σ i < small.numN) ∧
    (∀ i < small.numT, ∀ j < small.numT, smallShares.byte (xAddr (σ i)) = smallShares.byte (xAddr (σ j)) → i = j) ∧
    gathered.cfgB = small.cfgB ∧ gathered.cfgT = small.cfgT ∧ gathered.cfgK = small.cfgT ∧
    (∀ i < small.numT, gathered.byte (xAddr i) = smallShares.byte (xAddr (σ i))) ∧
    (∀ i < small.numT, ∀ k < small.numB, gathered.byte (yAddr i k) = smallShares.byte (yAddr (σ i) k)) := by decide

theorem witness_VerifyAfterEvalSucceeds :
    Memory.wf small.mem ∧ SharingLegal small ∧ exec (.eval false) small = .next smallShares :=
  ⟨by decide, by decide, test_eval⟩

theorem witness_FailedCommandsChangeNothing :
    (exec (.gld 1 0x0010) ready = .next (after (.gld 1 0x0010) ready) ∧ (after (.gld 1 0x0010) ready).err ≠ .success ∧
      (after (.gld 1 0x0010) ready).err ≠ .internalFailure) ∧
    ((running 0xFF000000).rst = false ∧ (running 0xFF000000).unit = .exec ⟨0xFF000000, false, 0, none⟩ ∧
      decode 0xFF000000 = .error .reservedOpcode) :=
  ⟨⟨exec_after _ _, by decide, by decide⟩, by decide⟩

/-- InternalFailure: `test_verify_flipped`'s state. -/
theorem witness_FailedCommandsChangeNothing_internalFailure : let s := smallShares.setByte (yAddr 0 0) 0x02
    Memory.wf s.mem ∧ exec .verify s = .next (after .verify s) ∧ (after .verify s).err = .internalFailure :=
  ⟨by decide, exec_after _ _, test_verify_flipped.1⟩

theorem witness_CommandsRaiseOnlyTheirCodes : exec .recon gathered = .next (after .recon gathered) := exec_after _ _

theorem witness_OnlyGinvOfZeroSetsInvz :
    exec (.ginv 5 4) ready = .next (after (.ginv 5 4) ready) ∧ (after (.ginv 5 4) ready).invz ≠ ready.invz :=
  ⟨exec_after _ _, by rw [test_ginv_zero.2]; decide⟩

/-- The edges of each clause of R37. -/
theorem witness_PortAddressRules :
    (16 ≠ 8 ∧ 16 ≠ 32) ∧ ((0x0000 : Addr).toNat ≤ 0x2B ∧ (0x002B : Addr).toNat ≤ 0x2B) ∧ (0x0201 : Addr).toNat % 4 ≠ 0 ∧
    (¬ (0x002C : Addr).toNat ≤ 0x2B ∧ ¬ InWindow (0x002C : Addr).toNat) ∧
    (¬ (0x02FC : Addr).toNat ≤ 0x2B ∧ ¬ WordInWindows (0x02FC : Addr).toNat) ∧
    (ready.unit = .idle ∧ (0x0028 : Addr).toNat ≤ 0x2B ∧ (0x0028 : Addr).toNat % 4 = 0) ∧ InWindow (0x02FE : Addr).toNat ∧
    WordInWindows (0x02F8 : Addr).toNat ∧ WordInWindows (0x010C : Addr).toNat ∧ WordInWindows (0x5FDC : Addr).toNat := by
  refine ⟨?_, ?_, ?_, ?_, ?_, ?_, ?_, ?_, ?_, ?_⟩ <;> decide

/-- BUSY in EXEC and in CLEAR, and served and refused addresses. -/
theorem witness_BusyServesOnlyStatus_BusyHidesData : (running 0x00000000).busy = true ∧ State.reset.busy = true ∧
    InWindow (0x5FDF : Addr).toNat ∧ WordInWindows (0x0400 : Addr).toNat ∧ ¬ InWindow (0x0008 : Addr).toNat ∧
    (¬ ((0x0002 : Addr).toNat ≤ 0x2B ∧ (0x0002 : Addr).toNat % 4 = 0) ∧ ¬ WordInWindows (0x0002 : Addr).toNat) := by
  refine ⟨?_, ?_, ?_, ?_, ?_, ?_⟩ <;> decide

theorem witness_PortIsLittleEndian_ByteAccessMovesOneByte :
    small.unit = .idle ∧ Memory.wf small.mem ∧ WordInWindows (0x2000 : Addr).toNat ∧ WordInWindows (0x0100 : Addr).toNat ∧
    InWindow (0x0200 : Addr).toNat ∧ (InWindow 0x2004 ∧ ¬ ((0x2000 : Addr).toNat ≤ 0x2004 ∧ 0x2004 < (0x2000 : Addr).toNat + 4)) := by
  refine ⟨?_, ?_, ?_, ?_, ?_, ?_⟩ <;> decide

/-- The statements hold in every state; these are the hypotheses of their clauses. -/
theorem witness_ControlRegisterReads_ControlRegisterWrites : ready.unit = .idle ∧ (0x7FFFFFFF : Word).getLsbD 31 = false := by decide

/-- R17, R30 and R108: STATUS reads BUSY = 1 in EXEC and in CLEAR, and a CTRL write is served there (R16). -/
theorem test_port_busyStatus :
    (hostRead 0x0008 32 (running 0x22000000)).2 = .read 0x00000001 .ok ∧ (hostRead 0x0008 32 State.reset).2 = .read 0x00000001 .ok ∧
    (hostRead 0x0028 32 (running 0x22000000)).2 = .read 0x22000000 .ok ∧
    (hostWrite 0x0004 32 0x00000001 (running 0x22000000)).1.ie = true := by decide

theorem witness_SoftResetEqualsRstPulse : (running 0x20000000).rst = false ∧ (0x80000001 : Word).getLsbD 31 = true := by decide

/-- A unit held in reset meets every clause's hypotheses, and an input that is not `rst`; then one in CLEAR. -/
theorem witness_RstHoldsThenClears : let s := { State.reset with rst := true }
    s.rst = true ∧ s = s.resetElements ∧ (∀ level, Input.turn ≠ .rst level) ∧ serve .turn s = .next s ∧
    State.reset.rst = false ∧ State.reset.unit = .clear :=
  ⟨rfl, rfl, (fun _ h => by cases h), rfl, rfl, rfl⟩

theorem witness_IrqFollowsDoneAndEnable : let s := { ready with done := true }
    (s.rst = false ∧ s.done = true ∧ (0x00000001 : Word).getLsbD 31 = false) ∧ (0x00000002 : Word).getLsbD 1 = true ∧
    exec .nop s = .next (after .nop s) := ⟨by decide, by decide, exec_after _ _⟩

/-- A running DERIVE with its request outstanding meets the invariant, and has a next step. -/
theorem witness_StepKeepsInvariant : let s := { d2 with cmdlog := 0x20000000, unit := .exec deriving1 }
    Invariant s ∧ ∃ t, step s = .next t := by
  refine ⟨⟨by decide, by decide, ?_, ?_, ?_, (fun h => by cases h), (fun h => by cases h)⟩, _, rfl⟩
  · intro r h; cases h; exact ⟨rfl, rfl⟩
  · intro r h; cases h; decide
  · intro r q h; cases h; intro h; cases h; rfl

theorem witness_RunningCommandCompletes : let s := { d2 with unit := .exec deriving1 }
    s.rst = false ∧ s.hashUp = true ∧ s.inputs = [] ∧ s.unit = .exec deriving1 := by decide

/-- A read, and a CTRL write without SRST, while a command runs. -/
theorem witness_BusyAccessesDoNotDisturbCommand : let s := running 0x22000000
    (s.rst = false ∧ s.unit = .exec ⟨0x22000000, false, 0, none⟩) ∧
    (∃ t, serve (.read 0x0400 32) s = .next t) ∧ (∃ t, serve (.write 0x0004 32 0x00000002) s = .next t) ∧
    ¬ ((0x0004 : Addr) = 0x0004 ∧ 32 = 32 ∧ (0x00000002 : Word).getLsbD 31 = true) :=
  ⟨by decide, ⟨_, rfl⟩, ⟨_, rfl⟩, by decide⟩

end Sys2Proof.Tests
end

section
/-! Proofs. The host port's access rules in the terms of R37: which accesses are let through, what a served, a refused and a rejected
access answer, and what a data-window byte reads as after a write; then what R36 to R38 ask of them. -/

namespace Sys2Proof.Machine

/-! ### Which accesses R37 lets through -/

/-- The accesses of R37 that do not get ERR for their address or width: a whole control register, a word of data-window bytes, a
data-window byte. -/
def LetThrough (a width : Nat) : Prop :=
  (width = 32 ∧ a ≤ 0x2B ∧ a % 4 = 0) ∨ (width = 32 ∧ WordInWindows a) ∨ (width = 8 ∧ InWindow a)

theorem isDataWindow_iff_inWindow (a : Nat) : isDataWindow a = true ↔ InWindow a := isDataWindow_iff a

theorem wordMapped_iff_inWindow (a : Nat) :
    wordMapped a = true ↔ InWindow a ∧ InWindow (a + 1) ∧ InWindow (a + 2) ∧ InWindow (a + 3) := by
  simp only [wordMapped_iff, isDataWindow_iff_inWindow]

theorem target_byte {addr : Addr} (h : InWindow addr.toNat) : target addr 8 = some (.byte addr.toNat) := by
  simp [target, (isDataWindow_iff_inWindow _).mpr h]

theorem target_word {addr : Addr} (h : WordInWindows addr.toNat) : target addr 32 = some (.word addr.toNat) := by
  obtain ⟨h4, hw⟩ := h
  have hc : regionOf addr.toNat ≠ some .control := by rw [ne_eq, regionOf_eq_control_iff]; omega
  simp [target, h4, hc, (wordMapped_iff_inWindow _).mpr hw]

theorem target_control {addr : Addr} (h : addr.toNat ≤ 0x2B) (h4 : addr.toNat % 4 = 0) :
    target addr 32 = (ctrlRegAt addr.toNat).map .reg := by
  simp [target, h4, (regionOf_eq_control_iff _).mpr h]

/-- The eleven registers fill the control range. -/
theorem ctrlRegAt_isSome {a : Nat} (h : a ≤ 0x2B) : ∃ r, ctrlRegAt a = some r := by
  have hk : a / 4 ≤ 10 := by omega
  unfold ctrlRegAt
  generalize a / 4 = k at hk
  interval_cases k <;> exact ⟨_, rfl⟩

/-- `target` finds a target for exactly the accesses R37 lets through. -/
theorem exists_target_iff_letThrough (addr : Addr) (width : Nat) : (∃ t, target addr width = some t) ↔ LetThrough addr.toNat width := by
  constructor
  · rintro ⟨t, ht⟩
    rcases target_cases ht with ⟨hw, h4, hc, -⟩ | ⟨hw, h4, hm, -⟩ | ⟨hw, hd, -⟩
    · exact .inl ⟨hw, (regionOf_eq_control_iff _).mp hc, h4⟩
    · exact .inr (.inl ⟨hw, h4, (wordMapped_iff_inWindow _).mp hm⟩)
    · exact .inr (.inr ⟨hw, (isDataWindow_iff_inWindow _).mp hd⟩)
  · rintro (⟨rfl, hc, h4⟩ | ⟨rfl, hm⟩ | ⟨rfl, hd⟩)
    · obtain ⟨r, hr⟩ := ctrlRegAt_isSome hc
      exact ⟨.reg r, by rw [target_control hc h4, hr]; rfl⟩
    · exact ⟨_, target_word hm⟩
    · exact ⟨_, target_byte hd⟩

/-! ### Rejected, served and refused accesses -/

section
variable {addr : Addr} {width : Nat} {s : State} {t : Target}

theorem busy_of_idle (hu : s.unit = .idle) : s.busy = false := by simp [State.busy, hu]

theorem hostRead_served (ht : target addr width = some t) (h : s.busy = false ∨ servedRead t = true) :
    hostRead addr width s = (s, .read (s.readTarget t) .ok) := by
  rcases h with h | h <;> simp [hostRead, ht, h]

theorem hostWrite_served (ht : target addr width = some t) (h : s.busy = false ∨ servedWrite t = true) (d : Word) :
    hostWrite addr width d s = (s.writeTarget d t, .write .ok) := by
  rcases h with h | h <;> simp [hostWrite, ht, h]

theorem readRefused_of_busy (hb : s.busy = true) (ht : target addr width = some t) (h : servedRead t = false) :
    ReadRefused addr width s := by
  simp [ReadRefused, hostRead, ht, hb, h, State.setOvr]

theorem writeRefused_of_busy (hb : s.busy = true) (ht : target addr width = some t) (h : servedWrite t = false) :
    WriteRefused addr width s := by
  simp [WriteRefused, hostWrite, ht, hb, h, State.setOvr]

/-- An access R37 does not let through gets ERR and leaves no trace, busy or not. -/
theorem portError_of_not_letThrough (h : ¬ LetThrough addr.toNat width) : PortError addr width s := by
  have ht : target addr width = none := by
    rw [← exists_target_iff_letThrough] at h
    exact Option.eq_none_iff_forall_ne_some.mpr fun t ht => h ⟨t, ht⟩
  simp [PortError, hostRead, hostWrite, ht]

theorem portServes_of_idle (hu : s.unit = .idle) (h : LetThrough addr.toNat width) : PortServes addr width s := by
  obtain ⟨t, ht⟩ := (exists_target_iff_letThrough addr width).mpr h
  have hb := busy_of_idle hu
  exact ⟨⟨_, congrArg Prod.snd (hostRead_served ht (.inl hb))⟩, fun d => congrArg Prod.snd (hostWrite_served ht (.inl hb) d)⟩

end

/-- Settles O45: an access is rejected exactly when it is not `LetThrough`, and clause by clause that is arithmetic on the ranges. -/
theorem portAddressRules : Obligations.PortAddressRules := by
  unfold Obligations.PortAddressRules
  refine ⟨fun a width s h8 h32 => ?width, fun a s hc => ?byteOfControl, fun a s h4 => ?misaligned, fun a width s hc hw => ?unmapped,
    fun a s hc hw => ?partlyMapped, fun a s hu hc h4 => ?control, fun a s hu hw => ?byte, fun a s hu hw => ?word⟩
  case width | byteOfControl | misaligned | unmapped | partlyMapped =>
    refine portError_of_not_letThrough ?_
    unfold LetThrough
    omega
  case control => exact portServes_of_idle hu (.inl ⟨rfl, hc, h4⟩)
  case byte => exact portServes_of_idle hu (.inr (.inr ⟨rfl, hw⟩))
  case word => exact portServes_of_idle hu (.inr (.inl ⟨rfl, hw⟩))

/-! ### The busy rule -/

/-- Settles O46: each access falls to its target, and `servedRead` and `servedWrite` decide. -/
theorem busyServesOnlyStatus : Obligations.BusyServesOnlyStatus := by
  intro s hb
  have refused {addr : Addr} {width : Nat} {t : Target} (ht : target addr width = some t) (hr : servedRead t = false)
      (hw : servedWrite t = false) : ReadRefused addr width s ∧ WriteRefused addr width s :=
    ⟨readRefused_of_busy hb ht hr, writeRefused_of_busy hb ht hw⟩
  refine ⟨?readsServed, fun d => ?writesServed, ?writesIgnored, writeRefused_of_busy hb (t := .reg .cmd) rfl rfl, ?configuration,
    fun a ha => refused (target_byte ha) rfl rfl, fun a ha => refused (target_word ha) rfl rfl, fun a width h => ?rejected⟩
  case readsServed =>
    have served : ∀ a ∈ [0x0000, 0x0004, 0x0008, 0x000C, 0x0024, 0x0028],
        (target (BitVec.ofNat 16 a) 32).map servedRead = some true := by decide
    intro a ha
    obtain ⟨t, ht, hs⟩ := Option.map_eq_some_iff.mp (served a ha)
    exact ⟨_, hostRead_served ht (.inr hs)⟩
  case writesServed =>
    rw [hostWrite_served (t := .reg .ctrl) rfl (.inr rfl), hostWrite_served (t := .reg .status) rfl (.inr rfl)]
    exact ⟨rfl, rfl⟩
  case writesIgnored =>
    simp only [List.forall_mem_cons, List.not_mem_nil, false_implies, implies_true, and_true]
    exact ⟨hostWrite_served (t := .reg .id) rfl (.inr rfl), hostWrite_served (t := .reg .ccnt) rfl (.inr rfl),
      hostWrite_served (t := .reg .cmdlog) rfl (.inr rfl)⟩
  case configuration =>
    have unserved : ∀ a ∈ [0x0010, 0x0014, 0x0018, 0x001C, 0x0020],
        (target (BitVec.ofNat 16 a) 32).map (fun t => (servedRead t, servedWrite t)) = some (false, false) := by decide
    intro a ha
    obtain ⟨t, ht, hs⟩ := Option.map_eq_some_iff.mp (unserved a ha)
    exact refused ht (congrArg Prod.fst hs) (congrArg Prod.snd hs)
  case rejected =>
    refine portError_of_not_letThrough ?_
    unfold LetThrough
    omega

/-! ### Data-window bytes -/

/-- The g window's sixteen addresses name different registers. -/
theorem gNum_inj {a b : Nat} (ha : regionOf a = some .generalRegs) (hb : regionOf b = some .generalRegs) (h : gNum a = gNum b) :
    a = b := by
  rw [regionOf_eq_g_iff] at ha hb
  have := congrArg BitVec.toNat h
  simp only [gNum, BitVec.toNat_ofNat] at this
  omega

/-- A byte read after a byte write, in the g window or in memory: the value written at its address, what was there elsewhere. -/
theorem memRead_memWrite {s : State} (hs : Memory.wf s.mem) (a : Nat) (v : Byte) (b : Nat) :
    (s.memWrite a v).memRead b = if a = b then v else s.memRead b := by
  unfold State.memRead State.memWrite
  by_cases ha : regionOf a = some .generalRegs <;> by_cases hb : regionOf b = some .generalRegs
  · rw [if_pos ha, if_pos hb, if_pos hb]
    by_cases hab : a = b
    · rw [if_pos hab, hab, reg_setReg_same]
    · rw [if_neg hab, reg_setReg_ne _ _ fun e => hab (gNum_inj ha hb e.symm)]
  · have hab : a ≠ b := by rintro rfl; exact hb ha
    rw [if_pos ha, if_neg hb, if_neg hb, if_neg hab, byte_setReg]
  · have hab : a ≠ b := by rintro rfl; exact ha hb
    rw [if_neg ha, if_pos hb, if_pos hb, if_neg hab, reg_setByte]
  · rw [if_neg ha, if_neg hb, if_neg hb, byte_setByte hs]

/-- A byte read after a word write: the word's own byte at each of its four addresses, what was there elsewhere. -/
theorem memRead_writeTarget_word {s : State} (hs : Memory.wf s.mem) (d : Word) (a b : Nat) :
    (s.writeTarget d (.word a)).memRead b =
      if a + 3 = b then d.extractLsb' 24 8 else if a + 2 = b then d.extractLsb' 16 8
      else if a + 1 = b then d.extractLsb' 8 8 else if a = b then d.extractLsb' 0 8 else s.memRead b := by
  have h0 := wf_memWrite hs a (d.extractLsb' 0 8)
  have h1 := wf_memWrite h0 (a + 1) (d.extractLsb' 8 8)
  have h2 := wf_memWrite h1 (a + 2) (d.extractLsb' 16 8)
  rw [State.writeTarget, memRead_memWrite h2, memRead_memWrite h1, memRead_memWrite h0, memRead_memWrite hs]

theorem writeTarget_word_eq (s : State) (d : Word) (a : Nat) : s.writeTarget d (.word a) =
    { s with g := (s.writeTarget d (.word a)).g, mem := (s.writeTarget d (.word a)).mem } := by
  rw [State.writeTarget]
  conv_lhs => rw [memWrite_eq]
  simp

/-- The lanes of four bytes put together, the first one highest. -/
theorem extractLsb'_append_bytes (b₃ b₂ b₁ b₀ : Byte) :
    (b₃ ++ b₂ ++ b₁ ++ b₀).extractLsb' 0 8 = b₀ ∧ (b₃ ++ b₂ ++ b₁ ++ b₀).extractLsb' 8 8 = b₁ ∧
    (b₃ ++ b₂ ++ b₁ ++ b₀).extractLsb' 16 8 = b₂ ∧ (b₃ ++ b₂ ++ b₁ ++ b₀).extractLsb' 24 8 = b₃ := by
  refine ⟨BitVec.extractLsb'_append_eq_right, ?_, ?_, ?_⟩
  · rw [BitVec.extractLsb'_append_eq_of_le (by decide), BitVec.extractLsb'_append_eq_right]
  · rw [BitVec.extractLsb'_append_eq_of_le (by decide), BitVec.extractLsb'_append_eq_of_le (by decide),
      BitVec.extractLsb'_append_eq_right]
  · rw [BitVec.extractLsb'_append_eq_of_le (by decide), BitVec.extractLsb'_append_eq_of_le (by decide),
      BitVec.extractLsb'_append_eq_left]

/-- Settles O47: the word read is the four bytes' concatenation, and a word write is four byte writes at different addresses. -/
theorem portIsLittleEndian : Obligations.PortIsLittleEndian := by
  refine ⟨fun a s hu hs hw => ⟨?read, fun d => ?write⟩, fun s hu => ?secretRow⟩
  case read => exact ⟨_, hostRead_served (target_word hw) (.inl (busy_of_idle hu)), extractLsb'_append_bytes ..⟩
  case write =>
    refine ⟨_, hostWrite_served (target_word hw) (.inl (busy_of_idle hu)) d, ?lane0, ?lane1, ?lane2, ?lane3,
      fun b _ hb => ?frame, writeTarget_word_eq s d a.toNat⟩
    case lane0 | lane1 | lane2 | lane3 => simp [memRead_writeTarget_word hs]
    case frame =>
      rw [memRead_writeTarget_word hs, if_neg (by omega), if_neg (by omega), if_neg (by omega), if_neg (by omega)]
  case secretRow => exact hostRead_served (t := .word 0x2000) rfl (.inl (busy_of_idle hu))

end Sys2Proof.Machine
end

section
/-! Proofs. The opcode map and the decoder side by side: a word with no row's opcode, and a word whose opcode has a row, decoded by the
one check of that row's reserved field; then what R53 asks of the words this leaves illegal. -/

namespace Sys2Proof.Machine

/-! ### Words with no row's opcode -/

theorem decode_of_no_row {w : Word} (h : ∀ r ∈ opcodeRows, opField w ≠ r.pattern.extractLsb' 24 8) :
    decode w = .error .reservedOpcode := by
  simp only [opcodeRows, List.cons_append, List.nil_append, List.forall_mem_cons, BitVec.reduceExtractLsb'] at h
  simp only [decode, h, if_false]

/-- No opcode of the map lies in a range R53 reserves. -/
theorem opcodeRows_not_reserved : ∀ r ∈ opcodeRows, let op := (r.pattern.extractLsb' 24 8).toNat
    ¬ ((0x09 ≤ op ∧ op ≤ 0x0F) ∨ (0x12 ≤ op ∧ op ≤ 0x1F) ∨ (0x24 ≤ op ∧ op ≤ 0x2F) ∨ 0x31 ≤ op) := by
  decide

/-! ### Words whose opcode has a row -/

/-- The mask over `op` and a reserved field of `len` bits from bit `lo` (R51). -/
def fieldMask (lo len : Nat) : Word := 0xFF000000#32 ||| (BitVec.allOnes len).setWidth 32 <<< lo

/-- Row `r` fixes its opcode and the `len` bits from `lo`, and the decoder asks of the words with that opcode only that those bits
are 0. -/
def RowReserves (r : OpRow) (lo len : Nat) : Prop :=
  r.pattern.extractLsb' 0 24 = 0#24 ∧ r.mask = fieldMask lo len ∧
  ∀ w : Word, opField w = r.pattern.extractLsb' 24 8 → ∃ i, decode w = ifReservedZero (w.extractLsb' lo len == 0#len) i

/-- Every row of the opcode map reserves one field, that of its format: bits 23:0 (N), 11:0 (R), 15:8 (I), 15:0 (U), 19:8 (L),
19:16 (M), 23:1 (X) (R49, R51). -/
theorem opcodeRows_rowReserves : ∀ r ∈ opcodeRows, ∃ lo len, RowReserves r lo len := by
  simp only [opcodeRows, List.cons_append, List.nil_append, List.forall_mem_cons]
  refine ⟨⟨0, 24, ?nop⟩, ⟨0, 12, ?gadd⟩, ⟨8, 8, ?gaddi⟩, ⟨0, 12, ?gmul⟩, ⟨8, 8, ?gmuli⟩, ⟨0, 16, ?ginv⟩, ⟨0, 12, ?gexp⟩,
    ⟨8, 8, ?gexpi⟩, ⟨8, 12, ?gli⟩, ⟨16, 4, ?gld⟩, ⟨16, 4, ?gst⟩, ⟨0, 24, ?derive⟩, ⟨1, 23, ?eval⟩, ⟨0, 24, ?recon⟩,
    ⟨0, 24, ?verify⟩, ⟨0, 24, ?zero⟩, by simp⟩
  all_goals exact ⟨by decide, by decide, fun w hop => ⟨_, by rw [decode, hop]; rfl⟩⟩

/-- A bit of a field that reads as another word's field is that word's bit. -/
theorem getLsbD_eq_of_extractLsb'_eq {w p : Word} {lo len i : Nat} (h : w.extractLsb' lo len = p.extractLsb' lo len)
    (hlo : lo ≤ i) (hlen : i < lo + len) : w.getLsbD i = p.getLsbD i := by
  have hbit := congrArg (BitVec.getLsbD · (i - lo)) h
  simpa [BitVec.getLsbD_extractLsb', Nat.sub_lt_left_of_lt_add hlo hlen, Nat.add_sub_cancel' hlo] using hbit

theorem getLsbD_of_extractLsb'_eq_zero {w : Word} {lo len i : Nat} (h : w.extractLsb' lo len = 0#len)
    (hlo : lo ≤ i) (hlen : i < lo + len) : w.getLsbD i = false := by
  rw [getLsbD_eq_of_extractLsb'_eq (p := 0#32) (h.trans (by simp)) hlo hlen, BitVec.getLsbD_zero]

theorem getLsbD_fieldMask_of_op {lo len i : Nat} (h24 : 24 ≤ i) (hi : i < 32) : (fieldMask lo len).getLsbD i = true := by
  interval_cases i <;> simp [fieldMask]

theorem getLsbD_fieldMask {lo len i : Nat} (h24 : i < 24) :
    (fieldMask lo len).getLsbD i = (decide (lo ≤ i) && decide (i < lo + len)) := by
  have hop : (0xFF000000#32).getLsbD i = false := by interval_cases i <;> rfl
  rw [fieldMask, BitVec.getLsbD_or, hop, Bool.eq_iff_iff]
  simp only [BitVec.getLsbD_shiftLeft, BitVec.getLsbD_setWidth, BitVec.getLsbD_allOnes, Bool.false_or,
    Bool.and_eq_true, Bool.not_eq_true', decide_eq_true_eq, decide_eq_false_iff_not]
  omega

/-- A word with the opcode of `p` and 0 in the field passes the mask over both. -/
theorem and_fieldMask_eq {w p : Word} {lo len : Nat} (hp : p.extractLsb' 0 24 = 0#24)
    (hop : w.extractLsb' 24 8 = p.extractLsb' 24 8) (hfield : w.extractLsb' lo len = 0#len) : w &&& fieldMask lo len = p := by
  apply BitVec.eq_of_getLsbD_eq
  intro i hi
  rw [BitVec.getLsbD_and]
  by_cases h24 : 24 ≤ i
  · rw [getLsbD_fieldMask_of_op h24 hi, getLsbD_eq_of_extractLsb'_eq hop h24 hi, Bool.and_true]
  · rw [getLsbD_fieldMask (by omega), getLsbD_of_extractLsb'_eq_zero hp (by omega) (by omega)]
    by_cases hin : lo ≤ i ∧ i < lo + len
    · obtain ⟨hlo, hlen⟩ := hin
      rw [getLsbD_of_extractLsb'_eq_zero hfield hlo hlen, Bool.false_and]
    · rw [← Bool.decide_and, decide_eq_false hin, Bool.and_false]

/-- A word with a row's opcode that the row does not accept has a nonzero reserved field (R52, R53). -/
theorem decode_of_not_accepted {r : OpRow} {lo len : Nat} (hr : RowReserves r lo len) {w : Word}
    (hop : opField w = r.pattern.extractLsb' 24 8) (hw : w &&& r.mask ≠ r.pattern) : decode w = .error .reservedField := by
  obtain ⟨hp, hmask, hdecode⟩ := hr
  obtain ⟨i, hi⟩ := hdecode w hop
  have hfield : w.extractLsb' lo len ≠ 0#len := fun h => hw (hmask ▸ and_fieldMask_eq hp hop h)
  simp [hi, ifReservedZero, hfield]

/-! ### The turn that runs an illegal word -/

theorem progress_illegal {s : State} {r : Running} {e : DecodeError} (hq : r.hashReq = none) (hd : decode r.word = .error e) :
    progress r s = raise .illegalCommand s := by
  simp [progress, hq, requestsOf_illegal hd, hd]

/-- Settles O5: no row has a reserved opcode; where a row has the opcode, its mask and the decoder's check are about one field; and an
illegal word makes no hash request, so its turn raises IllegalCommand. -/
theorem reservedWordsAreIllegal : Obligations.ReservedWordsAreIllegal := by
  refine ⟨?opcode, fun w r hr hop hw => ?field, fun s r e hrst hu hq hd => ?turn⟩
  case opcode => exact fun w hop => decode_of_no_row fun r hr e => opcodeRows_not_reserved r hr (e ▸ hop)
  case field =>
    obtain ⟨lo, len, hres⟩ := opcodeRows_rowReserves r hr
    exact decode_of_not_accepted hres hop hw
  case turn => rw [turn_exec hrst hu, progress_illegal hq hd]; rfl

end Sys2Proof.Machine
end

section
/-! Proofs. The field (40_field.md R58 to R63). Addition is exclusive-or and the product is additive in each factor, so a law of the product
holds for all bytes once it holds for the powers of x; the bytes under the product are then a monoid of Mathlib's, 0x03 has order 255 in
it, and its powers are all nonzero bytes: hence Fermat's little theorem, and the inverse. -/

namespace Sys2Proof.Machine

/-! ### The product is additive in each factor -/

/-- The row of the product of R59's first loop that bit `i` of `b` contributes. -/
def partialProduct (a b : Byte) (i : Nat) : BitVec 15 := if b.getLsbD i then a.setWidth 15 <<< i else 0#15

theorem clmul_eq_foldl_partialProduct (a b : Byte) :
    clmul a b = (List.range 8).foldl (fun p i => p ^^^ partialProduct a b i) 0#15 := by
  unfold clmul partialProduct
  congr 1
  funext p i
  split <;> simp

theorem partialProduct_xor_left (a a' b : Byte) (i : Nat) :
    partialProduct (a ^^^ a') b i = partialProduct a b i ^^^ partialProduct a' b i := by
  unfold partialProduct
  split <;> simp [BitVec.shiftLeft_xor_distrib]

theorem partialProduct_xor_right (a b b' : Byte) (i : Nat) :
    partialProduct a (b ^^^ b') i = partialProduct a b i ^^^ partialProduct a b' i := by
  unfold partialProduct
  cases hb : b.getLsbD i <;> cases hb' : b'.getLsbD i <;> simp [hb, hb']

/-- A loop that adds the sum of two sequences computes the sum of the two loops. -/
theorem foldl_xor_xor {n : Nat} (f g : Nat → BitVec n) (is : List Nat) (p q : BitVec n) :
    is.foldl (fun p i => p ^^^ (f i ^^^ g i)) (p ^^^ q) =
      is.foldl (fun p i => p ^^^ f i) p ^^^ is.foldl (fun q i => q ^^^ g i) q := by
  induction is generalizing p q with
  | nil => rfl
  | cons i is ih =>
    have regroup : p ^^^ q ^^^ (f i ^^^ g i) = (p ^^^ f i) ^^^ (q ^^^ g i) := by ac_rfl
    rw [List.foldl_cons, regroup, ih, List.foldl_cons, List.foldl_cons]

theorem clmul_xor_left (a a' b : Byte) : clmul (a ^^^ a') b = clmul a b ^^^ clmul a' b := by
  simp only [clmul_eq_foldl_partialProduct, partialProduct_xor_left, ← foldl_xor_xor, BitVec.xor_self]

theorem clmul_xor_right (a b b' : Byte) : clmul a (b ^^^ b') = clmul a b ^^^ clmul a b' := by
  simp only [clmul_eq_foldl_partialProduct, partialProduct_xor_right, ← foldl_xor_xor, BitVec.xor_self]

theorem reduceBit_xor (p q : BitVec 15) (i : Nat) : reduceBit (p ^^^ q) i = reduceBit p i ^^^ reduceBit q i := by
  unfold reduceBit
  generalize 0x11B#15 <<< (i - 8) = m
  have twice : (p ^^^ m) ^^^ (q ^^^ m) = p ^^^ q := by
    rw [show (p ^^^ m) ^^^ (q ^^^ m) = (p ^^^ q) ^^^ (m ^^^ m) by ac_rfl, BitVec.xor_self, BitVec.xor_zero]
  cases hp : p.getLsbD i <;> cases hq : q.getLsbD i <;> simp [hp, hq, twice]
  all_goals ac_rfl

theorem reduce_xor (p q : BitVec 15) : reduce (p ^^^ q) = reduce p ^^^ reduce q := by
  simp only [reduce, List.foldl_cons, List.foldl_nil, reduceBit_xor, BitVec.setWidth_xor]

/-- The function takes sums of bytes to sums. -/
abbrev XorAdditive (f : Byte → Byte) : Prop := ∀ a b, f (a ^^^ b) = f a ^^^ f b

/-- R63: the product distributes over addition, from the left. -/
theorem gmul_xor_left (b : Byte) : XorAdditive (gmul · b) := fun a a' => by
  simp only [gmul, clmul_xor_left, reduce_xor]

/-- R63: the product distributes over addition, from the right. -/
theorem gmul_xor_right (a : Byte) : XorAdditive (gmul a) := fun b b' => by
  simp only [gmul, clmul_xor_right, reduce_xor]

/-! ### Laws of the product, from the powers of x -/

/-- A byte is the sum of its bits' powers of x (R10). -/
theorem byte_eq_xor_bits (b : Byte) : b = (List.range 8).foldl (fun p i => p ^^^ (b &&& BitVec.twoPow 8 i)) 0#8 := by
  apply BitVec.eq_of_getLsbD_eq
  intro i hi
  interval_cases i <;> simp [List.range_succ, BitVec.getElem_twoPow]

section
variable {f g : Byte → Byte}

theorem XorAdditive.zero (hf : XorAdditive f) : f 0#8 = 0#8 := by
  have h := hf 0#8 0#8
  rwa [BitVec.xor_self, BitVec.xor_self] at h

theorem XorAdditive.comp (hf : XorAdditive f) (hg : XorAdditive g) : XorAdditive fun a => f (g a) := fun a b => by
  simp only [hg a b, hf (g a)]

/-- Two additive functions that agree on the powers of x agree. -/
theorem XorAdditive.eq_of_eq_on_twoPow (hf : XorAdditive f) (hg : XorAdditive g)
    (h : ∀ i < 8, f (BitVec.twoPow 8 i) = g (BitVec.twoPow 8 i)) (a : Byte) : f a = g a := by
  have zero : f 0#8 = g 0#8 := hf.zero.trans hg.zero.symm
  rw [byte_eq_xor_bits a]
  refine List.foldlRecOn (motive := fun b => f b = g b) _ _ zero fun b hb i hi => ?_
  rw [hf, hg, hb, BitVec.and_twoPow]
  split
  · rw [h i (List.mem_range.mp hi)]
  · rw [zero]

end

theorem gmul_comm (a b : Byte) : gmul a b = gmul b a := by
  have onBits : ∀ i < 8, ∀ j < 8, gmul (BitVec.twoPow 8 i) (BitVec.twoPow 8 j) = gmul (BitVec.twoPow 8 j) (BitVec.twoPow 8 i) := by
    decide
  refine XorAdditive.eq_of_eq_on_twoPow (gmul_xor_left b) (gmul_xor_right b) (fun i hi => ?_) a
  exact XorAdditive.eq_of_eq_on_twoPow (gmul_xor_right _) (gmul_xor_left _) (onBits i hi) b

theorem gmul_assoc (a b c : Byte) : gmul (gmul a b) c = gmul a (gmul b c) := by
  have onBits : ∀ i < 8, ∀ j < 8, ∀ k < 8, gmul (gmul (BitVec.twoPow 8 i) (BitVec.twoPow 8 j)) (BitVec.twoPow 8 k) =
      gmul (BitVec.twoPow 8 i) (gmul (BitVec.twoPow 8 j) (BitVec.twoPow 8 k)) := by decide +kernel
  refine XorAdditive.eq_of_eq_on_twoPow ((gmul_xor_left c).comp (gmul_xor_left b)) (gmul_xor_left (gmul b c)) (fun i hi => ?_) a
  refine XorAdditive.eq_of_eq_on_twoPow ((gmul_xor_left c).comp (gmul_xor_right _)) ((gmul_xor_right _).comp (gmul_xor_left c))
    (fun j hj => ?_) b
  exact XorAdditive.eq_of_eq_on_twoPow (gmul_xor_right _) ((gmul_xor_right _).comp (gmul_xor_right _)) (onBits i hi j hj) c

@[simp] theorem gmul_zero (a : Byte) : gmul a 0#8 = 0#8 := (gmul_xor_right a).zero

@[simp] theorem zero_gmul (a : Byte) : gmul 0#8 a = 0#8 := by rw [gmul_comm, gmul_zero]

@[simp] theorem gmul_one (a : Byte) : gmul a 1#8 = a :=
  (gmul_xor_left 1#8).eq_of_eq_on_twoPow (g := id) (fun _ _ => rfl) (by decide) a

@[simp] theorem one_gmul (a : Byte) : gmul 1#8 a = a := by rw [gmul_comm, gmul_one]

/-! ### Powers -/

/-- The bytes under the field product, with `gexp` as the power (R61). -/
abbrev gmulMonoid : Monoid Byte where
  mul := gmul
  mul_assoc := gmul_assoc
  one := 1#8
  one_mul := one_gmul
  mul_one := gmul_one
  npow e a := gexp a e
  npow_zero _ := rfl
  npow_succ _ _ := rfl

@[simp] theorem gexp_zero (a : Byte) : gexp a 0 = 1#8 := rfl

theorem gexp_succ (a : Byte) (e : Nat) : gexp a (e + 1) = gmul (gexp a e) a := rfl

theorem gexp_add (a : Byte) (d e : Nat) : gexp a (d + e) = gmul (gexp a d) (gexp a e) :=
  @pow_add Byte gmulMonoid a d e

theorem gexp_mul (a : Byte) (d e : Nat) : gexp a (d * e) = gexp (gexp a d) e :=
  @pow_mul Byte gmulMonoid a d e

@[simp] theorem one_gexp (e : Nat) : gexp 1#8 e = 1#8 :=
  @one_pow Byte gmulMonoid e

theorem zero_gexp {e : Nat} (h : e ≠ 0) : gexp 0#8 e = 0#8 := by
  obtain ⟨d, rfl⟩ := Nat.exists_eq_succ_of_ne_zero h
  rw [gexp_succ, gmul_zero]

/-! ### 0x03 generates the nonzero bytes -/

theorem gexp_generator_255 : gexp 3#8 255 = 1#8 := by
  rw [show 255 = 3 * 5 * 17 by rfl, gexp_mul, gexp_mul]
  decide +kernel

/-- R63: 0x03 has order 255 = 3 · 5 · 17, since its powers 85, 51 and 15 are not 0x01. -/
theorem orderOf_generator : @orderOf Byte gmulMonoid 3#8 = 255 := by
  refine @orderOf_eq_of_pow_and_pow_div_prime Byte gmulMonoid _ _ (by decide) gexp_generator_255 fun p hp hdvd => ?_
  rw [show 255 = 3 * 5 * 17 by rfl, hp.dvd_mul, hp.dvd_mul, Nat.prime_dvd_prime_iff_eq hp Nat.prime_three,
    Nat.prime_dvd_prime_iff_eq hp Nat.prime_five, Nat.prime_dvd_prime_iff_eq hp (by norm_num)] at hdvd
  rcases hdvd with (rfl | rfl) | rfl
  · show gexp 3#8 (5 * 17) ≠ 1#8
    rw [gexp_mul]; decide +kernel
  · show gexp 3#8 (3 * 17) ≠ 1#8
    rw [gexp_mul]; decide +kernel
  · show gexp 3#8 (3 * 5) ≠ 1#8
    rw [gexp_mul]; decide +kernel

theorem gexp_generator_ne_zero {e : Nat} (h : e < 255) : gexp 3#8 e ≠ 0#8 := by
  intro h0
  have split := gexp_add 3#8 e (255 - e)
  rw [Nat.add_sub_cancel' h.le, h0, zero_gmul, gexp_generator_255] at split
  exact absurd split (by decide)

theorem toNat_mem_Icc_of_ne_zero {a : Byte} (ha : a ≠ 0#8) : a.toNat ∈ Finset.Icc 1 255 := by
  rw [Finset.mem_Icc]
  bv_omega

/-- R63: every nonzero byte is a power of 0x03, since the first 255 of these are different nonzero bytes. -/
theorem exists_gexp_generator_eq {a : Byte} (ha : a ≠ 0#8) : ∃ e < 255, gexp 3#8 e = a := by
  have nonzero : Set.MapsTo (fun e => (gexp 3#8 e).toNat) (Finset.range 255) (Finset.Icc 1 255) := fun e he =>
    toNat_mem_Icc_of_ne_zero (gexp_generator_ne_zero (Finset.mem_range.mp he))
  have different : Set.InjOn (fun e => (gexp 3#8 e).toNat) (Finset.range 255) := by
    rw [Finset.coe_range, ← orderOf_generator]
    exact BitVec.toNat_injective.comp_injOn (@pow_injOn_Iio_orderOf Byte gmulMonoid 3#8)
  obtain ⟨e, he, h⟩ := Finset.surjOn_of_injOn_of_card_le _ nonzero different (by simp) (toNat_mem_Icc_of_ne_zero ha)
  exact ⟨e, Finset.mem_range.mp he, BitVec.eq_of_toNat_eq h⟩

/-! ### The inverse -/

theorem gexp_254 (a : Byte) : gexp a 254 = ginv a := rfl

/-- Fermat's little theorem, which R62's inverse rests on. -/
theorem gexp_255 {a : Byte} (ha : a ≠ 0#8) : gexp a 255 = 1#8 := by
  obtain ⟨e, -, rfl⟩ := exists_gexp_generator_eq ha
  rw [← gexp_mul, Nat.mul_comm, gexp_mul, gexp_generator_255, one_gexp]

theorem gmul_ginv {a : Byte} (ha : a ≠ 0#8) : gmul a (ginv a) = 1#8 := by
  rw [gmul_comm, ginv, ← gexp_succ, gexp_255 ha]

@[simp] theorem ginv_zero : ginv 0#8 = 0#8 := zero_gexp (by decide)

/-- A nonzero byte has no other inverse. -/
theorem ginv_eq_of_gmul_eq_one {a b : Byte} (h : gmul a b = 1#8) : ginv a = b := by
  have ha : a ≠ 0#8 := by rintro rfl; simp at h
  calc ginv a = gmul (ginv a) (gmul a b) := by rw [h, gmul_one]
    _ = gmul (gmul a (ginv a)) b := by rw [← gmul_assoc, gmul_comm (ginv a)]
    _ = b := by rw [gmul_ginv ha, one_gmul]

/-! ### GINV of a zero operand -/

theorem exec_ginv (rd rs1 : RegNum) (s : State) :
    exec (.ginv rd rs1) s = .next (((s.noteInverse (s.reg rs1)).setReg rd (ginv (s.reg rs1))).complete .success) := rfl

/-- Settles O14: `ginv` is the 254th power by definition, and one factor more makes the 255th, which is 0x01. -/
theorem inverseByFermat : Obligations.InverseByFermat := by
  refine ⟨fun a => (gexp_254 a).symm, fun _ => gmul_ginv, ginv_zero, fun rd rs1 s h => ⟨_, exec_ginv rd rs1 s, ?_⟩⟩
  simp [h]

end Sys2Proof.Machine
end

section
/-! Proofs. The scalar commands (40_field.md R64 to R71): one lemma for a command that writes a computed value back, one for an opcode whose
format reserves one field, and what follows of a command's corner cases and examples; then each command by these. -/

namespace Sys2Proof.Machine

/-! ### What the scalar commands share -/

section
variable {i : Instr} {rd : RegNum} {v : State → Byte} {s : State} {x : Byte}

/-- The whole effect of a command that only writes a register back (R12, R94). -/
theorem scalarEffect_of_writeBack (h : ∀ s, exec i s = writeBack rd (v s) s) : ScalarEffect i rd v := by
  intro s
  refine ⟨(s.setReg rd (v s)).complete .success, h s, by simp [Completed, ControlKept], by simp, fun r hr => ?others,
    fun a => ?bytes, by simp⟩
  case others => rw [reg_complete, reg_setReg_ne _ _ hr]
  case bytes => rw [byte_complete, byte_setReg]

/-- The value a scalar command writes in a state, and the INVZ it leaves there. -/
theorem ScalarEffect.writes_keeps_invz (h : ScalarEffect i rd v) (hx : v s = x) :
    ∃ t, exec i s = .next t ∧ t.reg rd = x ∧ t.invz = s.invz := by
  obtain ⟨t, ht, -, hrd, -, -, hz⟩ := h s
  exact ⟨t, ht, hrd.trans hx, hz⟩

theorem ScalarEffect.writes (h : ScalarEffect i rd v) (hx : v s = x) : ∃ t, exec i s = .next t ∧ t.reg rd = x := by
  obtain ⟨t, ht, hrd, -⟩ := h.writes_keeps_invz hx
  exact ⟨t, ht, hrd⟩

/-- An example whose word is a scalar command's holds if the command's value is the example's. -/
theorem ScalarEffect.exampleOf {w : Word} {pre : State → Prop} (h : ScalarEffect i rd v) (hw : decode w = .ok i)
    (hx : ∀ s, pre s → v s = x) : ExampleOf w pre rd x := by
  refine ⟨i, hw, fun s hs => ?_⟩
  obtain ⟨t, ht, ⟨herr, -⟩, hrd, -⟩ := h s
  exact ⟨t, ht, herr, hrd.trans (hx s hs)⟩

end

/-- The words of an opcode that the decoder sends to a format reserving `len` bits from bit `lo` (R49, R52). -/
theorem opcodeRule_of_decode {op : Byte} {lo len : Nat} {i : Word → Instr}
    (h : ∀ w, opField w = op → decode w = ifReservedZero (w.extractLsb' lo len == 0#len) (i w)) :
    OpcodeRule op (fun w => w.extractLsb' lo len = 0#len) i := by
  intro w hop
  rw [h w hop, ifReservedZero]
  exact ⟨fun h0 => if_pos (beq_iff_eq.mpr h0), fun h0 => if_neg (mt beq_iff_eq.mp h0)⟩

/-! ### GADD and GADDI -/

theorem gadd_scalarEffect (rd rs1 rs2 : RegNum) : ScalarEffect (.gadd rd rs1 rs2) rd fun s => s.reg rs1 ^^^ s.reg rs2 :=
  scalarEffect_of_writeBack fun _ => rfl

/-- Settles O16: GADD writes back, its opcode's words go to format R, and a byte added to itself is 0. -/
theorem gaddAddsRegisters : Obligations.GaddAddsRegisters := by
  refine ⟨gadd_scalarEffect, opcodeRule_of_decode fun w hop => ?decode, fun rd rs s => ?sameSource, ?ex⟩
  case decode => rw [decode, hop]; rfl
  case sameSource => exact (gadd_scalarEffect rd rs rs).writes BitVec.xor_self
  case ex =>
    refine (gadd_scalarEffect 1 2 3).exampleOf (by decide) ?_
    rintro s ⟨h2, h3⟩
    rw [h2, h3]; rfl

theorem gaddi_scalarEffect (rd rs1 : RegNum) (imm : Byte) : ScalarEffect (.gaddi rd rs1 imm) rd fun s => s.reg rs1 ^^^ imm :=
  scalarEffect_of_writeBack fun _ => rfl

/-- Settles O17: GADDI writes back, and its opcode's words go to format I. -/
theorem gaddiAddsImmediate : Obligations.GaddiAddsImmediate := by
  refine ⟨gaddi_scalarEffect, opcodeRule_of_decode fun w hop => ?decode, fun rd rs1 s => ?zero, ?ex⟩
  case decode => rw [decode, hop]; rfl
  case zero => exact (gaddi_scalarEffect rd rs1 0).writes BitVec.xor_zero
  case ex =>
    refine (gaddi_scalarEffect 4 5 0x1B).exampleOf (by decide) fun s h5 => ?_
    rw [h5]; rfl

/-! ### GMULI -/

theorem gmuli_scalarEffect (rd rs1 : RegNum) (imm : Byte) : ScalarEffect (.gmuli rd rs1 imm) rd fun s => gmul (s.reg rs1) imm :=
  scalarEffect_of_writeBack fun _ => rfl

/-- Settles O19: GMULI writes back, and 0x00 and 0x01 are the product's zero and unit. -/
theorem gmuliMultipliesByImmediate : Obligations.GmuliMultipliesByImmediate := by
  refine ⟨gmuli_scalarEffect, opcodeRule_of_decode fun w hop => ?decode, fun rd rs1 s => ?zero, fun rd rs1 s => ?one, ?ex⟩
  case decode => rw [decode, hop]; rfl
  case zero => exact (gmuli_scalarEffect rd rs1 0).writes (gmul_zero _)
  case one => exact (gmuli_scalarEffect rd rs1 1).writes (gmul_one _)
  case ex =>
    refine (gmuli_scalarEffect 2 1 0x13).exampleOf (by decide) fun s h1 => ?_
    rw [h1]; decide

/-! ### GEXP and GEXPI -/

theorem gexp_scalarEffect (rd rs1 rs2 : RegNum) :
    ScalarEffect (.gexp rd rs1 rs2) rd fun s => gexp (s.reg rs1) (s.reg rs2).toNat :=
  scalarEffect_of_writeBack fun _ => rfl

/-- Settles O21: the corner cases are `gexp`'s at the exponents 0, 254 and 255 and at the base 0x00. -/
theorem gexpRaisesToRegister : Obligations.GexpRaisesToRegister := by
  refine ⟨gexp_scalarEffect, opcodeRule_of_decode fun w hop => ?decode, fun rd rs1 rs2 s h2 => ?exponentZero,
    fun rd rs1 rs2 s h1 h2 => ?baseZero, fun rd rs1 rs2 s h2 => ?inverse, fun rd rs1 rs2 s h1 h2 => ?order,
    by decide +kernel, gexp_generator_255, ?ex⟩
  case decode => rw [decode, hop]; rfl
  case ex =>
    refine (gexp_scalarEffect 3 1 2).exampleOf (by decide) ?_
    rintro s ⟨h1, h2⟩
    rw [h1, h2]; decide +kernel
  all_goals refine (gexp_scalarEffect rd rs1 rs2).writes ?_
  case exponentZero => rw [h2]; exact gexp_zero _
  case baseZero => rw [h1]; exact zero_gexp (BitVec.toNat_ne.mp h2)
  case inverse => rw [h2]; exact gexp_254 _
  case order => rw [h2]; exact gexp_255 h1

theorem gexpi_scalarEffect (rd rs1 : RegNum) (imm : Byte) :
    ScalarEffect (.gexpi rd rs1 imm) rd fun s => gexp (s.reg rs1) imm.toNat :=
  scalarEffect_of_writeBack fun _ => rfl

/-- Settles O22: the corner cases of GEXP, INVZ kept throughout; the example's inverse is the byte that gives 0x01 with 0x53. -/
theorem gexpiRaisesToImmediate : Obligations.GexpiRaisesToImmediate := by
  refine ⟨gexpi_scalarEffect, opcodeRule_of_decode fun w hop => ?decode, fun rd rs1 s => ?exponentZero,
    fun rd rs1 imm s h1 himm => ?baseZero, fun rd rs1 s => ?inverse, fun rd rs1 s h1 => ?order, ?ex⟩
  case decode => rw [decode, hop]; rfl
  case exponentZero => exact (gexpi_scalarEffect rd rs1 0).writes (gexp_zero _)
  case baseZero =>
    refine (gexpi_scalarEffect rd rs1 imm).writes ?_
    rw [h1]; exact zero_gexp (BitVec.toNat_ne.mp himm)
  case inverse => exact (gexpi_scalarEffect rd rs1 254).writes_keeps_invz (gexp_254 _)
  case order => exact (gexpi_scalarEffect rd rs1 255).writes (gexp_255 h1)
  case ex =>
    refine (gexpi_scalarEffect 2 1 254).exampleOf (by decide) fun s h1 => ?_
    rw [h1]; exact ginv_eq_of_gmul_eq_one (by decide)

/-! ### GLI -/

theorem gli_scalarEffect (rd : RegNum) (imm : Byte) : ScalarEffect (.gli rd imm) rd fun _ => imm :=
  scalarEffect_of_writeBack fun _ => rfl

/-- Settles O23: GLI writes back, and its opcode's words go to format L. -/
theorem gliLoadsImmediate : Obligations.GliLoadsImmediate := by
  refine ⟨gli_scalarEffect, opcodeRule_of_decode fun w hop => ?decode, ?ex⟩
  case decode => rw [decode, hop]; rfl
  case ex => exact (gli_scalarEffect 7 0x53).exampleOf (by decide) fun _ _ => rfl

end Sys2Proof.Machine
end

section
/-! Proofs. Data movement (41_data_movement.md R72 to R74): the address check as R72 writes it, GLD as a scalar command whose value is the
data-window byte, GST as one data-window write; and the g window's addresses, where that byte is a register. -/

namespace Sys2Proof.Machine

/-! ### The two moves outside and inside the data windows -/

theorem addressError_eq (a : Addr) : addressError a = if InWindow a.toNat then none else some .badAddress := by
  simp only [addressError, isDataWindow_iff_inWindow]

section
variable {a : Addr}

theorem gld_failsWith_badAddress (h : ¬ InWindow a.toNat) (rd : RegNum) (s : State) : FailsWith (.gld rd a) s .badAddress := by
  rw [FailsWith, exec, execGld, addressError_eq, if_neg h]; rfl

theorem gst_failsWith_badAddress (h : ¬ InWindow a.toNat) (rt : RegNum) (s : State) : FailsWith (.gst rt a) s .badAddress := by
  rw [FailsWith, exec, execGst, addressError_eq, if_neg h]; rfl

theorem gld_scalarEffect (h : InWindow a.toNat) (rd : RegNum) : ScalarEffect (.gld rd a) rd fun s => s.memRead a.toNat := by
  refine scalarEffect_of_writeBack fun s => ?_
  rw [exec, execGld, addressError_eq, if_pos h, checked_none]

theorem exec_gst_inWindow (h : InWindow a.toNat) (rt : RegNum) (s : State) :
    exec (.gst rt a) s = .next ((s.memWrite a.toNat (s.reg rt)).complete .success) := by
  rw [exec, execGst, addressError_eq, if_pos h]; rfl

end

/-- Settles O24: the check of both moves is R72's list of windows, and neither has another. -/
theorem movesDemandDataWindow : Obligations.MovesDemandDataWindow := by
  refine fun r a s => ⟨fun h => ⟨gld_failsWith_badAddress h r s, gst_failsWith_badAddress h r s⟩, fun h => ⟨?gld, ?gst⟩⟩
  case gld =>
    obtain ⟨t, ht, ⟨herr, -⟩, -⟩ := gld_scalarEffect h r s
    exact ⟨t, ht, herr⟩
  case gst => exact ⟨_, exec_gst_inWindow h r s, complete_err ..⟩

/-! ### The g window -/

/-- `g[i]` is at 0x0100 + i, and an address operand holds that sum whole (R33). -/
theorem toNat_gWindowAddr (i : RegNum) : (0x0100 + i.setWidth 16 : Addr).toNat = 0x0100 + i.toNat := by
  bv_omega

theorem inWindow_g (i : RegNum) : InWindow (0x0100 + i.toNat) := by
  have := i.isLt
  omega

theorem regionOf_g (i : RegNum) : regionOf (0x0100 + i.toNat) = some .generalRegs := by
  have := i.isLt
  rw [regionOf_eq_g_iff]; omega

theorem gNum_g (i : RegNum) : gNum (0x0100 + i.toNat) = i := by simp [gNum]

theorem memRead_g (s : State) (i : RegNum) : s.memRead (0x0100 + i.toNat) = s.reg i := by
  rw [State.memRead, if_pos (regionOf_g i), gNum_g]

theorem memWrite_g (s : State) (i : RegNum) (v : Byte) : s.memWrite (0x0100 + i.toNat) v = s.setReg i v := by
  rw [State.memWrite, if_pos (regionOf_g i), gNum_g]

/-! ### What one data-window write leaves unchanged -/

theorem reg_memWrite_ne (s : State) {a : Nat} {i : RegNum} (v : Byte) (h : a ≠ 0x0100 + i.toNat) :
    (s.memWrite a v).reg i = s.reg i := by
  rw [State.memWrite]
  split
  case isTrue ha =>
    refine reg_setReg_ne _ _ fun hi => h (gNum_inj ha (regionOf_g i) ?_)
    rw [gNum_g, hi]
  case isFalse => exact reg_setByte ..

theorem byte_memWrite_ne {s : State} (hs : Memory.wf s.mem) {a b : Nat} (v : Byte) (h : b ≠ a) :
    (s.memWrite a v).byte b = s.byte b := by
  rw [State.memWrite]
  split
  · exact byte_setReg ..
  · rw [byte_setByte hs, if_neg h.symm]

/-! ### GLD -/

/-- Settles O25: GLD writes the addressed byte back, which is `g[i]` at 0x0100 + i and `C[0][0]` at 0x2000. -/
theorem gldLoadsByte : Obligations.GldLoadsByte := by
  refine ⟨fun rd a s h => gld_scalarEffect h rd s, fun rd a s h => gld_failsWith_badAddress h rd s,
    opcodeRule_of_decode fun w hop => ?decode, fun rd i s => ?gWindow, gld_failsWith_badAddress (by decide),
    fun _ _ _ => ⟨rfl, rfl, rfl, rfl, rfl, rfl⟩, ?ex⟩
  case decode => rw [decode, hop]; rfl
  case gWindow =>
    have ha := toNat_gWindowAddr i
    exact (gld_scalarEffect (ha ▸ inWindow_g i) rd).writes (ha ▸ memRead_g s i)
  case ex => exact (gld_scalarEffect (a := 0x2000) (by decide) 3).exampleOf (by decide) fun _ h => h

/-! ### GST -/

/-- Settles O26: GST makes one data-window write of the register read before it, which is one to `g[i]` at 0x0100 + i. -/
theorem gstStoresByte : Obligations.GstStoresByte := by
  refine ⟨fun rt a s hs h => ⟨_, exec_gst_inWindow h rt s, ?completed, ?written, fun b _ hb => ?others, memWrite_invz ..,
      fun b hb => byte_memWrite_ne hs _ hb, fun i hi => reg_memWrite_ne s _ hi⟩,
    fun rt a s h => gst_failsWith_badAddress h rt s, opcodeRule_of_decode fun w hop => ?decode, fun rt i s => ?gWindow,
    gst_failsWith_badAddress (by decide), .gst 4 0x4021, by decide, fun s hs h4 => ?ex⟩
  case completed => simp [Completed, ControlKept]
  case written => exact (memRead_memWrite hs ..).trans (if_pos rfl)
  case others => exact (memRead_memWrite hs ..).trans (if_neg hb.symm)
  case decode => rw [decode, hop]; rfl
  case gWindow =>
    have ha := toNat_gWindowAddr i
    refine ⟨_, exec_gst_inWindow (ha ▸ inWindow_g i) rt s, ?_⟩
    rw [ha, memWrite_g, reg_complete, reg_setReg_same]
  case ex =>
    refine ⟨_, exec_gst_inWindow (by decide) 4 s, complete_err .., ?_⟩
    have hset : s.memWrite (0x4021 : Addr).toNat 0x11 = s.setByte (yAddr 1 1) 0x11 := rfl
    rw [h4, hset, byte_complete, byte_setByte hs, if_pos rfl]

end Sys2Proof.Machine
end

section
/-! Proofs. The sharing checks (42_coefficient.md R77): each of DERIVE, EVAL and VERIFY stops at a failing one with InvalidSize, and by
passing ones is left with its own index checks and its own work, none of which reports InvalidSize. -/

namespace Sys2Proof.Machine

open Host

section
variable {s t : State}

/-! ### A configuration the checks refuse -/

section
variable (h : ¬ SharingLegal s)
include h

theorem sharingError_of_not_legal : sharingError s = some .invalidSize := by rw [sharingError_eq, if_neg h]

theorem derive_failsWith_invalidSize : FailsWith .derive s .invalidSize := by
  rw [FailsWith, exec, execDerive, sharingError_of_not_legal h]; rfl

theorem eval_failsWith_invalidSize (xs : Bool) : FailsWith (.eval xs) s .invalidSize := by
  rw [FailsWith, exec, execEval, sharingError_of_not_legal h]; rfl

theorem verify_failsWith_invalidSize : FailsWith .verify s .invalidSize := by
  rw [FailsWith, exec, execVerify, sharingError_of_not_legal h]; rfl

theorem requestsOf_of_not_legal (w : Word) : requestsOf w s = 0 := by
  by_cases hd : decode w = .ok .derive
  · simp [requestsOf, hd, sharingError_of_not_legal h]
  · exact requestsOf_other hd

end

/-! ### A configuration the checks let through -/

section
variable (h : SharingLegal s)
include h

theorem sharingError_of_legal : sharingError s = none := by rw [sharingError_eq, if_pos h]

theorem exec_derive_of_legal : exec .derive s = succeed (deriveRows s (s.numT - 1) 1 s) := by
  rw [exec, execDerive, sharingError_of_legal h, checked_none]

theorem exec_eval_of_legal (xs : Bool) :
    exec (.eval xs) s = checked (evalIndexError xs s) s (succeed (evalSlots xs s.numN s)) := by
  rw [exec, execEval, sharingError_of_legal h, firstError_none]

theorem exec_verify_of_legal :
    exec .verify s = checked (indexError s s.numT) s (compareSecret (lagrangeCombine s.numT s)) := by
  rw [exec, execVerify, sharingError_of_legal h, firstError_none]

end

/-! ### The codes that are left -/

theorem err_of_succeed (h : succeed s = .next t) : t.err = .success := by
  cases h; rfl

/-- The comparison reports success or InternalFailure (R83). -/
theorem err_of_compareSecret (h : compareSecret s = .next t) : t.err = .success ∨ t.err = .internalFailure := by
  rw [compareSecret] at h
  split at h
  · exact .inl (err_of_succeed h)
  · cases h; exact .inr rfl

/-- A checked command ends with the check's code, or as the work behind the check ends. -/
theorem checked_cases {e : Option ErrCode} {o : Outcome State Fault Refusal} (h : checked e s o = .next t) :
    e = some t.err ∨ o = .next t := by
  cases e with
  | none => exact .inr h
  | some c => cases h; exact .inl rfl

theorem evalIndexError_ne_invalidSize (xs : Bool) (s : State) : evalIndexError xs s ≠ some .invalidSize := by
  rw [evalIndexError]
  split <;> simp

theorem indexError_ne_invalidSize (s : State) (n : Nat) : indexError s n ≠ some .invalidSize := by
  rw [indexError]
  split_ifs <;> simp

section
variable (h : SharingLegal s)
include h

theorem derive_err_ne_invalidSize (ht : exec .derive s = .next t) : t.err ≠ .invalidSize := by
  rw [exec_derive_of_legal h] at ht
  rw [err_of_succeed ht]; decide

theorem eval_err_ne_invalidSize {xs : Bool} (ht : exec (.eval xs) s = .next t) : t.err ≠ .invalidSize := by
  rw [exec_eval_of_legal h] at ht
  rcases checked_cases ht with hcheck | hwork
  · exact fun hsize => evalIndexError_ne_invalidSize xs s (hsize ▸ hcheck)
  · rw [err_of_succeed hwork]; decide

theorem verify_err_ne_invalidSize (ht : exec .verify s = .next t) : t.err ≠ .invalidSize := by
  rw [exec_verify_of_legal h] at ht
  rcases checked_cases ht with hcheck | hwork
  · exact fun hsize => indexError_ne_invalidSize s s.numT (hsize ▸ hcheck)
  · rcases err_of_compareSecret hwork with hcode | hcode <;> rw [hcode] <;> decide

end

end

/-- Settles O29: the sharing checks stand before every other check and before the requests, and only they report InvalidSize. -/
theorem sharingChecksComeFirst : Obligations.SharingChecksComeFirst := by
  refine ⟨fun s h => ⟨derive_failsWith_invalidSize h, eval_failsWith_invalidSize h, verify_failsWith_invalidSize h,
    requestsOf_of_not_legal h⟩, fun s t h i hi ht => ?_⟩
  simp only [List.mem_cons, List.not_mem_nil, or_false] at hi
  rcases hi with rfl | rfl | rfl | rfl
  · exact derive_err_ne_invalidSize h ht
  · exact eval_err_ne_invalidSize h ht
  · exact eval_err_ne_invalidSize h ht
  · exact verify_err_ne_invalidSize h ht

end Sys2Proof.Machine
end

section
/-! Proofs. The lane's polynomial (43_sharing.md R81). Horner's loop from an accumulator `acc` is `acc · x^n` plus the sum of the n rows
below it: each turn moves one row's coefficient from the sum into the accumulator, by the field's laws. -/

namespace Sys2Proof.Machine

/-- `Σ⊕` one term longer (R11): its loop starts from the last term, which passes every later addition. -/
theorem xorSum_succ (n : Nat) (f : Nat → Byte) : xorSum (n + 1) f = f n ^^^ xorSum n f := by
  rw [xorSum, List.range_succ, List.foldr_append, List.foldr_cons, List.foldr_nil, xorSum]
  exact List.foldr_hom (f n ^^^ ·) fun i acc => by ac_rfl

/-- R81: Horner's rule over n rows raises what it starts from by x^n and adds the rows' polynomial. -/
theorem horner_eq (c : Nat → Byte) (x : Byte) (n : Nat) (acc : Byte) :
    horner c x n acc = gmul acc (gexp x n) ^^^ xorSum n fun j => gmul (c j) (gexp x j) := by
  induction n generalizing acc with
  | zero => rw [horner, gexp_zero, gmul_one, xorSum, List.range_zero, List.foldr_nil, BitVec.xor_zero]
  | succ n ih =>
    have distributes : gmul (gmul acc x ^^^ c n) (gexp x n) = gmul (gmul acc x) (gexp x n) ^^^ gmul (c n) (gexp x n) :=
      gmul_xor_left (gexp x n) (gmul acc x) (c n)
    have power : gmul (gmul acc x) (gexp x n) = gmul acc (gexp x (n + 1)) := by
      rw [gmul_assoc, gmul_comm x, ← gexp_succ]
    rw [horner, ih, gadd, distributes, power, xorSum_succ, BitVec.xor_assoc]

/-- Settles O33: the unit's loop starts from 0x00, which `horner_eq` leaves out of the sum. -/
theorem hornerIsLanePolynomial : Obligations.HornerIsLanePolynomial := by
  intro s k x
  rw [State.evalLane, horner_eq, zero_gmul, BitVec.zero_xor, lanePolynomial]

end Sys2Proof.Machine
end

section
/-! Proofs. RECON's checks (44_recovery.md R84): which error the index checks and the recovery checks report, group by group, and that
RECON stops at the first one reported; NOTHRESH is read from the copy that acceptance takes (R111). -/

namespace Sys2Proof.Machine

section
variable {s : State}

/-! ### The index checks, which VERIFY makes too -/

theorem indexError_of_zeroIndex {n : Nat} (h : ¬ IndicesNonzero s n) : indexError s n = some .invalidShareIndex := by
  rw [← hasZero_iff, Bool.not_eq_false] at h
  rw [indexError, if_pos h]

theorem indexError_of_equalIndices {n : Nat} (hnz : IndicesNonzero s n) (h : ¬ IndicesDistinct s n) :
    indexError s n = some .duplicateShareIndex := by
  rw [← hasZero_iff, ← Bool.not_eq_true] at hnz
  rw [← hasEqual_indices_iff, Bool.not_eq_false] at h
  rw [indexError, if_neg hnz, if_pos h]

/-! ### The length, then the threshold -/

theorem recoveryError_of_length (h : s.numB ∉ [16, 20, 24, 28, 32]) : recoveryError s = some .invalidSize := by
  rw [← lengthAllowed_iff, Bool.not_eq_true] at h
  rw [recoveryError, h]; rfl

section
variable (hB : s.numB ∈ [16, 20, 24, 28, 32]) (hthresh : s.commandNothresh = false)
include hB hthresh

/-- Past the length check and with NOTHRESH clear, the threshold checks are what is left (R84). -/
theorem recoveryError_of_thresholdChecked :
    recoveryError s =
      if s.numT = 0 then some .invalidSize else if s.numK < s.numT then some .insufficientShares else none := by
  rw [recoveryError, (lengthAllowed_iff s).mpr hB, hthresh]; rfl

theorem recoveryError_of_thresholdZero (hT : s.numT = 0) : recoveryError s = some .invalidSize := by
  rw [recoveryError_of_thresholdChecked hB hthresh, if_pos hT]

theorem recoveryError_of_tooFewShares (hT : s.numT ≠ 0) (hK : s.numK < s.numT) :
    recoveryError s = some .insufficientShares := by
  rw [recoveryError_of_thresholdChecked hB hthresh, if_neg hT, if_pos hK]

end

/-! ### RECON stops at the first failing check -/

theorem recon_failsWith_indexError {c : ErrCode} (h : indexError s s.numK = some c) : FailsWith .recon s c := by
  rw [FailsWith, exec, execRecon, h]; rfl

section
variable (hnz : IndicesNonzero s s.numK) (hd : IndicesDistinct s s.numK)
include hnz hd

/-- With the index checks passed, RECON is its recovery checks and then the combination (R84, R86). -/
theorem exec_recon_of_indices :
    exec .recon s = checked (recoveryError s) s (succeed (lagrangeCombine s.numK s)) := by
  rw [exec, execRecon, (indexError_eq_none_iff ..).mpr ⟨hnz, hd⟩, firstError_none]

theorem recon_failsWith_recoveryError {c : ErrCode} (h : recoveryError s = some c) : FailsWith .recon s c := by
  rw [FailsWith, exec_recon_of_indices hnz hd, h]; rfl

theorem exec_recon_of_legal (h : RecoveryLegal s) : exec .recon s = succeed (lagrangeCombine s.numK s) := by
  rw [exec_recon_of_indices hnz hd, (recoveryError_eq_none_iff s).mpr h, checked_none]

end

/-- A command reads NOTHRESH as it stood when the command was accepted (R111). -/
theorem commandNothresh_accept (s : State) (w : Word) : (s.accept w).commandNothresh = s.nothresh := by
  rw [State.commandNothresh, accept_unit]

end

/-- Settles O38: an index error stops RECON before its recovery checks, and the first of those to fail stops it before the combination. -/
theorem reconChecksInOrder : Obligations.ReconChecksInOrder := by
  refine ⟨fun s hzero => ?zeroIndex, fun s hnz hequal => ?equalIndices, fun s hnz hd hB => ?length,
    fun s hnz hd hB hthresh => ⟨fun hT => ?thresholdZero, fun hT hK => ?tooFewShares⟩,
    fun s hnz hd hlegal => ⟨_, exec_recon_of_legal hnz hd hlegal, complete_err ..⟩, commandNothresh_accept⟩
  case zeroIndex => exact recon_failsWith_indexError (indexError_of_zeroIndex hzero)
  case equalIndices => exact recon_failsWith_indexError (indexError_of_equalIndices hnz hequal)
  case length => exact recon_failsWith_recoveryError hnz hd (recoveryError_of_length hB)
  case thresholdZero => exact recon_failsWith_recoveryError hnz hd (recoveryError_of_thresholdZero hB hthresh hT)
  case tooFewShares => exact recon_failsWith_recoveryError hnz hd (recoveryError_of_tooFewShares hB hthresh hT hK)

end Sys2Proof.Machine
end

section
/-! Proofs. NOP (45_control.md R90): it succeeds in the state it starts from, so completion is all it does. -/

namespace Sys2Proof.Machine

/-- NOP makes no write before it completes with code 0 (R90, R94). -/
theorem exec_nop_eq_complete (s : State) : exec .nop s = .next (s.complete .success) := rfl

/-- Settles O27: NOP is completion alone, so what it leaves after acceptance is acceptance's CCNT; its opcode's words go to format N. -/
theorem nopOnlyCounts : Obligations.NopOnlyCounts := by
  refine ⟨fun s => ⟨_, exec_nop_eq_complete s, rfl⟩, opcodeRule_of_decode fun w hop => ?decode,
    fun s => ⟨_, exec_nop_eq_complete (s.accept 0), complete_err .., complete_done .., ?count⟩⟩
  case decode => rw [decode, hop]; rfl
  case count => rw [complete_ccnt, accept_ccnt]

end Sys2Proof.Machine
end

section
/-! Proofs. The combination VERIFY and RECON share (44_recovery.md R85): its loops are the sums and products of R85's formulas, by the
field's laws; it writes L, reads L back with X and Y as they were, and writes R. -/

namespace Sys2Proof.Machine

/-! ### R85's loops are its formulas -/

/-- A loop that multiplies its terms in, one after the other, ends with what it starts from times their product. -/
theorem foldl_gmul_eq (f : Nat → Byte) (is : List Nat) (a : Byte) :
    is.foldl (fun l i => gmul l (f i)) a = gmul a (fieldProduct is f) := by
  induction is generalizing a with
  | nil => exact (gmul_one a).symm
  | cons i is ih => rw [List.foldl_cons, ih, gmul_assoc]; rfl

theorem foldl_gadd_eq (n : Nat) (f : Nat → Byte) :
    (List.range n).foldl (fun acc i => gadd acc (f i)) 0x00#8 = xorSum n f := by
  induction n with
  | zero => rfl
  | succ n ih => rw [List.range_succ, List.foldl_append, ih, xorSum_succ]; exact BitVec.xor_comm ..

/-- The unit's basis value is the product over the other slots, which its loop passes over slot `i` to form (R85). -/
theorem basisValue_eq (s : State) (n i : Nat) : basisValue (fun m => s.byte (xAddr m)) n i = lagrangeWeight s n i := by
  rw [lagrangeWeight, ← one_gmul (fieldProduct _ _), ← foldl_gmul_eq, List.foldl_filter, basisValue]
  congr 1
  funext l m
  by_cases hm : m = i <;> simp [hm, basisFactor, gadd]

/-! ### Consecutive bytes, and a row's padding -/

section
variable {s : State} (hs : Memory.wf s.mem) {vs : List Byte}
include hs

theorem byte_setBytes_inside (a : Nat) {k : Nat} (hk : k < vs.length) : (s.setBytes a vs).byte (a + k) = vs[k] := by
  have hin : a ≤ a + k ∧ a + k - a < vs.length := by omega
  rw [byte_setBytes hs, dif_pos hin]
  simp

theorem byte_setBytes_outside {a b : Nat} (hb : ¬ (a ≤ b ∧ b < a + vs.length)) : (s.setBytes a vs).byte b = s.byte b := by
  rw [byte_setBytes hs, dif_neg (by omega)]

end

theorem getElem_padRow_lane {bs : List Byte} {k : Nat} (h : k < (padRow bs).length) (hk : k < bs.length) :
    (padRow bs)[k] = bs[k] := List.getElem_append_left hk

theorem getElem_padRow_padding {bs : List Byte} {k : Nat} (h : k < (padRow bs).length) (hk : bs.length ≤ k) :
    (padRow bs)[k] = 0x00#8 := by
  simp [padRow, List.getElem_append_right hk]

/-! ### The two writes -/

/-- L written, R not yet: the state the combination's second half reads (R85). -/
def State.withBasis (s : State) (n : Nat) : State := s.setBytes (lAddr 0) (s.basis n)

/-- The row the combination writes to R, from a state with L written (R85). -/
def State.combinedRow (s : State) (n : Nat) : List Byte := padRow ((List.range s.numB).map (s.combineLane n))

theorem lagrangeCombine_eq_setBytes (n : Nat) (s : State) :
    lagrangeCombine n s = (s.withBasis n).setBytes (rAddr 0) ((s.withBasis n).combinedRow n) := by
  rw [lagrangeCombine, State.combinedRow, State.withBasis, State.numB, State.numB, setBytes_cfgB]

theorem numB_withBasis (s : State) (n : Nat) : (s.withBasis n).numB = s.numB := by
  rw [State.withBasis, State.numB, setBytes_cfgB, State.numB]

theorem length_combinedRow {s : State} (hB : s.numB ≤ 32) (n : Nat) : (s.combinedRow n).length = 32 :=
  length_padRow (by simpa using hB)

section
variable {s : State} (hs : Memory.wf s.mem) {n : Nat}
include hs

theorem wf_withBasis : Memory.wf (s.withBasis n).mem := wf_setBytes hs ..

theorem byte_withBasis_l {i : Nat} (hi : i < n) : (s.withBasis n).byte (lAddr i) = lagrangeWeight s n i := by
  have hlen : i < (s.basis n).length := by simpa [State.basis] using hi
  refine (byte_setBytes_inside hs (lAddr 0) hlen).trans ?_
  simp only [State.basis, List.getElem_map, List.getElem_range, basisValue_eq]

theorem byte_withBasis_outside {a : Nat} (ha : ¬ (lAddr 0 ≤ a ∧ a < lAddr n)) : (s.withBasis n).byte a = s.byte a := by
  refine byte_setBytes_outside hs ?_
  simpa [State.basis, lAddr] using ha

/-- The lanes read Y as it was and the L just written, so they are R85's sum. -/
theorem combineLane_withBasis (hn : n ≤ 255) (k : Nat) : (s.withBasis n).combineLane n k = interpolated s n k := by
  have terms : ∀ i ∈ List.range n, gmul ((s.withBasis n).byte (yAddr i k)) ((s.withBasis n).byte (lAddr i)) =
      gmul (s.byte (yAddr i k)) (lagrangeWeight s n i) := fun i hi => by
    have hy : ¬ (lAddr 0 ≤ yAddr i k ∧ yAddr i k < lAddr n) := by unfold lAddr yAddr; omega
    rw [byte_withBasis_outside hs hy, byte_withBasis_l hs (List.mem_range.mp hi)]
  rw [State.combineLane, interpolated, ← foldl_gadd_eq]
  exact List.foldl_ext _ _ _ fun acc i hi => congrArg (gadd acc) (terms i hi)

/-- R85: `lagrange_combine(n)` leaves the basis values in L, the interpolated lanes and their padding in R, and other bytes alone. -/
theorem combined_lagrangeCombine (hB : s.numB ≤ 32) (hn : n ≤ 255) : Combined n s (lagrangeCombine n s) := by
  have hw := wf_withBasis hs (n := n)
  have hlen : ((s.withBasis n).combinedRow n).length = 32 := length_combinedRow (by rwa [numB_withBasis]) n
  have inside {k : Nat} (hk : k < 32) :
      (lagrangeCombine n s).byte (rAddr k) = ((s.withBasis n).combinedRow n)[k]'(by omega) := by
    rw [lagrangeCombine_eq_setBytes]
    exact byte_setBytes_inside hw (rAddr 0) (by omega)
  have outside {a : Nat} (ha : ¬ (rAddr 0 ≤ a ∧ a < rAddr 32)) : (lagrangeCombine n s).byte a = (s.withBasis n).byte a := by
    rw [lagrangeCombine_eq_setBytes]
    exact byte_setBytes_outside hw (hlen ▸ ha)
  refine ⟨fun i hi => ?basis, fun k hk => ?lane, fun k hk hBk => ?padding, fun a ha => ?others⟩
  case basis =>
    have hl : ¬ (rAddr 0 ≤ lAddr i ∧ lAddr i < rAddr 32) := by unfold rAddr lAddr; omega
    rw [outside hl, byte_withBasis_l hs hi]
  case lane =>
    refine (inside (by omega)).trans ((getElem_padRow_lane _ ?_).trans ?_)
    · simpa [numB_withBasis] using hk
    · rw [List.getElem_map, List.getElem_range, combineLane_withBasis hs hn]
  case padding =>
    refine (inside hk).trans (getElem_padRow_padding _ ?_)
    simpa [numB_withBasis] using hBk
  case others =>
    obtain ⟨hl, hr⟩ := not_or.mp ha
    rw [outside hr, byte_withBasis_outside hs hl]

end

end Sys2Proof.Machine
end

section
/-! Proofs. Errors (60_exceptions.md R94, R97): every command completes; one that a check stops is completion alone, and the one code
that no check reports, InternalFailure, is VERIFY's, after the combination; then `irq`, which is low without DONE. -/

namespace Sys2Proof.Machine

open Host

/-! ### Completion -/

/-- R30, R94: success and failure alike set ERR, DONE and IDLE and keep what no command writes. -/
theorem completed_of_exec {i : Instr} {s t : State} (h : exec i s = .next t) : Completed t.err s t := by
  obtain ⟨c, g, m, z, hshape⟩ := exec_shape i s
  cases h.symm.trans hshape
  simp [Completed, ControlKept]

/-! ### No check reports InternalFailure -/

theorem addressError_ne_internalFailure (a : Addr) : addressError a ≠ some .internalFailure := by
  rw [addressError]
  split <;> simp

theorem sharingError_ne_internalFailure (s : State) : sharingError s ≠ some .internalFailure := by
  rw [sharingError_eq]
  split <;> simp

theorem evalIndexError_ne_internalFailure (xs : Bool) (s : State) : evalIndexError xs s ≠ some .internalFailure := by
  rw [evalIndexError]
  split <;> simp

theorem indexError_ne_internalFailure (s : State) (n : Nat) : indexError s n ≠ some .internalFailure := by
  rw [indexError]
  split_ifs <;> simp

theorem recoveryError_ne_internalFailure (s : State) : recoveryError s ≠ some .internalFailure := by
  rw [recoveryError]
  split_ifs <;> simp

theorem firstError_ne_of_both {a b : Option ErrCode} {c : ErrCode} (ha : a ≠ some c) (hb : b ≠ some c) :
    firstError a b ≠ some c := by
  cases a with
  | none => exact hb
  | some _ => exact ha

/-! ### How a command can end -/

/-- A check has stopped the command: it is completion alone, with another code than InternalFailure (R94). -/
def StoppedByCheck (s t : State) : Prop := t = s.complete t.err ∧ t.err ≠ .internalFailure

section
variable {e : Option ErrCode} {s t : State} (he : e ≠ some .internalFailure)
include he

/-- A checked command ends as the work behind its check ends, or its check has stopped it. -/
theorem work_or_stoppedByCheck {o : Outcome State Fault Refusal} (h : checked e s o = .next t) :
    o = .next t ∨ StoppedByCheck s t := by
  cases e with
  | none => exact .inl h
  | some c => cases h; exact .inr ⟨rfl, fun hc => he (congrArg some hc)⟩

theorem success_or_stoppedByCheck {u : State} (h : checked e s (succeed u) = .next t) :
    t.err = .success ∨ StoppedByCheck s t :=
  (work_or_stoppedByCheck he h).imp_left err_of_succeed

end

/-- VERIFY past its checks has succeeded, or completes with InternalFailure in the state the combination left (R83). -/
theorem compareSecret_cases {s t : State} (h : compareSecret s = .next t) :
    t.err = .success ∨ t = s.complete .internalFailure := by
  rw [compareSecret] at h
  split at h
  · exact .inl (err_of_succeed h)
  · cases h; exact .inr rfl

/-- R94: a command succeeds, or a check has stopped it, or it is VERIFY in a legal configuration, with its combination made. -/
theorem exec_success_or_stopped_or_internalFailure {i : Instr} {s t : State} (h : exec i s = .next t) :
    t.err = .success ∨ StoppedByCheck s t ∨
    (i = .verify ∧ SharingLegal s ∧ t = (lagrangeCombine s.numT s).complete .internalFailure) := by
  cases i with
  | nop | gadd _ _ _ | gaddi _ _ _ | gmul _ _ _ | gmuli _ _ _ | ginv _ _ | gexp _ _ _ | gexpi _ _ _ | gli _ _ | zero =>
    exact .inl (err_of_succeed h)
  | gld rd a => exact (success_or_stoppedByCheck (addressError_ne_internalFailure a) h).imp_right .inl
  | gst rt a => exact (success_or_stoppedByCheck (addressError_ne_internalFailure a) h).imp_right .inl
  | derive => exact (success_or_stoppedByCheck (sharingError_ne_internalFailure s) h).imp_right .inl
  | eval xs =>
    have he := firstError_ne_of_both (sharingError_ne_internalFailure s) (evalIndexError_ne_internalFailure xs s)
    exact (success_or_stoppedByCheck he h).imp_right .inl
  | recon =>
    have he := firstError_ne_of_both (indexError_ne_internalFailure s s.numK) (recoveryError_ne_internalFailure s)
    exact (success_or_stoppedByCheck he h).imp_right .inl
  | verify =>
    by_cases hlegal : SharingLegal s
    · rw [exec_verify_of_legal hlegal] at h
      rcases work_or_stoppedByCheck (indexError_ne_internalFailure s s.numT) h with hwork | hstop
      · exact (compareSecret_cases hwork).imp_right fun ht => .inr ⟨rfl, hlegal, ht⟩
      · exact .inr (.inl hstop)
    · cases h.symm.trans (verify_failsWith_invalidSize hlegal)
      exact .inr (.inl ⟨rfl, nofun⟩)

/-- Settles O42: of the three ways a command can end, the code leaves a check's stop for the first clause and VERIFY's comparison for
the second. -/
theorem failedCommandsChangeNothing : Obligations.FailedCommandsChangeNothing := by
  obtain ⟨-, -, illegalTurn⟩ := reservedWordsAreIllegal
  refine ⟨fun i s t h hcode hinternal => ?stopped, fun i s t hs h hinternal => ?internalFailure, illegalTurn,
    fun i s t h => completed_of_exec h, fun s w => ⟨accept_ccnt s w, accept_cmdlog s w⟩⟩
  case stopped =>
    rcases exec_success_or_stopped_or_internalFailure h with hok | ⟨ht, -⟩ | ⟨-, -, ht⟩
    · exact absurd hok hcode
    · exact ht
    · exact absurd (congrArg State.err ht) hinternal
  case internalFailure =>
    rcases exec_success_or_stopped_or_internalFailure h with hok | ⟨-, hne⟩ | ⟨hi, ⟨hB, -⟩, ht⟩
    · cases hok.symm.trans hinternal
    · exact absurd hinternal hne
    · have hT : s.numT < 256 := s.cfgT.isLt
      refine ⟨hi, hinternal ▸ completed_of_exec h, ?_⟩
      rw [ht]
      exact ⟨reg_congr (by rw [complete_g, lagrangeCombine_eq]), by rw [complete_invz, lagrangeCombine_eq],
        combined_lagrangeCombine hs (numB_le hB) (by omega)⟩

/-! ### `irq` -/

theorem irq_of_released {s : State} (h : s.rst = false) : s.irq = (s.ie && s.done) := by simp [State.irq, h]

theorem irq_of_not_done {s : State} (h : s.done = false) : s.irq = false := by simp [State.irq, h]

theorem irq_of_done {s : State} (hrst : s.rst = false) (h : s.done = true) : s.irq = s.ie := by
  rw [irq_of_released hrst, h, Bool.and_true]

/-- R97: `irq` is IE when a command has completed, whatever the code. -/
theorem irq_of_completed {c : ErrCode} {s t : State} (hrst : s.rst = false) (h : Completed c s t) : t.irq = s.ie := by
  obtain ⟨-, hdone, -, hie, -, -, -, -, -, -, -, -, -, htrst, -⟩ := h
  exact (irq_of_done (htrst.trans hrst) hdone).trans hie

theorem hostWrite_ctrl (s : State) {d : Word} (h : d.getLsbD 31 = false) :
    hostWrite 0x0004 32 d s = ({ s with ie := d.getLsbD 0, nothresh := d.getLsbD 1 }, .write .ok) := by
  rw [hostWrite_served (t := .reg .ctrl) rfl (.inr rfl), State.writeTarget, State.writeReg, State.writeCtrl, h]; rfl

theorem hostWrite_status (s : State) (d : Word) : hostWrite 0x0008 32 d s = (s.writeStatus d, .write .ok) :=
  hostWrite_served (t := .reg .status) rfl (.inr rfl) d

/-- A write of 1 to DONE clears it (R17). -/
theorem writeStatus_done_of_set (s : State) {d : Word} (h : d.getLsbD 1 = true) : (s.writeStatus d).done = false := by
  simp [State.writeStatus, h]

/-- Settles O54: a completion sets DONE and keeps IE, a CTRL write puts IE in place, and the events that lower `irq` clear DONE. -/
theorem irqFollowsDoneAndEnable : Obligations.IrqFollowsDoneAndEnable := by
  refine ⟨fun _ => irq_of_released, fun i s t hrst h => irq_of_completed hrst (completed_of_exec h),
    fun s c hrst => irq_of_completed (c := c) hrst (by simp [Completed, ControlKept]), fun s d hrst hdone hd => ?enableWrite,
    fun s d hd => ?doneWrite, fun s w => irq_of_not_done (accept_done s w),
    fun s => irq_of_not_done (resetElements_done s), fun _ _ _ => rfl⟩
  case enableWrite =>
    rw [hostWrite_ctrl s hd]
    exact irq_of_done hrst hdone
  case doneWrite =>
    rw [hostWrite_status]
    exact irq_of_not_done (writeStatus_done_of_set s hd)

end Sys2Proof.Machine
end

section
/-! Proofs. Soft reset (70_reset_and_hazards.md R106): the CTRL write and the `rst` pulse both come down to `State.resetElements`. -/

namespace Sys2Proof.Machine

section
variable {s : State}

/-- With `rst` released, what a reset leaves of a state is what stands outside the unit. -/
theorem resetElements_of_released (h : s.rst = false) :
    s.resetElements = { State.reset with hashUp := s.hashUp, inputs := s.inputs, responses := s.responses } := by
  rw [State.resetElements, h]; rfl

theorem resetElements_ctrlWord : s.resetElements.ctrlWord = 0 := by
  rw [State.ctrlWord, resetElements_nothresh, resetElements_ie]; decide

/-- R106: the write is served busy or not, and its bits but SRST are discarded. -/
theorem hostWrite_ctrl_softReset {d : Word} (h : d.getLsbD 31 = true) :
    hostWrite 0x0004 32 d s = (s.resetElements, .write .ok) := by
  rw [hostWrite_served (t := .reg .ctrl) rfl (.inr rfl), State.writeTarget, State.writeReg, State.writeCtrl, if_pos h]

/-! ### The `rst` pin -/

theorem serve_rst_assert : serve (.rst true) s = .next { s.resetElements with rst := true } := by
  rw [serve, setRst, Bool.or_true, if_pos rfl]

theorem serve_rst_release (h : s.rst = true) : serve (.rst false) s = .next { s.resetElements with rst := false } := by
  rw [serve, setRst, h, Bool.or_false, if_pos rfl]

/-- R105: a pulse of `rst` on a unit out of reset leaves the pin low again and every element reset. -/
theorem serve_rst_pulse (h : s.rst = false) :
    ∃ u, serve (.rst true) s = .next u ∧ serve (.rst false) u = .next s.resetElements := by
  refine ⟨_, serve_rst_assert, ?release⟩
  case release =>
    rw [serve_rst_release rfl, resetElements_of_released h]; rfl

end

/-- Settles O51: the write leaves `resetElements`, and so does the pulse. -/
theorem softResetEqualsRstPulse : Obligations.SoftResetEqualsRstPulse := by
  unfold Obligations.SoftResetEqualsRstPulse
  intro s d hrst hsrst
  rw [← resetElements_of_released hrst]
  exact ⟨hostWrite_ctrl_softReset hsrst, resetElements_ctrlWord, serve_rst_pulse hrst⟩

end Sys2Proof.Machine
end

section
/-! Proofs. Encoding (30_encoding.md R48 to R53). A format's word has the fields it is put together from, and a word whose reserved field
is 0 is put together from its fields: so the decoder and the encoder invert each other, format by format. The match and mask then tell
the same words apart as the decoder's formats. -/

namespace Sys2Proof.Machine

/-- The word of format U, as `encode` puts it together (R49). -/
def wordU (op : Byte) (rd rs1 : RegNum) : Word := op ++ rd ++ rs1 ++ 0#16

/-- The word of format L, as `encode` puts it together (R49). -/
def wordL (op : Byte) (rd : RegNum) (imm : Byte) : Word := op ++ rd ++ 0#12 ++ imm

/-- The word of format X, as `encode` puts it together (R49). -/
def wordX (op : Byte) (xs : Bool) : Word := op ++ 0#23 ++ BitVec.ofBool xs

theorem ifReservedZero_true (i : Instr) : ifReservedZero true i = .ok i := rfl

/-- A format accepts a word only if its reserved field is 0 (R52). -/
theorem eq_of_ifReservedZero {n : Nat} {x y : BitVec n} {i j : Instr} (h : ifReservedZero (x == y) i = .ok j) : x = y ∧ i = j := by
  rw [ifReservedZero] at h
  split at h
  case isTrue hxy => cases h; exact ⟨beq_iff_eq.mp hxy, rfl⟩
  case isFalse => cases h

/-! ### Each opcode's format -/

section
variable {w : Word}

theorem decode_op_nop (h : opField w = 0x00#8) : decode w = formatN w .nop := by rw [decode, h]; rfl
theorem decode_op_gadd (h : opField w = 0x01#8) : decode w = formatR w .gadd := by rw [decode, h]; rfl
theorem decode_op_gaddi (h : opField w = 0x02#8) : decode w = formatI w .gaddi := by rw [decode, h]; rfl
theorem decode_op_gmul (h : opField w = 0x03#8) : decode w = formatR w .gmul := by rw [decode, h]; rfl
theorem decode_op_gmuli (h : opField w = 0x04#8) : decode w = formatI w .gmuli := by rw [decode, h]; rfl
theorem decode_op_ginv (h : opField w = 0x05#8) : decode w = formatU w .ginv := by rw [decode, h]; rfl
theorem decode_op_gexp (h : opField w = 0x06#8) : decode w = formatR w .gexp := by rw [decode, h]; rfl
theorem decode_op_gexpi (h : opField w = 0x07#8) : decode w = formatI w .gexpi := by rw [decode, h]; rfl
theorem decode_op_gli (h : opField w = 0x08#8) : decode w = formatL w .gli := by rw [decode, h]; rfl
theorem decode_op_gld (h : opField w = 0x10#8) : decode w = formatM w .gld := by rw [decode, h]; rfl
theorem decode_op_gst (h : opField w = 0x11#8) : decode w = formatM w .gst := by rw [decode, h]; rfl
theorem decode_op_derive (h : opField w = 0x20#8) : decode w = formatN w .derive := by rw [decode, h]; rfl
theorem decode_op_eval (h : opField w = 0x21#8) : decode w = formatX w .eval := by rw [decode, h]; rfl
theorem decode_op_recon (h : opField w = 0x22#8) : decode w = formatN w .recon := by rw [decode, h]; rfl
theorem decode_op_verify (h : opField w = 0x23#8) : decode w = formatN w .verify := by rw [decode, h]; rfl
theorem decode_op_zero (h : opField w = 0x30#8) : decode w = formatN w .zero := by rw [decode, h]; rfl

end

/-! ### A format reads back the fields its word is put together from -/

section
variable (op : Byte) (rd rs1 rs2 : RegNum) (imm : Byte) (addr : Addr) (xs : Bool)

theorem formatN_wordN (i : Instr) :
    opField (wordN op) = op ∧ formatN (wordN op) i = .ok i := by
  simp only [formatN, wordN, opField, BitVec.extractLsb'_append_eq_of_le, BitVec.extractLsb'_append_eq_right,
    BitVec.extractLsb'_eq_self, Nat.reduceLeDiff, Nat.reduceSub, beq_self_eq_true, and_self, ifReservedZero_true]

theorem formatX_wordX (i : Bool → Instr) :
    opField (wordX op xs) = op ∧ formatX (wordX op xs) i = .ok (i xs) := by
  have hxs : (wordX op xs).getLsbD 0 = xs := by
    simp only [wordX, BitVec.getLsbD_append]
    cases xs <;> rfl
  rw [formatX, xsField, hxs]
  simp only [wordX, opField, BitVec.extractLsb'_append_eq_of_le, BitVec.extractLsb'_append_eq_right,
    BitVec.extractLsb'_eq_self, Nat.reduceLeDiff, Nat.reduceSub, beq_self_eq_true, and_self, ifReservedZero_true]

theorem formatR_wordR (i : RegNum → RegNum → RegNum → Instr) :
    opField (wordR op rd rs1 rs2) = op ∧ formatR (wordR op rd rs1 rs2) i = .ok (i rd rs1 rs2) := by
  simp only [formatR, wordR, opField, rdField, rs1Field, rs2Field, BitVec.extractLsb'_append_eq_of_le,
    BitVec.extractLsb'_append_eq_right, BitVec.extractLsb'_eq_self, Nat.reduceLeDiff, Nat.reduceSub, beq_self_eq_true, and_self,
    ifReservedZero_true]

theorem formatU_wordU (i : RegNum → RegNum → Instr) :
    opField (wordU op rd rs1) = op ∧ formatU (wordU op rd rs1) i = .ok (i rd rs1) := by
  simp only [formatU, wordU, opField, rdField, rs1Field, BitVec.extractLsb'_append_eq_of_le, BitVec.extractLsb'_append_eq_right,
    BitVec.extractLsb'_eq_self, Nat.reduceLeDiff, Nat.reduceSub, beq_self_eq_true, and_self, ifReservedZero_true]

theorem formatI_wordI (i : RegNum → RegNum → Byte → Instr) :
    opField (wordI op rd rs1 imm) = op ∧ formatI (wordI op rd rs1 imm) i = .ok (i rd rs1 imm) := by
  simp only [formatI, wordI, opField, rdField, rs1Field, imm8Field, BitVec.extractLsb'_append_eq_of_le,
    BitVec.extractLsb'_append_eq_right, BitVec.extractLsb'_eq_self, Nat.reduceLeDiff, Nat.reduceSub, beq_self_eq_true, and_self,
    ifReservedZero_true]

theorem formatL_wordL (i : RegNum → Byte → Instr) :
    opField (wordL op rd imm) = op ∧ formatL (wordL op rd imm) i = .ok (i rd imm) := by
  simp only [formatL, wordL, opField, rdField, imm8Field, BitVec.extractLsb'_append_eq_of_le, BitVec.extractLsb'_append_eq_right,
    BitVec.extractLsb'_eq_self, Nat.reduceLeDiff, Nat.reduceSub, beq_self_eq_true, and_self, ifReservedZero_true]

theorem formatM_wordM (i : RegNum → Addr → Instr) :
    opField (wordM op rd addr) = op ∧ formatM (wordM op rd addr) i = .ok (i rd addr) := by
  simp only [formatM, wordM, opField, rdField, addr16Field, BitVec.extractLsb'_append_eq_of_le, BitVec.extractLsb'_append_eq_right,
    BitVec.extractLsb'_eq_self, Nat.reduceLeDiff, Nat.reduceSub, beq_self_eq_true, and_self, ifReservedZero_true]

end

/-! ### A word a format accepts is put together from its fields -/

section
variable {w : Word} {op : Byte} {j : Instr} (hop : opField w = op)
include hop

theorem encode_of_formatN {i : Instr} (henc : encode i = wordN op) (h : formatN w i = .ok j) : encode j = w := by
  obtain ⟨h0, rfl⟩ := eq_of_ifReservedZero h
  rw [henc, wordN, ← h0, ← hop]
  simp only [opField, BitVec.extractLsb'_append_extractLsb'_eq_extractLsb', BitVec.extractLsb'_eq_self]

theorem encode_of_formatX {i : Bool → Instr} (henc : ∀ a, encode (i a) = wordX op a) (h : formatX w i = .ok j) : encode j = w := by
  obtain ⟨h0, rfl⟩ := eq_of_ifReservedZero h
  have hbit : BitVec.ofBool (xsField w) = w.extractLsb' 0 1 := by
    apply BitVec.eq_of_getLsbD_eq
    intro k hk
    obtain rfl : k = 0 := by omega
    simp [xsField]
  rw [henc, wordX, hbit, ← h0, ← hop, opField]
  simp only [BitVec.extractLsb'_append_extractLsb'_eq_extractLsb', BitVec.extractLsb'_eq_self]

theorem encode_of_formatR {i : RegNum → RegNum → RegNum → Instr} (henc : ∀ a b c, encode (i a b c) = wordR op a b c)
    (h : formatR w i = .ok j) : encode j = w := by
  obtain ⟨h0, rfl⟩ := eq_of_ifReservedZero h
  rw [henc, wordR, ← h0, ← hop]
  simp only [opField, rdField, rs1Field, rs2Field, BitVec.extractLsb'_append_extractLsb'_eq_extractLsb', BitVec.extractLsb'_eq_self]

theorem encode_of_formatU {i : RegNum → RegNum → Instr} (henc : ∀ a b, encode (i a b) = wordU op a b)
    (h : formatU w i = .ok j) : encode j = w := by
  obtain ⟨h0, rfl⟩ := eq_of_ifReservedZero h
  rw [henc, wordU, ← h0, ← hop]
  simp only [opField, rdField, rs1Field, BitVec.extractLsb'_append_extractLsb'_eq_extractLsb', BitVec.extractLsb'_eq_self]

theorem encode_of_formatI {i : RegNum → RegNum → Byte → Instr} (henc : ∀ a b c, encode (i a b c) = wordI op a b c)
    (h : formatI w i = .ok j) : encode j = w := by
  obtain ⟨h0, rfl⟩ := eq_of_ifReservedZero h
  rw [henc, wordI, ← h0, ← hop]
  simp only [opField, rdField, rs1Field, imm8Field, BitVec.extractLsb'_append_extractLsb'_eq_extractLsb', BitVec.extractLsb'_eq_self]

theorem encode_of_formatL {i : RegNum → Byte → Instr} (henc : ∀ a b, encode (i a b) = wordL op a b)
    (h : formatL w i = .ok j) : encode j = w := by
  obtain ⟨h0, rfl⟩ := eq_of_ifReservedZero h
  rw [henc, wordL, ← h0, ← hop]
  simp only [opField, rdField, imm8Field, BitVec.extractLsb'_append_extractLsb'_eq_extractLsb', BitVec.extractLsb'_eq_self]

theorem encode_of_formatM {i : RegNum → Addr → Instr} (henc : ∀ a b, encode (i a b) = wordM op a b)
    (h : formatM w i = .ok j) : encode j = w := by
  obtain ⟨h0, rfl⟩ := eq_of_ifReservedZero h
  rw [henc, wordM, ← h0, ← hop]
  simp only [opField, rdField, addr16Field, BitVec.extractLsb'_append_extractLsb'_eq_extractLsb', BitVec.extractLsb'_eq_self]

end

/-- Settles O1: each command's word is its format's, under the opcode the decoder sends to that format. -/
theorem decodeInvertsEncode : Obligations.DecodeInvertsEncode := by
  intro i
  cases i with
  | nop =>
    obtain ⟨hop, h⟩ := formatN_wordN 0x00 .nop
    exact (decode_op_nop hop).trans h
  | gadd rd rs1 rs2 =>
    obtain ⟨hop, h⟩ := formatR_wordR 0x01 rd rs1 rs2 .gadd
    exact (decode_op_gadd hop).trans h
  | gaddi rd rs1 imm =>
    obtain ⟨hop, h⟩ := formatI_wordI 0x02 rd rs1 imm .gaddi
    exact (decode_op_gaddi hop).trans h
  | gmul rd rs1 rs2 =>
    obtain ⟨hop, h⟩ := formatR_wordR 0x03 rd rs1 rs2 .gmul
    exact (decode_op_gmul hop).trans h
  | gmuli rd rs1 imm =>
    obtain ⟨hop, h⟩ := formatI_wordI 0x04 rd rs1 imm .gmuli
    exact (decode_op_gmuli hop).trans h
  | ginv rd rs1 =>
    obtain ⟨hop, h⟩ := formatU_wordU 0x05 rd rs1 .ginv
    exact (decode_op_ginv hop).trans h
  | gexp rd rs1 rs2 =>
    obtain ⟨hop, h⟩ := formatR_wordR 0x06 rd rs1 rs2 .gexp
    exact (decode_op_gexp hop).trans h
  | gexpi rd rs1 imm =>
    obtain ⟨hop, h⟩ := formatI_wordI 0x07 rd rs1 imm .gexpi
    exact (decode_op_gexpi hop).trans h
  | gli rd imm =>
    obtain ⟨hop, h⟩ := formatL_wordL 0x08 rd imm .gli
    exact (decode_op_gli hop).trans h
  | gld rd addr =>
    obtain ⟨hop, h⟩ := formatM_wordM 0x10 rd addr .gld
    exact (decode_op_gld hop).trans h
  | gst rd addr =>
    obtain ⟨hop, h⟩ := formatM_wordM 0x11 rd addr .gst
    exact (decode_op_gst hop).trans h
  | derive =>
    obtain ⟨hop, h⟩ := formatN_wordN 0x20 .derive
    exact (decode_op_derive hop).trans h
  | eval xs =>
    obtain ⟨hop, h⟩ := formatX_wordX 0x21 xs .eval
    exact (decode_op_eval hop).trans h
  | recon =>
    obtain ⟨hop, h⟩ := formatN_wordN 0x22 .recon
    exact (decode_op_recon hop).trans h
  | verify =>
    obtain ⟨hop, h⟩ := formatN_wordN 0x23 .verify
    exact (decode_op_verify hop).trans h
  | zero =>
    obtain ⟨hop, h⟩ := formatN_wordN 0x30 .zero
    exact (decode_op_zero hop).trans h

/-- Settles O2: a legal word's opcode has a row, and with that row's command the word's opcode and fields are where the command's format
has them. -/
theorem encodeInvertsDecode : Obligations.EncodeInvertsDecode := by
  intro w i h
  have hrow : ∃ r ∈ opcodeRows, opField w = r.pattern.extractLsb' 24 8 := by
    by_contra hno
    push Not at hno
    cases (decode_of_no_row hno).symm.trans h
  simp only [opcodeRows, List.cons_append, List.nil_append, List.exists_mem_cons_iff, List.not_mem_nil, false_and, exists_false,
    or_false, BitVec.reduceExtractLsb'] at hrow
  rcases hrow with hnop | hgadd | hgaddi | hgmul | hgmuli | hginv | hgexp | hgexpi | hgli | hgld | hgst | hderive |
    heval | hrecon | hverify | hzero
  · exact encode_of_formatN hnop rfl ((decode_op_nop hnop).symm.trans h)
  · exact encode_of_formatR hgadd (fun _ _ _ => rfl) ((decode_op_gadd hgadd).symm.trans h)
  · exact encode_of_formatI hgaddi (fun _ _ _ => rfl) ((decode_op_gaddi hgaddi).symm.trans h)
  · exact encode_of_formatR hgmul (fun _ _ _ => rfl) ((decode_op_gmul hgmul).symm.trans h)
  · exact encode_of_formatI hgmuli (fun _ _ _ => rfl) ((decode_op_gmuli hgmuli).symm.trans h)
  · exact encode_of_formatU hginv (fun _ _ => rfl) ((decode_op_ginv hginv).symm.trans h)
  · exact encode_of_formatR hgexp (fun _ _ _ => rfl) ((decode_op_gexp hgexp).symm.trans h)
  · exact encode_of_formatI hgexpi (fun _ _ _ => rfl) ((decode_op_gexpi hgexpi).symm.trans h)
  · exact encode_of_formatL hgli (fun _ _ => rfl) ((decode_op_gli hgli).symm.trans h)
  · exact encode_of_formatM hgld (fun _ _ => rfl) ((decode_op_gld hgld).symm.trans h)
  · exact encode_of_formatM hgst (fun _ _ => rfl) ((decode_op_gst hgst).symm.trans h)
  · exact encode_of_formatN hderive rfl ((decode_op_derive hderive).symm.trans h)
  · exact encode_of_formatX heval (fun _ => rfl) ((decode_op_eval heval).symm.trans h)
  · exact encode_of_formatN hrecon rfl ((decode_op_recon hrecon).symm.trans h)
  · exact encode_of_formatN hverify rfl ((decode_op_verify hverify).symm.trans h)
  · exact encode_of_formatN hzero rfl ((decode_op_zero hzero).symm.trans h)

/-! ### The match and mask tell the same words apart -/

/-- A command's word fits a row of the opcode map (R51). -/
theorem rowFit (i : Instr) : Laws.RowFit.Statement i := by
  cases i with
  | nop => exact Laws.RowFit.nop
  | gadd rd rs1 rs2 => exact Laws.RowFit.gadd rd rs1 rs2
  | gaddi rd rs1 imm => exact Laws.RowFit.gaddi rd rs1 imm
  | gmul rd rs1 rs2 => exact Laws.RowFit.gmul rd rs1 rs2
  | gmuli rd rs1 imm => exact Laws.RowFit.gmuli rd rs1 imm
  | ginv rd rs1 => exact Laws.RowFit.ginv rd rs1
  | gexp rd rs1 rs2 => exact Laws.RowFit.gexp rd rs1 rs2
  | gexpi rd rs1 imm => exact Laws.RowFit.gexpi rd rs1 imm
  | gli rd imm => exact Laws.RowFit.gli rd imm
  | gld rd addr => exact Laws.RowFit.gld rd addr
  | gst rd addr => exact Laws.RowFit.gst rd addr
  | derive => exact Laws.RowFit.derive
  | eval xs => exact Laws.RowFit.eval xs
  | recon => exact Laws.RowFit.recon
  | verify => exact Laws.RowFit.verify
  | zero => exact Laws.RowFit.zero

theorem wordWellFormed_of_decode {w : Word} {i : Instr} (h : decode w = .ok i) : wordWellFormed w = true := by
  obtain ⟨r, hr, -, haccepts⟩ := rowFit i
  rw [encodeInvertsDecode w i h] at haccepts
  exact List.any_eq_true.mpr ⟨r, hr, haccepts⟩

section
variable {r : OpRow} {w : Word} (h : r.accepts w = true)
include h

/-- Under a row's mask a word it accepts has the row's bits. -/
theorem getLsbD_of_accepts {k : Nat} (hk : r.mask.getLsbD k = true) : w.getLsbD k = r.pattern.getLsbD k := by
  have hw : w &&& r.mask = r.pattern := beq_iff_eq.mp h
  rw [← hw, BitVec.getLsbD_and, hk, Bool.and_true]

/-- A field under a row's mask reads as the row's in a word it accepts. -/
theorem extractLsb'_of_accepts {lo len : Nat} (hmask : ∀ k, lo ≤ k → k < lo + len → k < 32 → r.mask.getLsbD k = true) :
    w.extractLsb' lo len = r.pattern.extractLsb' lo len := by
  apply BitVec.eq_of_getLsbD_eq
  intro k hk
  rw [BitVec.getLsbD_extractLsb', BitVec.getLsbD_extractLsb']
  by_cases hin : lo + k < 32
  · rw [getLsbD_of_accepts h (hmask (lo + k) (by omega) (by omega) hin)]
  · rw [BitVec.getLsbD_of_ge _ _ (by omega), BitVec.getLsbD_of_ge _ _ (by omega)]

end

section
variable {r : OpRow} {lo len : Nat} (hr : RowReserves r lo len) {w : Word} (h : r.accepts w = true)
include hr h

theorem opField_of_accepts : opField w = r.pattern.extractLsb' 24 8 := by
  obtain ⟨-, hmask, -⟩ := hr
  exact extractLsb'_of_accepts h fun k hk _ hk32 => by rw [hmask, getLsbD_fieldMask_of_op hk hk32]

theorem reservedField_of_accepts : w.extractLsb' lo len = r.pattern.extractLsb' lo len := by
  obtain ⟨-, hmask, -⟩ := hr
  refine extractLsb'_of_accepts h fun k hlo hlen hk32 => ?_
  rw [hmask]
  by_cases hk : 24 ≤ k
  · exact getLsbD_fieldMask_of_op hk hk32
  · simp [getLsbD_fieldMask (Nat.lt_of_not_le hk), hlo, hlen]

end

/-- Every row's own pattern is the word of a command. -/
theorem opcodeRows_pattern_decodes : ∀ r ∈ opcodeRows, (decode r.pattern).isOk = true := by decide

theorem decode_of_accepts {r : OpRow} (hr : r ∈ opcodeRows) {w : Word} (h : r.accepts w = true) : ∃ i, decode w = .ok i := by
  obtain ⟨lo, len, hres⟩ := opcodeRows_rowReserves r hr
  have ⟨_, _, hdecode⟩ := hres
  obtain ⟨i, hi⟩ := hdecode w (opField_of_accepts hres h)
  obtain ⟨j, hj⟩ := hdecode r.pattern rfl
  have hzero : r.pattern.extractLsb' lo len = 0#len := by
    have hpattern := opcodeRows_pattern_decodes r hr
    by_contra hne
    rw [hj, ifReservedZero, if_neg (mt beq_iff_eq.mp hne)] at hpattern
    cases hpattern
  rw [reservedField_of_accepts hres h, hzero, beq_self_eq_true] at hi
  exact ⟨i, hi⟩

/-- Different rows have different opcodes (R51). -/
theorem opcodeRows_opcode_inj : ∀ r ∈ opcodeRows, ∀ q ∈ opcodeRows,
    r.pattern.extractLsb' 24 8 = q.pattern.extractLsb' 24 8 → r = q := by decide

/-- Settles O3: a command's word fits its row; a word a row accepts has the row's opcode and 0 in the field the row reserves, and no
other row has that opcode. -/
theorem decoderAgreesWithMatchAndMask : Obligations.DecoderAgreesWithMatchAndMask := by
  refine ⟨fun w => ⟨fun ⟨i, hi⟩ => wordWellFormed_of_decode hi, fun hw => ?decodes⟩, fun w r hr q hq hrw hqw => ?sameRow⟩
  case decodes =>
    obtain ⟨r, hr, haccepts⟩ := List.any_eq_true.mp hw
    exact decode_of_accepts hr haccepts
  case sameRow =>
    obtain ⟨_, _, hrres⟩ := opcodeRows_rowReserves r hr
    obtain ⟨_, _, hqres⟩ := opcodeRows_rowReserves q hq
    exact opcodeRows_opcode_inj r hr q hq ((opField_of_accepts hrres hrw).symm.trans (opField_of_accepts hqres hqw))

end Sys2Proof.Machine
end

section
/-! Proofs. The steps of the machine (10_state.md R30; 20_memory.md R32, R38, R40, R45; 70_reset_and_hazards.md R105 to R108): a step is
one input served or one turn, a turn with no input is the running command's next move, and the host port keeps what stands outside the
unit. -/

namespace Sys2Proof.Machine

open Host

/-! ### Every step answers a next state -/

/-- Settles O10: the outcome's shape is a completion of the state with registers, memory and INVZ changed. -/
theorem everyCommandCompletes : Obligations.EveryCommandCompletes := by
  intro i s
  obtain ⟨c, g, m, z, h⟩ := exec_shape i s
  exact ⟨_, _, h, completed_of_exec h⟩

theorem exec_continues (i : Instr) (s : State) : ∃ t, exec i s = .next t := by
  obtain ⟨t, -, h, -⟩ := everyCommandCompletes i s
  exact ⟨t, h⟩

/-- What the unit's next move on its running command can be (R30, R45, R52). -/
theorem progress_cases (r : Running) (s : State) :
    (∃ q, r.hashReq = some q ∧ s.hashUp = true ∧
      progress r s = .next { s with unit := .exec { r with hashDone := r.hashDone + 1, hashReq := none } }) ∨
    (s.hashUp = false ∧ progress r s = .next s) ∨
    (r.hashReq = none ∧ r.hashDone < requestsOf r.word s ∧
      progress r s = .next { s with unit := .exec { r with hashReq := some (s.request (r.hashDone + 1)) } }) ∨
    (r.hashReq = none ∧ requestsOf r.word s ≤ r.hashDone ∧
      ((∃ i, progress r s = exec i s) ∨ progress r s = .next (s.complete .illegalCommand))) := by
  cases hq : r.hashReq with
  | some q =>
    rcases Bool.eq_false_or_eq_true s.hashUp with hup | hup
    · exact .inl ⟨q, rfl, hup, progress_answered hq hup⟩
    · exact .inr (.inl ⟨hup, progress_waits hq hup⟩)
  | none =>
    by_cases hask : r.hashDone < requestsOf r.word s
    · exact .inr (.inr (.inl ⟨rfl, hask, progress_asks hq hask⟩))
    · refine .inr (.inr (.inr ⟨rfl, Nat.le_of_not_lt hask, ?_⟩))
      cases hd : decode r.word with
      | ok i => exact .inl ⟨i, progress_performs hq (Nat.le_of_not_lt hask) hd⟩
      | error e => exact .inr (progress_illegal hq hd)

theorem progress_continues (r : Running) (s : State) : ∃ t, progress r s = .next t := by
  rcases progress_cases r s with ⟨q, -, -, h⟩ | ⟨-, h⟩ | ⟨-, -, h⟩ | ⟨-, -, ⟨i, h⟩ | h⟩
  case inr.inr.inr.inl =>
    obtain ⟨t, ht⟩ := exec_continues i s
    exact ⟨t, h.trans ht⟩
  all_goals exact ⟨_, h⟩

theorem turn_continues (s : State) : ∃ t, turn s = .next t := by
  cases hrst : s.rst with
  | true => exact ⟨s, turn_rst hrst⟩
  | false =>
    cases hu : s.unit with
    | idle => exact ⟨s, turn_idle hrst hu⟩
    | clear => exact ⟨_, turn_clear hrst hu⟩
    | exec r => rw [turn_exec hrst hu]; exact progress_continues r s

theorem serve_continues (x : Input) (s : State) : ∃ t, serve x s = .next t := by
  cases x with
  | turn => exact turn_continues s
  | read addr width => exact ⟨_, rfl⟩
  | write addr width d => exact ⟨_, rfl⟩
  | rst level => exact ⟨_, rfl⟩
  | pipeline up => exact ⟨_, rfl⟩

/-! ### A step is a turn, or one input served -/

section
variable {s : State}

theorem step_of_no_input (h : s.inputs = []) : step s = turn s := by rw [step, advance, h]

theorem step_of_input {x : Input} {rest : List Input} (h : s.inputs = x :: rest) :
    step s = serve x { s with inputs := rest } := by rw [step, advance, h]

/-- With `rst` released and no input waiting, a step is the running command's next move. -/
theorem step_exec {r : Running} (hrst : s.rst = false) (hin : s.inputs = []) (hu : s.unit = .exec r) : step s = progress r s := by
  rw [step_of_no_input hin, turn_exec hrst hu]

end

/-- Settles O11: a turn answers a next state, and so does every input. -/
theorem stepAlwaysContinues : Obligations.StepAlwaysContinues := by
  intro s
  cases hin : s.inputs with
  | nil => rw [step_of_no_input hin]; exact turn_continues s
  | cons x rest => rw [step_of_input hin]; exact serve_continues x _

/-! ### Turns -/

/-- Settles O7: by the unit's turn the command has no request left to make, so its next move is the decoded command. -/
theorem stepRunsDecodedCommand : Obligations.StepRunsDecodedCommand := by
  refine ⟨fun s r i hrst hu hq hreq hd => ⟨fun hin => ?alone, fun rest hin => ?next⟩,
    fun s hrst hu => ⟨turn_idle hrst hu, fun hin => ?idleAlone, fun rest hin => ?idleNext⟩⟩
  case alone => rw [step_exec hrst hin hu, progress_performs hq hreq hd]
  case next =>
    rw [step_of_input hin, serve, turn_exec (s := { s with inputs := rest }) hrst hu]
    exact progress_performs hq ((requestsOf_congr r.word rfl rfl rfl).trans_le hreq) hd
  case idleAlone => rw [step_of_no_input hin, turn_idle hrst hu]
  case idleNext => rw [step_of_input hin, serve, turn_idle (s := { s with inputs := rest }) hrst hu]

/-- Settles O31: a DERIVE with passing checks has T-1 requests, and while one is to be asked or answered that is the next move. -/
theorem requestsInOrderOneAtATime : Obligations.RequestsInOrderOneAtATime := by
  refine ⟨fun s r hrst hin hu hd hs => ?_, fun w s => requestsOf_other⟩
  have hreq := requestsOf_derive hd hs
  rw [step_exec hrst hin hu]
  exact ⟨hreq, fun hq hj => progress_asks hq (by omega), fun q hq hup => progress_answered hq hup,
    fun q hq hup => progress_waits hq hup⟩

/-- How many moves a running command has left: two for every request not yet asked, one for an answer it waits for, one to perform. -/
def movesLeft (r : Running) (s : State) : Nat :=
  match r.hashReq with
  | some _ => 2 * (requestsOf r.word s - (r.hashDone + 1)) + 2
  | none => 2 * (requestsOf r.word s - r.hashDone) + 1

theorem movesLeft_waiting {r : Running} {q : HashReq} (hq : r.hashReq = some q) (s : State) :
    movesLeft r s = 2 * (requestsOf r.word s - (r.hashDone + 1)) + 2 := by rw [movesLeft, hq]

theorem movesLeft_free {r : Running} (hq : r.hashReq = none) (s : State) :
    movesLeft r s = 2 * (requestsOf r.word s - r.hashDone) + 1 := by rw [movesLeft, hq]

theorem movesLeft_ne_zero (r : Running) (s : State) : movesLeft r s ≠ 0 := by
  rw [movesLeft]
  split <;> omega

theorem movesLeft_le (r : Running) (s : State) : movesLeft r s ≤ 510 := by
  have := requestsOf_le r.word s
  rw [movesLeft]
  split <;> omega

theorem run_succ {s t : State} (h : step s = .next t) (k : Nat) :
    Core.run Sys2Proof.core (k + 1) s = Core.run Sys2Proof.core k t := by
  simp only [Core.run, show Sys2Proof.core.step s = .next t from h]

/-- A move that leaves the command running takes one from the moves it has left; the last one completes it (R30, R45). -/
theorem progress_takes_one_move {s : State} {r : Running} {n : Nat} (hup : s.hashUp = true) (hn : movesLeft r s = n + 1) :
    (∃ r', progress r s = .next { s with unit := .exec r' } ∧ movesLeft r' s = n) ∨
    (n = 0 ∧ ∃ t, progress r s = .next t ∧ t.unit = .idle ∧ t.done = true) := by
  rcases progress_cases r s with ⟨q, hq, -, h⟩ | ⟨hdown, -⟩ | ⟨hq, hask, h⟩ | ⟨hq, hall, hperform⟩
  case inl =>
    rw [movesLeft_waiting hq] at hn
    exact .inl ⟨_, h, by rw [movesLeft_free rfl]; dsimp only; omega⟩
  case inr.inl => exact absurd (hup.symm.trans hdown) (by decide)
  case inr.inr.inl =>
    rw [movesLeft_free hq] at hn
    exact .inl ⟨_, h, by rw [movesLeft_waiting rfl]; dsimp only; omega⟩
  case inr.inr.inr =>
    rw [movesLeft_free hq] at hn
    refine .inr ⟨by omega, ?_⟩
    rcases hperform with ⟨i, h⟩ | h
    · obtain ⟨t, c, ht, -, hdone, hunit, -⟩ := everyCommandCompletes i s
      exact ⟨t, h.trans ht, hunit, hdone⟩
    · exact ⟨_, h, complete_unit .., complete_done ..⟩

/-- R46, R114: with an answering pipeline and no input, a command completes with the last of the moves it has left. -/
theorem run_movesLeft {n : Nat} {s : State} {r : Running} (hrst : s.rst = false) (hup : s.hashUp = true) (hin : s.inputs = [])
    (hu : s.unit = .exec r) (hn : movesLeft r s = n + 1) :
    ∃ t, Core.run Sys2Proof.core (n + 1) s = .next t ∧ t.unit = .idle ∧ t.done = true := by
  induction n generalizing s r with
  | zero =>
    rcases progress_takes_one_move hup hn with ⟨r', -, h0⟩ | ⟨-, t, ht, hdone⟩
    · exact absurd h0 (movesLeft_ne_zero r' s)
    · exact ⟨t, run_succ ((step_exec hrst hin hu).trans ht) 0, hdone⟩
  | succ n ih =>
    rcases progress_takes_one_move hup hn with ⟨r', h, hn'⟩ | ⟨h0, -⟩
    · rw [run_succ ((step_exec hrst hin hu).trans h)]
      exact ih hrst hup hin rfl hn'
    · cases h0

/-- Settles O57: no command has more than 510 moves left. -/
theorem runningCommandCompletes : Obligations.RunningCommandCompletes := fun s r hrst hup hin hu =>
  have ⟨n, hn⟩ := Nat.exists_eq_succ_of_ne_zero (movesLeft_ne_zero r s)
  ⟨n + 1, hn.symm.trans_le (movesLeft_le r s), run_movesLeft hrst hup hin hu hn⟩

end Sys2Proof.Machine
end

section
/-! Proofs. The host port (10_state.md R15 to R22; 20_memory.md R32, R36 to R40): what an access keeps, what the control registers read as
and how they are written, and that a running command's data neither shows in an access nor is changed by one. -/

namespace Sys2Proof.Machine

open Host

/-! ### What an access keeps -/

/-- What stands outside the unit, and the `rst` level, are as before. -/
def OutsideKept (s t : State) : Prop :=
  t.rst = s.rst ∧ t.hashUp = s.hashUp ∧ t.inputs = s.inputs ∧ t.responses = s.responses

section
variable (s : State)

theorem writeReg_outsideKept (d : Word) (r : CtrlReg) : OutsideKept s (s.writeReg d r) := by
  cases r with
  | ctrl =>
    rw [State.writeReg, State.writeCtrl]
    split <;> exact ⟨rfl, rfl, rfl, rfl⟩
  | _ => exact ⟨rfl, rfl, rfl, rfl⟩

theorem writeTarget_outsideKept (d : Word) (t : Target) : OutsideKept s (s.writeTarget d t) := by
  cases t with
  | reg r => exact writeReg_outsideKept s d r
  | byte a => rw [State.writeTarget, memWrite_eq]; exact ⟨rfl, rfl, rfl, rfl⟩
  | word a => rw [writeTarget_word_eq]; exact ⟨rfl, rfl, rfl, rfl⟩

theorem hostRead_outsideKept (addr : Addr) (width : Nat) : OutsideKept s (hostRead addr width s).1 := by
  rcases hostRead_cases addr width s with ⟨-, h⟩ | ⟨t, -, -, h⟩ | ⟨t, -, -, h⟩ <;> rw [h] <;> exact ⟨rfl, rfl, rfl, rfl⟩

theorem hostWrite_outsideKept (addr : Addr) (width : Nat) (d : Word) : OutsideKept s (hostWrite addr width d s).1 := by
  rcases hostWrite_cases addr width d s with ⟨-, h⟩ | ⟨t, -, -, h⟩ | ⟨t, -, -, h⟩ <;> rw [h]
  case inr.inr => exact writeTarget_outsideKept s d t
  all_goals exact ⟨rfl, rfl, rfl, rfl⟩

end

/-- With `rst` released an access is the port's effect with its answer recorded. -/
theorem answered_of_outsideKept {s : State} {r : State × HostAnswer} (hrst : s.rst = false) (h : OutsideKept s r.1) :
    answered r = { r.1 with responses := r.2 :: s.responses } := by
  obtain ⟨hr, -, -, hresp⟩ := h
  rw [answered_released (hr.trans hrst), hresp]

/-- Settles O9: the oldest input is a host access, and with `rst` released its answer is recorded on those so far. -/
theorem stepServesHostAccess : Obligations.StepServesHostAccess := by
  refine ⟨fun s a width rest hrst hin => ?read, fun s a width d rest hrst hin => ?write⟩
  all_goals rw [step_of_input hin, serve]
  case read => rw [answered_of_outsideKept (s := { s with inputs := rest }) hrst (hostRead_outsideKept ..)]
  case write => rw [answered_of_outsideKept (s := { s with inputs := rest }) hrst (hostWrite_outsideKept ..)]

/-- Settles O8: in IDLE the write to CMD is served, and its effect is acceptance. -/
theorem cmdWriteAcceptsWord : Obligations.CmdWriteAcceptsWord := by
  obtain ⟨-, write⟩ := stepServesHostAccess
  intro s w rest hrst hu hin
  have accepted : hostWrite 0x000C 32 w { s with inputs := rest } = ({ s with inputs := rest }.accept w, .write .ok) :=
    hostWrite_served (s := { s with inputs := rest }) (t := .reg .cmd) rfl (.inl (busy_of_idle hu)) w
  rw [write s 0x000C 32 w rest hrst hin, accepted]
  rfl

/-! ### Bytes of the data windows -/

/-- Settles O48: an 8-bit access has its byte for target, and one data-window write reaches one byte. -/
theorem byteAccessMovesOneByte : Obligations.ByteAccessMovesOneByte := by
  intro a s hu hs hw
  refine ⟨hostRead_served (target_byte hw) (.inl (busy_of_idle hu)), fun d =>
    ⟨_, hostWrite_served (target_byte hw) (.inl (busy_of_idle hu)) d, ?written, fun b _ hb => ?others, memWrite_eq ..⟩⟩
  case written => exact (memRead_memWrite hs ..).trans (if_pos rfl)
  case others => exact (memRead_memWrite hs ..).trans (if_neg hb.symm)

/-! ### The control registers -/

section
variable (s : State)

theorem ctrlWord_bits : s.ctrlWord.getLsbD 0 = s.ie ∧ s.ctrlWord.getLsbD 1 = s.nothresh ∧ s.ctrlWord.extractLsb' 2 30 = 0 := by
  rw [State.ctrlWord]
  cases s.ie <;> cases s.nothresh <;> decide

theorem busy_eq_decide : s.busy = decide (s.unit ≠ .idle) := by
  rw [State.busy]
  cases s.unit <;> simp

/-- The number STATUS shows is its code's in R92's table. -/
theorem errBits_mem_resultCodes (c : ErrCode) : (c, errBits c) ∈ resultCodes := by
  cases c <;> decide

theorem statusWord_err : s.statusWord.extractLsb' 8 4 = errBits s.err := by
  simp only [State.statusWord, BitVec.extractLsb'_append_eq_of_le, BitVec.extractLsb'_append_eq_right, Nat.reduceLeDiff, Nat.reduceSub]

theorem statusWord_reserved : s.statusWord.extractLsb' 4 4 = 0 ∧ s.statusWord.extractLsb' 12 20 = 0 := by
  simp only [State.statusWord, BitVec.extractLsb'_append_eq_of_le, BitVec.extractLsb'_append_eq_right, BitVec.extractLsb'_eq_self,
    Nat.reduceLeDiff, Nat.reduceSub]
  exact ⟨rfl, rfl⟩

theorem statusWord_flags : s.statusWord.getLsbD 0 = s.busy ∧ s.statusWord.getLsbD 1 = s.done ∧ s.statusWord.getLsbD 2 = s.ovr ∧
    s.statusWord.getLsbD 3 = s.invz := by
  simp only [State.statusWord, BitVec.getLsbD_append]
  cases s.busy <;> cases s.done <;> cases s.ovr <;> cases s.invz <;> exact ⟨rfl, rfl, rfl, rfl⟩

/-- A register R38 serves is read busy or not, and a read changes nothing. -/
theorem hostRead_reg {addr : Addr} {r : CtrlReg} (ht : target addr 32 = some (.reg r))
    (h : s.unit = .idle ∨ servedRead (.reg r) = true) : hostRead addr 32 s = (s, .read (s.readReg r) .ok) :=
  hostRead_served ht (h.imp_left busy_of_idle)

/-- A register R38 serves is written busy or not. -/
theorem hostWrite_reg {addr : Addr} {r : CtrlReg} (ht : target addr 32 = some (.reg r))
    (h : s.unit = .idle ∨ servedWrite (.reg r) = true) (d : Word) : hostWrite addr 32 d s = (s.writeReg d r, .write .ok) :=
  hostWrite_served ht (h.imp_left busy_of_idle) d

end

/-- Settles O49: each read is served and returns its register, CTRL and STATUS bit by bit. -/
theorem controlRegisterReads : Obligations.ControlRegisterReads := by
  intro s
  obtain ⟨hie, hnothresh, hctrl⟩ := ctrlWord_bits s
  obtain ⟨hbusy, hdone, hovr, hinvz⟩ := statusWord_flags s
  obtain ⟨hlow, hhigh⟩ := statusWord_reserved s
  refine ⟨hostRead_reg s (r := .id) rfl (.inr rfl), ⟨_, hostRead_reg s (r := .ctrl) rfl (.inr rfl), hie, hnothresh, hctrl⟩,
    ⟨_, hostRead_reg s (r := .status) rfl (.inr rfl), hbusy.trans (busy_eq_decide s), hdone, hovr, hinvz, hlow, ?code, hhigh⟩,
    hostRead_reg s (r := .cmd) rfl (.inr rfl), hostRead_reg s (r := .ccnt) rfl (.inr rfl),
    hostRead_reg s (r := .cmdlog) rfl (.inr rfl), fun hu => ⟨hostRead_reg s (r := .cfgB) rfl (.inl hu),
      hostRead_reg s (r := .cfgN) rfl (.inl hu), hostRead_reg s (r := .cfgT) rfl (.inl hu),
      hostRead_reg s (r := .cfgK) rfl (.inl hu), hostRead_reg s (r := .sidLen) rfl (.inl hu)⟩⟩
  case code => exact (statusWord_err s).symm ▸ errBits_mem_resultCodes s.err

/-- A write of 1 clears, a write of 0 keeps (R17). -/
theorem writeStatus_eq (s : State) (d : Word) : s.writeStatus d = { s with
    done := if d.getLsbD 1 then false else s.done, ovr := if d.getLsbD 2 then false else s.ovr,
    invz := if d.getLsbD 3 then false else s.invz } := by
  have clears (flag bit : Bool) : (flag && !bit) = if bit then false else flag := by cases bit <;> simp
  rw [State.writeStatus, clears, clears, clears]

/-- Settles O50: each write is served, and a configuration register keeps the low byte. -/
theorem controlRegisterWrites : Obligations.ControlRegisterWrites := by
  intro s d
  have lowByte : d.extractLsb' 0 8 = d.setWidth 8 := (BitVec.setWidth_eq_extractLsb' (by decide)).symm
  rw [← writeStatus_eq, lowByte]
  exact ⟨hostWrite_reg s (r := .id) rfl (.inr rfl) d, hostWrite_reg s (r := .ccnt) rfl (.inr rfl) d,
    hostWrite_reg s (r := .cmdlog) rfl (.inr rfl) d, hostWrite_ctrl s, hostWrite_status s d,
    fun hu => ⟨hostWrite_reg s (r := .cfgB) rfl (.inl hu) d, hostWrite_reg s (r := .cfgN) rfl (.inl hu) d,
      hostWrite_reg s (r := .cfgT) rfl (.inl hu) d, hostWrite_reg s (r := .cfgK) rfl (.inl hu) d,
      hostWrite_reg s (r := .sidLen) rfl (.inl hu) d⟩⟩

/-! ### Data does not show while BUSY -/

section
variable (s : State) (g : Vector Byte 16) (m : Memory)

theorem readReg_with_data (r : CtrlReg) : { s with g := g, mem := m }.readReg r = s.readReg r := by
  cases r <;> rfl

theorem writeReg_with_data (d : Word) (r : CtrlReg) :
    ∃ g' m', { s with g := g, mem := m }.writeReg d r = { s.writeReg d r with g := g', mem := m' } := by
  cases r with
  | ctrl =>
    rw [State.writeReg, State.writeReg, State.writeCtrl, State.writeCtrl]
    split <;> exact ⟨_, _, rfl⟩
  | _ => exact ⟨_, _, rfl⟩

end

/-- R38 serves reads of control registers alone. -/
theorem exists_reg_of_servedRead {t : Target} (h : servedRead t = true) : ∃ r, t = .reg r := by
  cases t with
  | reg r => exact ⟨r, rfl⟩
  | byte a => cases h
  | word a => cases h

/-- R38 serves writes of control registers alone. -/
theorem exists_reg_of_servedWrite {t : Target} (h : servedWrite t = true) : ∃ r, t = .reg r := by
  cases t with
  | reg r => exact ⟨r, rfl⟩
  | byte a => cases h
  | word a => cases h

/-- Settles O59: a busy unit serves control registers alone, whose values and writes do not involve the data. -/
theorem busyHidesData : Obligations.BusyHidesData := by
  intro s g m hb
  have hb' : { s with g := g, mem := m }.busy = true := hb
  refine ⟨fun a w => ?read, fun a w d => ?write⟩
  case read =>
    cases ht : target a w with
    | none => unfold hostRead; rw [ht]; exact ⟨rfl, g, m, rfl⟩
    | some t =>
      cases hserved : servedRead t with
      | true =>
        obtain ⟨r, rfl⟩ := exists_reg_of_servedRead hserved
        rw [hostRead_served ht (.inr hserved), hostRead_served ht (.inr hserved), State.readTarget, readReg_with_data]
        exact ⟨rfl, g, m, rfl⟩
      | false =>
        rw [readRefused_of_busy hb ht hserved, readRefused_of_busy hb' ht hserved]
        exact ⟨rfl, g, m, rfl⟩
  case write =>
    cases ht : target a w with
    | none => unfold hostWrite; rw [ht]; exact ⟨rfl, g, m, rfl⟩
    | some t =>
      cases hserved : servedWrite t with
      | true =>
        obtain ⟨r, rfl⟩ := exists_reg_of_servedWrite hserved
        rw [hostWrite_served ht (.inr hserved), hostWrite_served ht (.inr hserved)]
        exact ⟨rfl, writeReg_with_data s g m d r⟩
      | false =>
        rw [writeRefused_of_busy hb ht hserved, writeRefused_of_busy hb' ht hserved]
        exact ⟨rfl, g, m, rfl⟩

/-! ### A running command is not disturbed -/

/-- `s` with what a host access to a busy unit may change taken from `f`: CTRL, the W1C bits of STATUS, and the record of answers. -/
def State.withPortFlagsOf (s f : State) : State :=
  { s with ie := f.ie, nothresh := f.nothresh, done := f.done, ovr := f.ovr, invz := f.invz, responses := f.responses }

theorem ctrlRegAt_eq_ctrl {a : Nat} (h : ctrlRegAt a = some .ctrl) : a / 4 = 1 := by
  unfold ctrlRegAt at h
  split at h
  case h_2 hk => exact hk
  all_goals cases h

/-- CTRL is at 0x0004, and is written whole (R33, R37). -/
theorem target_eq_ctrl {addr : Addr} {width : Nat} (h : target addr width = some (.reg .ctrl)) : addr = 0x0004 ∧ width = 32 := by
  rcases target_cases h with ⟨hw, h4, -, r, hr, hreg⟩ | ⟨-, -, -, hword⟩ | ⟨-, -, hbyte⟩
  case inl =>
    cases hreg
    have := ctrlRegAt_eq_ctrl hr
    exact ⟨BitVec.eq_of_toNat_eq (by show addr.toNat = 4; omega), hw⟩
  case inr.inl => cases hword
  case inr.inr => cases hbyte

/-- A write R38 serves, short of a soft reset, changes CTRL or the W1C bits alone. -/
theorem writeReg_served_eq (s : State) {d : Word} {r : CtrlReg} (hserved : servedWrite (.reg r) = true)
    (hd : r = .ctrl → d.getLsbD 31 = false) : s.writeReg d r = s.withPortFlagsOf (s.writeReg d r) := by
  cases r with
  | ctrl => rw [State.writeReg, State.writeCtrl, hd rfl]; rfl
  | id | status | ccnt | cmdlog => rfl
  | cmd | cfgB | cfgN | cfgT | cfgK | sidLen => cases hserved

/-- A host access while a command runs, short of a soft reset, changes CTRL, the W1C bits and the record of answers alone (R38). -/
theorem busy_access_eq {s t : State} {r : Running} {x : Input} (hrst : s.rst = false) (hu : s.unit = .exec r)
    (hx : (∃ a w, x = .read a w) ∨ (∃ a w d, x = .write a w d ∧ ¬ (a = 0x0004 ∧ w = 32 ∧ d.getLsbD 31 = true)))
    (h : serve x s = .next t) : t = s.withPortFlagsOf t := by
  rcases hx with ⟨a, w, rfl⟩ | ⟨a, w, d, rfl, hsoft⟩
  case inl =>
    rw [serve, answered_of_outsideKept hrst (hostRead_outsideKept s a w)] at h
    rcases hostRead_cases a w s with ⟨-, he⟩ | ⟨-, -, -, he⟩ | ⟨tgt, -, -, he⟩
    all_goals rw [he] at h; cases h; rfl
  case inr =>
    rw [serve, answered_of_outsideKept hrst (hostWrite_outsideKept s a w d)] at h
    rcases hostWrite_cases a w d s with ⟨-, he⟩ | ⟨-, -, -, he⟩ | ⟨tgt, ht, hserved, he⟩
    all_goals rw [he] at h; cases h
    case inl | inr.inl => rfl
    case inr.inr =>
      have hbusy : s.busy = true := by rw [State.busy, hu]
      rw [hbusy, Bool.true_and, Bool.not_eq_false'] at hserved
      obtain ⟨reg, rfl⟩ := exists_reg_of_servedWrite hserved
      rw [State.writeTarget, writeReg_served_eq s hserved]
      · rfl
      · rintro rfl
        obtain ⟨ha, hw⟩ := target_eq_ctrl ht
        exact Bool.eq_false_iff.mpr fun hd => hsoft ⟨ha, hw, hd⟩

section
variable (s f : State)

theorem memWrite_withPortFlagsOf (a : Nat) (v : Byte) :
    (s.withPortFlagsOf f).memWrite a v = (s.memWrite a v).withPortFlagsOf f := by
  rw [State.memWrite, State.memWrite]
  split <;> rfl

theorem setBytes_withPortFlagsOf (a : Nat) (vs : List Byte) :
    (s.withPortFlagsOf f).setBytes a vs = (s.setBytes a vs).withPortFlagsOf f := by
  induction vs generalizing s a with
  | nil => rfl
  | cons v vs ih => exact ih (s.setByte a v) (a + 1)

theorem deriveRows_withPortFlagsOf (s0 : State) (n j : Nat) :
    deriveRows (s0.withPortFlagsOf f) n j (s.withPortFlagsOf f) = (deriveRows s0 n j s).withPortFlagsOf f := by
  induction n generalizing s j with
  | zero => rfl
  | succ n ih => rw [deriveRows, deriveRows, setBytes_withPortFlagsOf, ih]; rfl

theorem evalSlot_withPortFlagsOf (xs : Bool) (i : Nat) :
    evalSlot xs (s.withPortFlagsOf f) i = (evalSlot xs s i).withPortFlagsOf f :=
  setBytes_withPortFlagsOf (s.setByte (xAddr i) (s.evalIndex xs i)) f ..

theorem evalSlots_withPortFlagsOf (xs : Bool) (n : Nat) :
    evalSlots xs n (s.withPortFlagsOf f) = (evalSlots xs n s).withPortFlagsOf f :=
  List.foldl_hom (State.withPortFlagsOf · f) fun s i => evalSlot_withPortFlagsOf s f xs i

theorem lagrangeCombine_withPortFlagsOf (n : Nat) :
    lagrangeCombine n (s.withPortFlagsOf f) = (lagrangeCombine n s).withPortFlagsOf f := by
  have hbasis : (s.withPortFlagsOf f).withBasis n = (s.withBasis n).withPortFlagsOf f := setBytes_withPortFlagsOf ..
  rw [lagrangeCombine_eq_setBytes, lagrangeCombine_eq_setBytes, hbasis]
  exact setBytes_withPortFlagsOf ..

end

/-- Two outcomes are the same but for what a host access to a busy unit may change. -/
def SameButPortFlags (o p : Outcome State Fault Refusal) : Prop :=
  ∃ (c : ErrCode) (u f : State), o = .next (u.complete c) ∧ p = .next ((u.withPortFlagsOf f).complete c)

section
variable {s : State} {r : Running} (hu : s.unit = .exec r) (f : State)

theorem succeed_withPortFlagsOf (s f : State) : SameButPortFlags (succeed s) (succeed (s.withPortFlagsOf f)) :=
  ⟨.success, s, f, rfl, rfl⟩

/-- Checks that do not see the flags stop a command alike, and let it through to its work alike. -/
theorem checked_withPortFlagsOf {e : Option ErrCode} {o p : Outcome State Fault Refusal} (h : SameButPortFlags o p) :
    SameButPortFlags (checked e s o) (checked e (s.withPortFlagsOf f) p) := by
  cases e with
  | none => exact h
  | some c => exact ⟨c, s, f, rfl, rfl⟩

theorem compareSecret_withPortFlagsOf (s f : State) :
    SameButPortFlags (compareSecret s) (compareSecret (s.withPortFlagsOf f)) := by
  have hsame : compareSecret (s.withPortFlagsOf f) = if s.bytes (rAddr 0) s.numB = s.bytes (cAddr 0 0) s.numB then
      succeed (s.withPortFlagsOf f) else raise .internalFailure (s.withPortFlagsOf f) := rfl
  rw [hsame, compareSecret]
  split
  · exact succeed_withPortFlagsOf ..
  · exact ⟨.internalFailure, s, f, rfl, rfl⟩

include hu

theorem recoveryError_withPortFlagsOf : recoveryError (s.withPortFlagsOf f) = recoveryError s := by
  have hn : (s.withPortFlagsOf f).commandNothresh = s.commandNothresh := by
    simp only [State.commandNothresh, State.withPortFlagsOf, hu]
  rw [recoveryError, recoveryError, hn]
  rfl

/-- R111, R112: in EXEC no command reads what a host access to a busy unit may change. -/
theorem exec_withPortFlagsOf (i : Instr) : SameButPortFlags (exec i s) (exec i (s.withPortFlagsOf f)) := by
  cases i with
  | nop | zero | gadd _ _ _ | gaddi _ _ _ | gmul _ _ _ | gmuli _ _ _ | gexp _ _ _ | gexpi _ _ _ | gli _ _ =>
    exact succeed_withPortFlagsOf ..
  | ginv rd rs1 =>
    exact ⟨.success, (s.noteInverse (s.reg rs1)).setReg rd (ginv (s.reg rs1)), f.noteInverse (s.reg rs1), rfl, rfl⟩
  | gld rd a => exact checked_withPortFlagsOf f (succeed_withPortFlagsOf ..)
  | gst rt a =>
    refine checked_withPortFlagsOf f ?_
    rw [memWrite_withPortFlagsOf]
    exact succeed_withPortFlagsOf ..
  | derive =>
    refine checked_withPortFlagsOf f ?_
    rw [deriveRows_withPortFlagsOf]
    exact succeed_withPortFlagsOf ..
  | eval xs =>
    refine checked_withPortFlagsOf f ?_
    rw [evalSlots_withPortFlagsOf]
    exact succeed_withPortFlagsOf ..
  | recon =>
    rw [exec, exec, execRecon, execRecon, recoveryError_withPortFlagsOf hu, lagrangeCombine_withPortFlagsOf]
    exact checked_withPortFlagsOf f (succeed_withPortFlagsOf ..)
  | verify =>
    refine checked_withPortFlagsOf f ?_
    rw [lagrangeCombine_withPortFlagsOf]
    exact compareSecret_withPortFlagsOf ..

end

/-- Settles O58: the access changes what no running command reads. -/
theorem busyAccessesDoNotDisturbCommand : Obligations.BusyAccessesDoNotDisturbCommand := by
  intro s r x t hrst hu hx h
  have ht := busy_access_eq hrst hu hx h
  refine ⟨(congrArg State.unit ht).trans hu, fun i => ?_⟩
  obtain ⟨c, u, f, hs, hsame⟩ := exec_withPortFlagsOf hu t i
  rw [← ht] at hsame
  exact ⟨_, _, hs, hsame, rfl, rfl, rfl, rfl, rfl⟩

end Sys2Proof.Machine
end

section
/-! Proofs. What every step keeps (10_state.md section 4; 20_memory.md R33, R45; 70_reset_and_hazards.md R105 to R108). With `rst` asserted
the state is a reset one, which meets the invariant. With it released, a step ends in a state that is idle with sound memory, or reset,
or running as the invariant asks, or as before but for flags the invariant does not fix. -/

namespace Sys2Proof.Machine

open Host

/-! ### Reset -/

/-- While `rst` is asserted and its level does not change, whatever is served leaves the state a reset one (R105). -/
theorem serve_held {s t : State} {x : Input} (hrst : s.rst = true) (hs : s = s.resetElements) (hx : ∀ level, x ≠ .rst level)
    (h : serve x s = .next t) : t.rst = true ∧ t = t.resetElements := by
  cases x with
  | turn => rw [serve, turn_rst hrst] at h; cases h; exact ⟨hrst, hs⟩
  | rst level => exact absurd rfl (hx level)
  | pipeline up => rw [serve, hs] at h; cases h; exact ⟨hrst, rfl⟩
  | read a w =>
    have hkept := (hostRead_outsideKept s a w).1.trans hrst
    rw [serve, answered_held hkept] at h
    cases h; exact ⟨hkept, rfl⟩
  | write a w d =>
    have hkept := (hostWrite_outsideKept s a w d).1.trans hrst
    rw [serve, answered_held hkept] at h
    cases h; exact ⟨hkept, rfl⟩

theorem irq_of_reset {t : State} (h : t = t.resetElements) : t.irq = false := by
  rw [h]; exact irq_of_not_done (resetElements_done t)

/-- Settles O53: the pin puts every element at its reset value, what is served while it is high keeps them there, and a turn ends CLEAR. -/
theorem rstHoldsThenClears : Obligations.RstHoldsThenClears := by
  refine ⟨fun s => ⟨_, serve_rst_assert, rfl, rfl, irq_of_reset rfl⟩, fun s t x hrst hs hx h => ?held,
    fun s hrst => ⟨_, serve_rst_release hrst, rfl, rfl, rfl⟩, fun s => turn_clear⟩
  case held =>
    obtain ⟨ht, hreset⟩ := serve_held hrst hs hx h
    exact ⟨ht, hreset, irq_of_reset hreset⟩

/-- Settles O52: the reset values, and CLEAR's one turn. -/
theorem resetValues : Obligations.ResetValues := by
  refine ⟨rfl, rfl, rfl, rfl, rfl, rfl, rfl, rfl, rfl, rfl, rfl, rfl, rfl, rfl, rfl, by decide, fun _ => rfl, rfl, rfl,
    { State.reset with unit := .idle }, ?clears, rfl, rfl⟩
  case clears => rw [step_of_no_input rfl, turn_clear rfl rfl]

/-! ### States that meet the invariant -/

section
variable {s t : State}

/-- A state at its reset values. -/
theorem invariant_of_reset (h : t = t.resetElements) : Invariant t := by
  have hmem : t.mem = [] := congrArg State.mem h
  have hunit : t.unit = .clear := congrArg State.unit h
  obtain ⟨hwf, hmapped⟩ := memOk_nil
  have notRunning {r : Running} (hr : t.unit = .exec r) : False := by cases hunit.symm.trans hr
  exact {
    canonical := hmem ▸ hwf
    mapped := hmem ▸ hmapped
    running := fun r hr => (notRunning hr).elim
    requests := fun r hr => (notRunning hr).elim
    pending := fun r q hr => (notRunning hr).elim
    cleared := fun _ => by rw [h]; exact ⟨rfl, rfl, rfl, rfl, rfl, rfl, rfl, rfl, rfl, rfl, rfl, rfl⟩
    held := fun _ => h }

/-- With `rst` released, an idle unit need only have sound memory. -/
theorem invariant_of_idle (hrst : t.rst = false) (hu : t.unit = .idle) (hm : MemOk t.mem) : Invariant t where
  canonical := hm.1
  mapped := hm.2
  running r hr := by cases hu.symm.trans hr
  requests r hr := by cases hu.symm.trans hr
  pending r q hr := by cases hu.symm.trans hr
  cleared hc := by cases hu.symm.trans hc
  held h := by cases hrst.symm.trans h

theorem Invariant.memOk (h : Invariant s) : MemOk s.mem := ⟨h.canonical, h.mapped⟩

/-- With `rst` released, the invariant lets the flags of CTRL and STATUS and what stands outside the unit be anything, but for DONE and
INVZ set where they were clear. -/
theorem Invariant.with_flags (h : Invariant s) (hrst : s.rst = false) {done invz : Bool} (hdone : s.done = false → done = false)
    (hinvz : s.invz = false → invz = false) (ie nothresh ovr hashUp : Bool) (inputs : List Input) (responses : List HostAnswer) :
    Invariant { s with
      ie := ie, nothresh := nothresh, done := done, ovr := ovr, invz := invz, hashUp := hashUp, inputs := inputs,
      responses := responses } where
  canonical := h.canonical
  mapped := h.mapped
  running r hr := (h.running r hr).imp_right hdone
  requests r hr := (h.requests r hr).trans_eq (requestsOf_congr _ rfl rfl rfl).symm
  pending r q hr hq := (h.pending r q hr hq).trans (request_congr _ rfl rfl rfl rfl).symm
  cleared hc := by
    obtain ⟨hg, hm, hd, hz, hrest⟩ := h.cleared hc
    exact ⟨hg, hm, hdone hd, hinvz hz, hrest⟩
  held hr := by cases hrst.symm.trans hr

/-- With `rst` released, a running command may move on to what its word and the requests made so far allow. -/
theorem Invariant.with_running (h : Invariant s) (hrst : s.rst = false) {r : Running} (hword : s.cmdlog = r.word)
    (hdone : s.done = false) (hreq : r.hashDone + r.outstanding ≤ requestsOf r.word s)
    (hpending : ∀ q, r.hashReq = some q → q = s.request (r.hashDone + 1)) : Invariant { s with unit := .exec r } where
  canonical := h.canonical
  mapped := h.mapped
  running _ hr := by cases hr; exact ⟨hword, hdone⟩
  requests _ hr := by cases hr; exact hreq.trans_eq (requestsOf_congr _ rfl rfl rfl).symm
  pending _ q hr hq := by cases hr; exact (hpending q hq).trans (request_congr _ rfl rfl rfl rfl).symm
  cleared hc := by cases hc
  held hr := by cases hrst.symm.trans hr

/-! ### The unit's moves -/

theorem outstanding_of_waiting {r : Running} {q : HashReq} (hq : r.hashReq = some q) : r.outstanding = 1 := by
  rw [Running.outstanding, if_neg (by simp [hq])]

theorem invariant_of_exec {i : Instr} (h : Invariant s) (hrst : s.rst = false) (ht : exec i s = .next t) : Invariant t := by
  obtain ⟨-, -, hunit, hkept⟩ := completed_of_exec ht
  obtain ⟨-, -, -, -, -, -, -, -, -, -, htrst, -⟩ := hkept
  exact invariant_of_idle (htrst.trans hrst) hunit (memOk_exec h.memOk ht)

theorem invariant_of_progress {r : Running} (h : Invariant s) (hrst : s.rst = false) (hu : s.unit = .exec r)
    (ht : progress r s = .next t) : Invariant t := by
  obtain ⟨hword, hdone⟩ := h.running r hu
  have hreq := h.requests r hu
  rcases progress_cases r s with ⟨q, hq, -, he⟩ | ⟨-, he⟩ | ⟨hq, hask, he⟩ | ⟨-, -, ⟨i, he⟩ | he⟩ <;> rw [he] at ht
  case inl =>
    cases ht
    rw [outstanding_of_waiting hq] at hreq
    exact h.with_running hrst hword hdone hreq nofun
  case inr.inl => cases ht; exact h
  case inr.inr.inl =>
    cases ht
    refine h.with_running hrst hword hdone hask fun q hq' => ?_
    cases hq'; rfl
  case inr.inr.inr.inl => exact invariant_of_exec h hrst ht
  case inr.inr.inr.inr => cases ht; exact invariant_of_idle hrst rfl h.memOk

theorem invariant_of_turn (h : Invariant s) (ht : turn s = .next t) : Invariant t := by
  rcases Bool.eq_false_or_eq_true s.rst with hrst | hrst
  · rw [turn_rst hrst] at ht; cases ht; exact h
  · cases hu : s.unit with
    | idle => rw [turn_idle hrst hu] at ht; cases ht; exact h
    | clear => rw [turn_clear hrst hu] at ht; cases ht; exact invariant_of_idle hrst rfl h.memOk
    | exec r => rw [turn_exec hrst hu] at ht; exact invariant_of_progress h hrst hu ht

/-! ### The host's accesses -/

theorem unit_of_not_busy (h : s.busy = false) : s.unit = .idle := by
  rw [busy_eq_decide] at h
  simpa using h

theorem invariant_of_writeReg (h : Invariant s) (hrst : s.rst = false) (d : Word) {r : CtrlReg}
    (hserved : (s.busy && !servedWrite (.reg r)) = false) : Invariant (s.writeReg d r) := by
  have hidle (hr : servedWrite (.reg r) = false) : s.unit = .idle := unit_of_not_busy (by simpa [hr] using hserved)
  cases r with
  | id | ccnt | cmdlog => exact h
  | ctrl =>
    rw [State.writeReg, State.writeCtrl]
    split
    · exact invariant_of_reset rfl
    · exact h.with_flags hrst id id ..
  | status => exact h.with_flags hrst (fun hd => by simp [hd]) (fun hz => by simp [hz]) ..
  | cmd =>
    have accepted : Invariant { s with ccnt := s.ccnt + 1, cmdlog := d, done := false } :=
      invariant_of_idle hrst (hidle rfl) h.memOk
    exact accepted.with_running hrst rfl rfl (Nat.zero_le _) nofun
  | cfgB | cfgN | cfgT | cfgK | sidLen => exact invariant_of_idle hrst (hidle rfl) h.memOk

theorem invariant_of_writeTarget (h : Invariant s) (hrst : s.rst = false) {addr : Addr} {width : Nat} {tgt : Target}
    (htgt : target addr width = some tgt) (d : Word) (hserved : (s.busy && !servedWrite tgt) = false) :
    Invariant (s.writeTarget d tgt) := by
  obtain ⟨htrst, -⟩ := writeTarget_outsideKept s d tgt
  have hidle (hdata : servedWrite tgt = false) : s.unit = .idle := unit_of_not_busy (by simpa [hdata] using hserved)
  rcases target_cases htgt with ⟨-, -, -, r, -, rfl⟩ | ⟨-, -, hw, rfl⟩ | ⟨-, hb, rfl⟩
  case inl => exact invariant_of_writeReg h hrst d hserved
  case inr.inl =>
    obtain ⟨h0, h1, h2, h3⟩ := (wordMapped_iff _).mp hw
    refine invariant_of_idle (htrst.trans hrst) ((congrArg State.unit (writeTarget_word_eq ..)).trans (hidle rfl)) ?_
    exact memOk_memWrite (memOk_memWrite (memOk_memWrite (memOk_memWrite h.memOk h0 _) h1 _) h2 _) h3 _
  case inr.inr =>
    exact invariant_of_idle (htrst.trans hrst) ((memWrite_unit ..).trans (hidle rfl)) (memOk_memWrite h.memOk hb _)

theorem invariant_of_hostRead (h : Invariant s) (hrst : s.rst = false) (addr : Addr) (width : Nat) :
    Invariant (hostRead addr width s).1 := by
  rcases hostRead_cases addr width s with ⟨-, he⟩ | ⟨-, -, -, he⟩ | ⟨tgt, -, -, he⟩ <;> rw [he]
  case inr.inl => exact h.with_flags hrst id id ..
  all_goals exact h

theorem invariant_of_hostWrite (h : Invariant s) (hrst : s.rst = false) (addr : Addr) (width : Nat) (d : Word) :
    Invariant (hostWrite addr width d s).1 := by
  rcases hostWrite_cases addr width d s with ⟨-, he⟩ | ⟨-, -, -, he⟩ | ⟨tgt, htgt, hserved, he⟩ <;> rw [he]
  case inl => exact h
  case inr.inl => exact h.with_flags hrst id id ..
  case inr.inr => exact invariant_of_writeTarget h hrst htgt d hserved

/-- Recording an answer keeps the invariant. -/
theorem invariant_of_answered {r : State × HostAnswer} (hrst : s.rst = false) (hkept : OutsideKept s r.1) (h : Invariant r.1) :
    Invariant (answered r) := by
  rw [answered_of_outsideKept hrst hkept]
  exact h.with_flags (hkept.1.trans hrst) id id ..

/-! ### Every step -/

theorem invariant_of_setRst (h : Invariant s) (level : Bool) : Invariant (setRst level s) := by
  rw [setRst]
  split
  · exact invariant_of_reset rfl
  · exact h

theorem invariant_of_serve {x : Input} (h : Invariant s) (ht : serve x s = .next t) : Invariant t := by
  by_cases hx : ∃ level, x = .rst level
  · obtain ⟨level, rfl⟩ := hx
    cases ht; exact invariant_of_setRst h level
  rcases Bool.eq_false_or_eq_true s.rst with hrst | hrst
  · exact invariant_of_reset (serve_held hrst (h.held hrst) (not_exists.mp hx) ht).2
  cases x with
  | turn => exact invariant_of_turn h ht
  | pipeline up => cases ht; exact h.with_flags hrst id id ..
  | rst level => exact absurd ⟨level, rfl⟩ hx
  | read addr width =>
    cases ht
    exact invariant_of_answered hrst (hostRead_outsideKept ..) (invariant_of_hostRead h hrst addr width)
  | write addr width d =>
    cases ht
    exact invariant_of_answered hrst (hostWrite_outsideKept ..) (invariant_of_hostWrite h hrst addr width d)

/-- What the outside is still to do is no part of the invariant. -/
theorem Invariant.with_inputs (h : Invariant s) (inputs : List Input) : Invariant { s with inputs := inputs } := by
  rcases Bool.eq_false_or_eq_true s.rst with hrst | hrst
  · exact invariant_of_reset (congrArg (fun u => { u with inputs := inputs }) (h.held hrst))
  · exact h.with_flags hrst id id ..

end

/-- Settles O56: a step is a turn, or an input served with the others left waiting, and each keeps the invariant. -/
theorem stepKeepsInvariant : Obligations.StepKeepsInvariant := by
  intro s t h ht
  cases hin : s.inputs with
  | nil =>
    rw [step_of_no_input hin] at ht
    exact invariant_of_turn h ht
  | cons x rest =>
    rw [step_of_input hin] at ht
    exact invariant_of_serve (h.with_inputs rest) ht

/-- Settles O55: the state after reset is at its reset values. -/
theorem resetMeetsInvariant : Obligations.ResetMeetsInvariant := invariant_of_reset rfl

end Sys2Proof.Machine
end

section
/-! Proofs. What a command's code and INVZ can be (60_exceptions.md R92; 40_field.md R63, R68): a check reports its own codes, a command's
work succeeds or, in VERIFY, fails its comparison, and only GINV notes a flag. -/

namespace Sys2Proof.Machine

open Host

/-! ### The codes each check reports -/

section
variable {s : State} {c : ErrCode}

theorem code_of_addressError {a : Addr} (h : addressError a = some c) : c = .badAddress := by
  rw [addressError] at h
  split at h <;> cases h; rfl

theorem code_of_sharingError (h : sharingError s = some c) : c = .invalidSize := by
  rw [sharingError_eq] at h
  split at h <;> cases h; rfl

theorem code_of_evalIndexError {xs : Bool} (h : evalIndexError xs s = some c) : xs = true ∧ c = .invalidShareIndex := by
  rw [evalIndexError] at h
  split at h
  case isTrue hzero => cases h; exact ⟨(Bool.and_eq_true_iff.mp hzero).1, rfl⟩
  case isFalse => cases h

theorem code_of_indexError {n : Nat} (h : indexError s n = some c) : c = .invalidShareIndex ∨ c = .duplicateShareIndex := by
  rw [indexError] at h
  split_ifs at h <;> cases h
  · exact .inl rfl
  · exact .inr rfl

theorem code_of_recoveryError (h : recoveryError s = some c) : c = .invalidSize ∨ c = .insufficientShares := by
  rw [recoveryError] at h
  split_ifs at h <;> cases h
  · exact .inl rfl
  · exact .inl rfl
  · exact .inr rfl

theorem firstError_cases {a b : Option ErrCode} (h : firstError a b = some c) : a = some c ∨ b = some c := by
  cases a with
  | none => exact .inr h
  | some _ => exact .inl h

end

section
variable {s t : State}

/-- A command whose work succeeds completes with its check's code, or with success. -/
theorem err_of_checked_succeed {e : Option ErrCode} {u : State} (h : checked e s (succeed u) = .next t) :
    e = some t.err ∨ t.err = .success := (checked_cases h).imp_right err_of_succeed

/-- Every command can succeed (R92). -/
theorem success_mem_codesOf (i : Instr) : .success ∈ codesOf i := by
  cases i <;> exact List.mem_cons_self

theorem err_mem_codesOf {i : Instr} (h : exec i s = .next t) : t.err ∈ codesOf i := by
  have ok (hok : t.err = .success) : t.err ∈ codesOf i := hok ▸ success_mem_codesOf i
  cases i with
  | nop | gadd _ _ _ | gaddi _ _ _ | gmul _ _ _ | gmuli _ _ _ | ginv _ _ | gexp _ _ _ | gexpi _ _ _ | gli _ _ | zero =>
    exact ok (err_of_succeed h)
  | gld rd a =>
    refine (err_of_checked_succeed h).elim (fun he => ?_) ok
    simp [code_of_addressError he, codesOf]
  | gst rt a =>
    refine (err_of_checked_succeed h).elim (fun he => ?_) ok
    simp [code_of_addressError he, codesOf]
  | derive =>
    refine (err_of_checked_succeed h).elim (fun he => ?_) ok
    simp [code_of_sharingError he, codesOf]
  | eval xs =>
    refine (err_of_checked_succeed h).elim (fun he => ?_) ok
    rcases firstError_cases he with he | he
    · simp [code_of_sharingError he, codesOf]
    · obtain ⟨rfl, hc⟩ := code_of_evalIndexError he
      simp [hc, codesOf]
  | recon =>
    refine (err_of_checked_succeed h).elim (fun he => ?_) ok
    rcases firstError_cases he with he | he
    · rcases code_of_indexError he with hc | hc <;> simp [hc, codesOf]
    · rcases code_of_recoveryError he with hc | hc <;> simp [hc, codesOf]
  | verify =>
    rcases checked_cases h with he | hwork
    · rcases firstError_cases he with he | he
      · simp [code_of_sharingError he, codesOf]
      · rcases code_of_indexError he with hc | hc <;> simp [hc, codesOf]
    · rcases err_of_compareSecret hwork with hc | hc <;> simp [hc, codesOf]

end

/-- Settles O43: the codes command by command, and STATUS shows the number of any code. -/
theorem commandsRaiseOnlyTheirCodes : Obligations.CommandsRaiseOnlyTheirCodes := fun _ _ t h =>
  ⟨err_mem_codesOf h, (statusWord_err t).symm ▸ errBits_mem_resultCodes t.err⟩

/-! ### INVZ -/

section
variable {s t : State}

theorem deriveRows_invz (s0 : State) (n j : Nat) (s : State) : (deriveRows s0 n j s).invz = s.invz := by rw [deriveRows_eq]

theorem evalSlots_invz (xs : Bool) (n : Nat) (s : State) : (evalSlots xs n s).invz = s.invz := by rw [evalSlots_eq]

theorem lagrangeCombine_invz (n : Nat) (s : State) : (lagrangeCombine n s).invz = s.invz := by rw [lagrangeCombine_eq]

theorem invz_of_succeed {u : State} (h : succeed u = .next t) : t.invz = u.invz := by
  cases h; rfl

theorem invz_of_checked_succeed {e : Option ErrCode} {u : State} (h : checked e s (succeed u) = .next t) (hu : u.invz = s.invz) :
    t.invz = s.invz := by
  cases e with
  | none => exact (invz_of_succeed h).trans hu
  | some c => cases h; rfl

/-- Only GINV touches INVZ, and it sets it for a zero operand (R63, R68). -/
theorem invz_of_exec {i : Instr} (h : exec i s = .next t) :
    t.invz = s.invz ∨ ∃ rd rs1, i = .ginv rd rs1 ∧ t.invz = (s.invz || s.reg rs1 == 0x00#8) := by
  cases i with
  | ginv rd rs1 => exact .inr ⟨rd, rs1, rfl, invz_of_succeed h⟩
  | nop | gadd _ _ _ | gaddi _ _ _ | gmul _ _ _ | gmuli _ _ _ | gexp _ _ _ | gexpi _ _ _ | gli _ _ | zero =>
    cases h; exact .inl rfl
  | gld rd a => exact .inl (invz_of_checked_succeed h rfl)
  | gst rt a => exact .inl (invz_of_checked_succeed h (memWrite_invz ..))
  | derive => exact .inl (invz_of_checked_succeed h (deriveRows_invz ..))
  | eval xs => exact .inl (invz_of_checked_succeed h (evalSlots_invz ..))
  | recon => exact .inl (invz_of_checked_succeed h (lagrangeCombine_invz ..))
  | verify =>
    by_cases hlegal : SharingLegal s
    · rw [exec_verify_of_legal hlegal] at h
      cases he : indexError s s.numT with
      | none =>
        rw [he, checked_none, compareSecret] at h
        split at h <;> cases h <;> exact .inl (lagrangeCombine_invz ..)
      | some c => rw [he] at h; cases h; exact .inl rfl
    · cases (verify_failsWith_invalidSize hlegal).symm.trans h; exact .inl rfl

end

/-- Settles O44: GINV leaves INVZ as it was unless its operand is 0. -/
theorem onlyGinvOfZeroSetsInvz : Obligations.OnlyGinvOfZeroSetsInvz := by
  intro i s t h hne
  rcases invz_of_exec h with hsame | ⟨rd, rs1, hi, hz⟩
  · exact absurd hsame hne
  · have hzero : s.reg rs1 = 0x00#8 := by
      by_contra hnz
      simp [hz, hnz] at hne
    exact ⟨by simp [hz, hzero], rd, rs1, hi, hzero⟩

/-! ### Words and runs of the spec -/

/-- Settles O4: each word's opcode, fields and reserved bits. -/
theorem exampleWordsDecode : Obligations.ExampleWordsDecode := by
  unfold Obligations.ExampleWordsDecode
  decide

/-- Settles O60: the unit's turn between the two writes is what makes the second an acceptance. -/
theorem secondCommandRaceBothWays : Obligations.SecondCommandRaceBothWays := by
  exact ⟨⟨_, rfl, rfl, rfl, rfl, rfl⟩, ⟨_, rfl, rfl, rfl, rfl, rfl⟩⟩

end Sys2Proof.Machine
end

section
/-! Proofs. The field's laws as the spec states them (40_field.md R60, R61, R63), the two scalar commands that rest on them (R66, R68), and
the assembler's lines (30_encoding.md R55, R56), whose GDIV is GINV and then GMUL. -/

namespace Sys2Proof.Machine

/-! ### The shift-and-reduce form -/

/-- A sum with an optional term on each side is the sum, with the term if it stood on one side only. -/
theorem xor_optional_term (b c : Bool) (p q m : Byte) :
    (if b then p ^^^ m else p) ^^^ (if c then q ^^^ m else q) = if b ^^ c then p ^^^ q ^^^ m else p ^^^ q := by
  have twice : (p ^^^ m) ^^^ (q ^^^ m) = p ^^^ q := by
    rw [show (p ^^^ m) ^^^ (q ^^^ m) = (p ^^^ q) ^^^ (m ^^^ m) by ac_rfl, BitVec.xor_self, BitVec.xor_zero]
  cases b <;> cases c <;> simp [twice]
  all_goals ac_rfl

theorem xtime_xor : XorAdditive xtime := fun v w => by
  have optional (v : Byte) : xtime v = if v.getLsbD 7 then v <<< 1 ^^^ 0x1B#8 else v <<< 1 := by
    rw [xtime]
    split
    · rfl
    · exact BitVec.xor_zero
  rw [optional, optional, optional, xor_optional_term, BitVec.shiftLeft_xor_distrib, BitVec.getLsbD_xor]

/-- The loop adds up what it adds for two values of the shifted factor (R60). -/
theorem shiftReduce_xor_left (b : Byte) (n i : Nat) (r r' t t' : Byte) :
    shiftReduce b n i (r ^^^ r') (t ^^^ t') = shiftReduce b n i r t ^^^ shiftReduce b n i r' t' := by
  induction n generalizing i r r' t t' with
  | zero => rfl
  | succ n ih =>
    rw [shiftReduce, shiftReduce, shiftReduce, xtime_xor, ← ih]
    cases b.getLsbD i
    · rfl
    · have regroup : r ^^^ r' ^^^ (t ^^^ t') = (r ^^^ t) ^^^ (r' ^^^ t') := by ac_rfl
      rw [if_pos rfl, if_pos rfl, if_pos rfl, regroup]

/-- The loop adds up what it adds for the bits of two values of the other factor (R60). -/
theorem shiftReduce_xor_right (b b' : Byte) (n i : Nat) (r r' t : Byte) :
    shiftReduce (b ^^^ b') n i (r ^^^ r') t = shiftReduce b n i r t ^^^ shiftReduce b' n i r' t := by
  induction n generalizing i r r' t with
  | zero => rfl
  | succ n ih =>
    have hsum : (if (b ^^^ b').getLsbD i then r ^^^ r' ^^^ t else r ^^^ r') =
        (if b.getLsbD i then r ^^^ t else r) ^^^ (if b'.getLsbD i then r' ^^^ t else r') := by
      rw [BitVec.getLsbD_xor, xor_optional_term]
    rw [shiftReduce, shiftReduce, shiftReduce, hsum, ih]

theorem gmulShift_xor_left (b : Byte) : XorAdditive (gmulShift · b) := fun a a' =>
  shiftReduce_xor_left b 8 0 0x00#8 0x00#8 a a'

theorem gmulShift_xor_right (a : Byte) : XorAdditive (gmulShift a) := fun b b' =>
  shiftReduce_xor_right b b' 8 0 0x00#8 0x00#8 a

/-- Settles O12: both forms are additive in each factor, and they agree on the powers of x. -/
theorem shiftReduceFormIsProduct : Obligations.ShiftReduceFormIsProduct := by
  have onBits : ∀ i < 8, ∀ j < 8, gmulShift (BitVec.twoPow 8 i) (BitVec.twoPow 8 j) =
      gmul (BitVec.twoPow 8 i) (BitVec.twoPow 8 j) := by decide
  intro a b
  refine XorAdditive.eq_of_eq_on_twoPow (gmulShift_xor_left b) (gmul_xor_left b) (fun i hi => ?_) a
  exact XorAdditive.eq_of_eq_on_twoPow (gmulShift_xor_right _) (gmul_xor_right _) (onBits i hi) b

/-! ### The laws of R63 -/

/-- Settles O13: addition is exclusive-or, and the product's laws are those proved from the powers of x. -/
theorem fieldRingLaws : Obligations.FieldRingLaws := fun a b c =>
  ⟨BitVec.xor_assoc .., BitVec.xor_comm .., BitVec.xor_zero, BitVec.xor_self, gmul_assoc a b c, gmul_comm a b,
    gmul_xor_right a b c, gmul_zero a, gmul_one a⟩

theorem gexp_two_51 : gexp 2#8 51 = 1#8 := by
  rw [show 51 = 3 * 17 by rfl, gexp_mul]
  decide +kernel

/-- R63: 0x02 has order 51 = 3 · 17, since its powers 17 and 3 are not 0x01. -/
theorem orderOf_two : @orderOf Byte gmulMonoid 2#8 = 51 := by
  refine @orderOf_eq_of_pow_and_pow_div_prime Byte gmulMonoid _ _ (by decide) gexp_two_51 fun p hp hdvd => ?_
  rw [show 51 = 3 * 17 by rfl, hp.dvd_mul, Nat.prime_dvd_prime_iff_eq hp Nat.prime_three,
    Nat.prime_dvd_prime_iff_eq hp (by norm_num)] at hdvd
  rcases hdvd with rfl | rfl
  · show gexp 2#8 17 ≠ 1#8
    decide +kernel
  · show gexp 2#8 3 ≠ 1#8
    decide +kernel

/-- Settles O15: the powers are a monoid's, nonzero bytes are the powers of 0x03, and no power of 0x02 below its order is 0x01. -/
theorem exponentLaws : Obligations.ExponentLaws := by
  refine ⟨fun a d e _ => gexp_add a d e, gexp_zero, fun a ha => gexp_255 ha, fun e he => zero_gexp (by omega),
    fun a ha => exists_gexp_generator_eq ha, fun e h1 h51 => ?order, gexp_two_51⟩
  case order => exact @pow_ne_one_of_lt_orderOf Byte gmulMonoid 2#8 e (by omega) (orderOf_two ▸ h51)

/-! ### GMUL and GINV -/

theorem gmul_scalarEffect (rd rs1 rs2 : RegNum) : ScalarEffect (.gmul rd rs1 rs2) rd fun s => gmul (s.reg rs1) (s.reg rs2) :=
  scalarEffect_of_writeBack fun _ => rfl

/-- Settles O18: GMUL writes back, and its opcode's words go to format R. -/
theorem gmulMultipliesRegisters : Obligations.GmulMultipliesRegisters := by
  refine ⟨gmul_scalarEffect, opcodeRule_of_decode fun w hop => decode_op_gmul hop, by decide, by decide, ?ex⟩
  case ex =>
    refine (gmul_scalarEffect 1 2 3).exampleOf (by decide) ?_
    rintro s ⟨h2, h3⟩
    rw [h2, h3]; decide

/-- The whole effect of GINV: a write back, and INVZ noted beside it (R68). -/
theorem ginv_effect (rd rs1 : RegNum) (s : State) : ∃ t, exec (.ginv rd rs1) s = .next t ∧ Completed .success s t ∧
    t.reg rd = ginv (s.reg rs1) ∧ t.invz = (s.invz || s.reg rs1 == 0) ∧ (∀ r, r ≠ rd → t.reg r = s.reg r) ∧ BytesKept s t := by
  refine ⟨_, exec_ginv rd rs1 s, by simp [Completed, ControlKept], by simp, rfl, fun r hr => ?others, fun a => ?bytes⟩
  case others => rw [reg_complete, reg_setReg_ne _ _ hr, reg_noteInverse]
  case bytes => rw [byte_complete, byte_setReg, byte_noteInverse]

/-- Settles O20: GINV's effect, its opcode's words go to format U, and each example's inverse is the byte that gives 0x01 with it. -/
theorem ginvInvertsAndFlagsZero : Obligations.GinvInvertsAndFlagsZero := by
  refine ⟨ginv_effect, opcodeRule_of_decode fun w hop => decode_op_ginv hop, ginv_eq_of_gmul_eq_one (by decide), ginv_zero,
    ginv_eq_of_gmul_eq_one (by decide), ginv_eq_of_gmul_eq_one (by decide), ginv_eq_of_gmul_eq_one (by decide),
    .ginv 2 1, by decide, fun s h1 => ?ex⟩
  case ex =>
    obtain ⟨t, ht, ⟨herr, -⟩, hrd, -⟩ := ginv_effect 2 1 s
    exact ⟨t, ht, herr, hrd.trans (h1 ▸ ginv_eq_of_gmul_eq_one (by decide))⟩

/-! ### Assembly -/

/-- A register operand in range is its number (R50). -/
theorem regOperand_eq {n : Nat} (h : n < 16) : regOperand n = BitVec.ofNatLT n h := (BitVec.ofNatLT_eq_ofNat h).symm

theorem immOperand_eq {n : Nat} (h : n < 256) : immOperand n = BitVec.ofNatLT n h := (BitVec.ofNatLT_eq_ofNat h).symm

theorem addrOperand_eq {n : Nat} (h : n < 65536) : addrOperand n = BitVec.ofNatLT n h := (BitVec.ofNatLT_eq_ofNat h).symm

/-- The assembler gives a line's commands if the line's ranges hold, and refuses it otherwise (R55). -/
theorem assemble_eq_dite {line : Asm} {P : Prop} [Decidable P] {is : P → List Instr} (hwf : line.wf = true ↔ P)
    (hexpand : ∀ h : P, line.expand = is h) : line.assemble = if h : P then some (is h) else none := by
  rw [Asm.assemble]
  by_cases h : P
  · rw [if_pos (hwf.mpr h), dif_pos h, hexpand h]
  · rw [if_neg (mt hwf.mp h), dif_neg h]

theorem assemble_congr {line line' : Asm} (hwf : line.wf = line'.wf) (hexpand : line.expand = line'.expand) :
    line.assemble = line'.assemble := by
  rw [Asm.assemble, Asm.assemble, hwf, hexpand]

section
variable {d a b : Nat}

theorem regsInRange_one : regsInRange [d] = true ↔ d < 16 := by simp [regsInRange]

theorem regsInRange_two : regsInRange [d, a] = true ↔ d < 16 ∧ a < 16 := by simp [regsInRange]

theorem regsInRange_three : regsInRange [d, a, b] = true ↔ d < 16 ∧ a < 16 ∧ b < 16 := by simp [regsInRange]

end

theorem assemblesR {line : Nat → Nat → Nat → Asm} {i : RegNum → RegNum → RegNum → Instr}
    (hwf : ∀ d a b, (line d a b).wf = regsInRange [d, a, b])
    (hexpand : ∀ d a b, (line d a b).expand = [i (regOperand d) (regOperand a) (regOperand b)]) : AssemblesR line i := by
  refine fun d a b => assemble_eq_dite (by rw [hwf, regsInRange_three]) ?_
  rintro ⟨hd, ha, hb⟩
  rw [hexpand, regOperand_eq hd, regOperand_eq ha, regOperand_eq hb]

theorem assemblesI {line : Nat → Nat → Nat → Asm} {i : RegNum → RegNum → Byte → Instr}
    (hwf : ∀ d a v, (line d a v).wf = (regsInRange [d, a] && decide (v < 256)))
    (hexpand : ∀ d a v, (line d a v).expand = [i (regOperand d) (regOperand a) (immOperand v)]) : AssemblesI line i := by
  refine fun d a v => assemble_eq_dite (by rw [hwf, Bool.and_eq_true, regsInRange_two, decide_eq_true_iff, and_assoc]) ?_
  rintro ⟨hd, ha, hv⟩
  rw [hexpand, regOperand_eq hd, regOperand_eq ha, immOperand_eq hv]

theorem assemblesU {line : Nat → Nat → Asm} {i : RegNum → RegNum → Instr} (hwf : ∀ d a, (line d a).wf = regsInRange [d, a])
    (hexpand : ∀ d a, (line d a).expand = [i (regOperand d) (regOperand a)]) : AssemblesU line i := by
  refine fun d a => assemble_eq_dite (by rw [hwf, regsInRange_two]) ?_
  rintro ⟨hd, ha⟩
  rw [hexpand, regOperand_eq hd, regOperand_eq ha]

theorem assemblesL {line : Nat → Nat → Asm} {i : RegNum → Byte → Instr}
    (hwf : ∀ d v, (line d v).wf = (regsInRange [d] && decide (v < 256)))
    (hexpand : ∀ d v, (line d v).expand = [i (regOperand d) (immOperand v)]) : AssemblesL line i := by
  refine fun d v => assemble_eq_dite (by rw [hwf, Bool.and_eq_true, regsInRange_one, decide_eq_true_iff]) ?_
  rintro ⟨hd, hv⟩
  rw [hexpand, regOperand_eq hd, immOperand_eq hv]

theorem assemblesM {line : Nat → Nat → Asm} {i : RegNum → Addr → Instr}
    (hwf : ∀ d a, (line d a).wf = (regsInRange [d] && decide (a < 65536)))
    (hexpand : ∀ d a, (line d a).expand = [i (regOperand d) (addrOperand a)]) : AssemblesM line i := by
  refine fun d a => assemble_eq_dite (by rw [hwf, Bool.and_eq_true, regsInRange_one, decide_eq_true_iff]) ?_
  rintro ⟨hd, ha⟩
  rw [hexpand, regOperand_eq hd, addrOperand_eq ha]

/-- GDIV is refused exactly for a register out of range or gd = gs1 (R56). -/
theorem gdiv_wf (d a b : Nat) : (Asm.gdiv d a b).wf = true ↔ (d < 16 ∧ a < 16 ∧ b < 16) ∧ d ≠ a := by
  rw [Asm.wf, Bool.and_eq_true, regsInRange_three, decide_eq_true_iff]

/-- GINV into `rd` and GMUL by it divide, if the dividend is not in `rd` (R56). -/
theorem ginv_then_gmul {rd ra : RegNum} (hne : ra ≠ rd) (rb : RegNum) (s : State) :
    ∃ t u, exec (.ginv rd rb) s = .next t ∧ exec (.gmul rd ra rd) t = .next u ∧
      u.reg rd = gmul (s.reg ra) (ginv (s.reg rb)) ∧ u.invz = (s.invz || s.reg rb == 0) ∧ ∀ r, r ≠ rd → u.reg r = s.reg r := by
  obtain ⟨t, ht, -, hinverse, hinvz, hothers, -⟩ := ginv_effect rd rb s
  obtain ⟨u, hu, -, hproduct, hothers', -, hinvz'⟩ := gmul_scalarEffect rd ra rd t
  refine ⟨t, u, ht, hu, ?quotient, hinvz'.trans hinvz, fun r hr => (hothers' r hr).trans (hothers r hr)⟩
  case quotient =>
    calc u.reg rd = gmul (t.reg ra) (t.reg rd) := hproduct
      _ = gmul (s.reg ra) (ginv (s.reg rb)) := by rw [hothers ra hne, hinverse]

/-- Settles O6: each form's ranges and expansion, by its format; GDIV's two commands are GINV and GMUL. -/
theorem assemblerRefusesOrExpands : Obligations.AssemblerRefusesOrExpands := by
  refine ⟨⟨rfl, rfl, rfl, rfl, rfl, fun _ => rfl⟩, ⟨assemblesR (fun _ _ _ => rfl) fun _ _ _ => rfl,
      assemblesR (fun _ _ _ => rfl) fun _ _ _ => rfl, assemblesR (fun _ _ _ => rfl) fun _ _ _ => rfl⟩,
    assemblesU (fun _ _ => rfl) fun _ _ => rfl, ⟨assemblesI (fun _ _ _ => rfl) fun _ _ _ => rfl,
      assemblesI (fun _ _ _ => rfl) fun _ _ _ => rfl, assemblesI (fun _ _ _ => rfl) fun _ _ _ => rfl⟩,
    assemblesL (fun _ _ => rfl) fun _ _ => rfl, ⟨assemblesM (fun _ _ => rfl) fun _ _ => rfl,
      assemblesM (fun _ _ => rfl) fun _ _ => rfl⟩,
    fun _ _ _ => rfl, fun _ _ _ => rfl, fun d a => ?gmov, fun d => ?gclr, fun d a => ?gsqr, fun d a b h => ?refused,
    fun d a b hd ha hb hne => ?gdiv⟩
  case gmov => exact assemble_congr (Bool.and_true _).symm rfl
  case gclr => exact assemble_congr (Bool.and_true _).symm rfl
  case gsqr => exact assemble_congr (by rw [Bool.eq_iff_iff, Asm.wf, Asm.wf, regsInRange_two, regsInRange_three, and_self]) rfl
  case refused =>
    have hwf : ¬ (Asm.gdiv d a b).wf = true := by rw [gdiv_wf]; omega
    rw [Asm.assemble, if_neg hwf]
  case gdiv =>
    have hra : BitVec.ofNat 4 a ≠ BitVec.ofNat 4 d := fun h => hne (by bv_omega)
    refine ⟨.ginv (BitVec.ofNat 4 d) (BitVec.ofNat 4 b), .gmul (BitVec.ofNat 4 d) (BitVec.ofNat 4 a) (BitVec.ofNat 4 d), ?_,
      ginv_then_gmul hra (BitVec.ofNat 4 b)⟩
    rw [Asm.assemble, if_pos ((gdiv_wf d a b).mpr ⟨⟨hd, ha, hb⟩, hne⟩)]; rfl

end Sys2Proof.Machine
end

section
/-! Proofs. The commands over the windows (45_control.md R91; 42_coefficient.md R76, R78, R79; 43_sharing.md R80 to R83; 44_recovery.md
R85, R86). Each bulk write is a fold of single row writes at different addresses, so a byte after it is what its own row holds, or what
was there; what the rows hold then depends on the inputs the rule names alone. -/

namespace Sys2Proof.Machine

open Host

/-! ### ZERO -/

section
variable (s : State)

/-- ZERO's six clears are the data windows but for the register file (R91). -/
theorem byte_zeroize (a : Nat) : s.zeroize.byte a = if InWindow a ∧ regionOf a ≠ some .generalRegs then 0x00#8 else s.byte a := by
  simp only [State.zeroize, byte_clearBytes, ← ite_or, xAddr, lAddr, rAddr, sidAddr, cAddr, yAddr, ne_eq, regionOf_eq_g_iff]
  exact if_congr (by omega) rfl rfl

theorem reg_zeroize (i : RegNum) : s.zeroize.reg i = 0x00#8 := by
  simp [State.zeroize, State.reg]

theorem exec_zero_eq : exec .zero s = .next (s.zeroize.complete .success) := rfl

end

/-- Settles O28: six clears and the register file, which together are the data windows. -/
theorem zeroClearsData : Obligations.ZeroClearsData := by
  refine ⟨fun s => ⟨_, exec_zero_eq s, completed_of_exec (exec_zero_eq s), rfl, reg_zeroize s, fun a ha => ?inside,
    fun a ha => (byte_zeroize s a).trans (if_neg fun h => ha h.1)⟩, opcodeRule_of_decode fun w hop => decode_op_zero hop⟩
  case inside =>
    rw [State.memRead]
    split
    case isTrue => exact reg_zeroize s _
    case isFalse hg => exact (byte_zeroize s a).trans (if_pos ⟨ha, hg⟩)

/-! ### DERIVE -/

section
variable {s s0 : State} {n j : Nat}

/-- Rows j, …, j+n-1 are written, and no other byte. -/
theorem byte_deriveRows_outside (hs : Memory.wf s.mem) {a : Nat} (ha : ¬ (cAddr j 0 ≤ a ∧ a < cAddr (j + n) 0)) :
    (deriveRows s0 n j s).byte a = s.byte a := by
  induction n generalizing j s with
  | zero => rfl
  | succ n ih =>
    unfold cAddr at ha
    rw [deriveRows, ih (wf_setBytes hs ..) (by unfold cAddr; omega)]
    refine byte_setBytes_outside hs ?_
    rw [length_derivedRow, cAddr]
    omega

theorem byte_deriveRows_inside (hs : Memory.wf s.mem) {i k : Nat} (hji : j ≤ i) (hin : i < j + n) (hk : k < 32) :
    (deriveRows s0 n j s).byte (cAddr i k) = (s0.derivedRow i)[k]'(by rw [length_derivedRow]; exact hk) := by
  induction n generalizing j s with
  | zero => omega
  | succ n ih =>
    rw [deriveRows]
    rcases Nat.eq_or_lt_of_le hji with rfl | hlt
    · rw [byte_deriveRows_outside (wf_setBytes hs ..) (by unfold cAddr; omega)]
      exact byte_setBytes_inside hs (cAddr j 0) (by rw [length_derivedRow]; exact hk)
    · exact ih (wf_setBytes hs ..) hlt (by omega)

end

section
variable (s : State) (j : Nat) {k : Nat}

/-- A derived row's lanes are the digest's first bytes (R78). -/
theorem derivedRow_lane (hB : s.numB ≤ 32) (hk : k < s.numB) :
    (s.derivedRow j)[k]'(by rw [length_derivedRow]; omega) = (s.request j).answer.getD k 0 := by
  have hlen : (s.request j).answer.length = 32 := by simp [HashReq.answer]
  refine (getElem_padRow_lane _ (by rw [List.length_take]; omega)).trans ?_
  rw [List.getElem_take, List.getD_eq_getElem _ _ (by omega)]

theorem derivedRow_padding (hBk : s.numB ≤ k) (hk : k < 32) :
    (s.derivedRow j)[k]'(by rw [length_derivedRow]; exact hk) = 0x00#8 :=
  getElem_padRow_padding _ (by rw [List.length_take]; omega)

end

/-- The bytes from one address on agree with the bytes from another exactly one by one. -/
theorem bytes_eq_bytes_iff {s t : State} {a b n : Nat} :
    s.bytes a n = t.bytes b n ↔ ∀ k < n, s.byte (a + k) = t.byte (b + k) := by
  simp [State.bytes]

/-- Settles O30: the rows in order, each from the state DERIVE began in. -/
theorem deriveFillsRows : Obligations.DeriveFillsRows := by
  intro s hs hlegal
  have hexec := exec_derive_of_legal hlegal
  have hB := numB_le hlegal.1
  have ⟨_, _, hT, _⟩ := hlegal
  refine ⟨_, hexec, completed_of_exec hexec, fun i => ?regs, ?invz, fun j h1 hj => ⟨fun k hk => ?lane, fun k hBk hk => ?padding⟩,
    fun a ha => ?others⟩
  case regs => exact reg_congr (by rw [complete_g, deriveRows_eq]) i
  case invz => exact deriveRows_invz ..
  case lane =>
    rw [byte_complete, byte_deriveRows_inside hs h1 (by omega) (by omega), derivedRow_lane s j hB hk]
    rfl
  case padding =>
    rw [byte_complete, byte_deriveRows_inside hs h1 (by omega) hk, derivedRow_padding s j hBk hk]
    rfl
  case others =>
    rw [byte_complete, byte_deriveRows_outside hs]
    rwa [Nat.add_sub_cancel' hT]

/-- R79: a derived row depends on the secret, B, T and the session id alone. -/
theorem derivedRow_congr {s t : State} (hB : s.cfgB = t.cfgB) (hT : s.cfgT = t.cfgT) (hL : s.sidLen = t.sidLen)
    (hsecret : ∀ k < s.numB, s.byte (cAddr 0 k) = t.byte (cAddr 0 k))
    (hsid : ∀ i < s.sidLen.toNat, s.byte (sidAddr i) = t.byte (sidAddr i)) (j : Nat) : s.derivedRow j = t.derivedRow j := by
  have hkey : s.secretKey = t.secretKey := by
    have hnumB : s.numB = t.numB := congrArg BitVec.toNat hB
    rw [State.secretKey, State.secretKey, ← hnumB]
    exact bytes_eq_bytes_iff.mpr hsecret
  have hmessage : s.message j = t.message j := by
    have hbytes : s.bytes (sidAddr 0) s.sidLen.toNat = t.bytes (sidAddr 0) t.sidLen.toNat := by
      rw [← hL]
      exact bytes_eq_bytes_iff.mpr hsid
    rw [State.message, State.message, hbytes, hT]
  rw [State.derivedRow, State.derivedRow, State.request, State.request, hkey, hmessage, State.numB, State.numB, hB]

/-- Settles O32: both runs write the same derived rows. -/
theorem derivationIsDeterministic : Obligations.DerivationIsDeterministic := by
  intro s₁ s₂ t₁ t₂ hs₁ hs₂ hl₁ hl₂ hB hT hL hsecret hsid h₁ h₂ j h1 hj k hk
  have hT' : s₁.numT = s₂.numT := congrArg BitVec.toNat hT
  have hrow {s t : State} (hs : Memory.wf s.mem) (hl : SharingLegal s) (h : exec .derive s = .next t) (hj : j < s.numT) :
      t.byte (cAddr j k) = (s.derivedRow j)[k]'(by rw [length_derivedRow]; exact hk) := by
    cases (exec_derive_of_legal hl).symm.trans h
    rw [byte_complete, byte_deriveRows_inside hs h1 (by omega) hk]
  rw [hrow hs₁ hl₁ h₁ hj, hrow hs₂ hl₂ h₂ (by omega)]
  simp only [derivedRow_congr hB hT hL hsecret hsid j]

/-! ### The formulas depend on the bytes they name -/

theorem xorSum_congr {n : Nat} {f g : Nat → Byte} (h : ∀ i < n, f i = g i) : xorSum n f = xorSum n g := by
  induction n with
  | zero => rfl
  | succ n ih => rw [xorSum_succ, xorSum_succ, h n (Nat.lt_succ_self n), ih fun i hi => h i (Nat.lt_succ_of_lt hi)]

section
variable {s t : State} {n k : Nat}

/-- R80, R81: lane k's polynomial is that of lane k of the T rows. -/
theorem lanePolynomial_congr (hT : s.cfgT = t.cfgT) (h : ∀ j < s.numT, s.byte (cAddr j k) = t.byte (cAddr j k)) (x : Byte) :
    lanePolynomial s k x = lanePolynomial t k x := by
  have hnumT : s.numT = t.numT := congrArg BitVec.toNat hT
  rw [lanePolynomial, lanePolynomial, ← hnumT]
  exact xorSum_congr fun j hj => by rw [h j hj]

theorem lanePolynomial_of_threshold_one (hT : s.numT = 1) (k : Nat) (x : Byte) : lanePolynomial s k x = s.byte (cAddr 0 k) := by
  rw [lanePolynomial, hT, xorSum_succ, gexp_zero, gmul_one]
  exact BitVec.xor_zero

theorem lagrangeWeight_congr (h : ∀ i < n, s.byte (xAddr i) = t.byte (xAddr i)) {i : Nat} (hi : i < n) :
    lagrangeWeight s n i = lagrangeWeight t n i := by
  refine List.foldr_ext _ _ _ fun m hm acc => ?_
  have hm : m < n := List.mem_range.mp (List.mem_filter.mp hm).1
  simp only [h m hm, h i hi]

/-- R80, R85: lane k of the combination is that of lane k of the slots, under the indices. -/
theorem interpolated_congr (hx : ∀ i < n, s.byte (xAddr i) = t.byte (xAddr i))
    (hy : ∀ i < n, s.byte (yAddr i k) = t.byte (yAddr i k)) : interpolated s n k = interpolated t n k :=
  xorSum_congr fun i hi => by rw [hy i hi, lagrangeWeight_congr hx hi]

end

/-! ### EVAL -/

/-- A shared row's lanes are the lanes' polynomials (R81, R82). -/
theorem shareRow_lane {s : State} (hB : s.numB ≤ 32) (x : Byte) {k : Nat} (hk : k < s.numB) :
    (s.shareRow x)[k]'(by rw [length_shareRow hB]; omega) = lanePolynomial s k x := by
  refine (getElem_padRow_lane _ (by simpa using hk)).trans ?_
  rw [List.getElem_map, List.getElem_range, hornerIsLanePolynomial]

theorem shareRow_padding {s : State} (hB : s.numB ≤ 32) (x : Byte) {k : Nat} (hBk : s.numB ≤ k) (hk : k < 32) :
    (s.shareRow x)[k]'(by rw [length_shareRow hB]; exact hk) = 0x00#8 :=
  getElem_padRow_padding _ (by simpa using hBk)

/-- The windows EVAL writes for slots 0..<n (R82). -/
def InSlots (n a : Nat) : Prop := (xAddr 0 ≤ a ∧ a < xAddr n) ∨ (yAddr 0 0 ≤ a ∧ a < yAddr n 0)

/-- The address of one slot's index or of a byte of its value. -/
def InSlot (i a : Nat) : Prop := a = xAddr i ∨ (yAddr i 0 ≤ a ∧ a < yAddr i 0 + 32)

section
variable {xs : Bool} {s : State} (hs : Memory.wf s.mem) (hB : s.numB ≤ 32)
include hs

theorem wf_evalSlot (i : Nat) : Memory.wf (evalSlot xs s i).mem := wf_setBytes (Memory.wf_write hs ..) ..

theorem byte_evalSlot_x {i : Nat} (hi : i < 255) : (evalSlot xs s i).byte (xAddr i) = s.evalIndex xs i := by
  have hy : ¬ (yAddr i 0 ≤ xAddr i ∧ xAddr i < yAddr i 0 + (s.shareRow (s.evalIndex xs i)).length) := by
    unfold xAddr yAddr; omega
  rw [evalSlot, byte_setBytes_outside (Memory.wf_write hs ..) hy, byte_setByte hs, if_pos rfl]

include hB

theorem byte_evalSlot_outside {i a : Nat} (ha : ¬ InSlot i a) : (evalSlot xs s i).byte a = s.byte a := by
  obtain ⟨hx, hy⟩ := not_or.mp ha
  rw [evalSlot, byte_setBytes_outside (Memory.wf_write hs ..) (by rwa [length_shareRow hB]), byte_setByte hs, if_neg (Ne.symm hx)]

theorem byte_evalSlot_y {i k : Nat} (hk : k < 32) :
    (evalSlot xs s i).byte (yAddr i k) = (s.shareRow (s.evalIndex xs i))[k]'(by rw [length_shareRow hB]; exact hk) :=
  byte_setBytes_inside (Memory.wf_write hs ..) (yAddr i 0) (by rw [length_shareRow hB]; exact hk)

end

theorem evalSlots_succ (xs : Bool) (n : Nat) (s : State) : evalSlots xs (n + 1) s = evalSlot xs (evalSlots xs n s) n := by
  rw [evalSlots, List.range_succ, List.foldl_append]; rfl

/-- What EVAL has written after n slots: each slot's index and row, as the rows and indices of the first state have it (R82). -/
structure SlotsWritten (xs : Bool) (n : Nat) (s t : State) : Prop where
  wf : Memory.wf t.mem
  cfgB : t.cfgB = s.cfgB
  cfgT : t.cfgT = s.cfgT
  index : ∀ i < n, t.byte (xAddr i) = s.evalIndex xs i
  lane : ∀ i < n, ∀ k < s.numB, t.byte (yAddr i k) = lanePolynomial s k (s.evalIndex xs i)
  padding : ∀ i < n, ∀ k, s.numB ≤ k → k < 32 → t.byte (yAddr i k) = 0x00#8
  frame : BytesKeptOutside (InSlots n) s t

theorem slotsWritten_evalSlots (xs : Bool) {s : State} (hs : Memory.wf s.mem) (hB : s.numB ≤ 32) {n : Nat} (hn : n ≤ 255) :
    SlotsWritten xs n s (evalSlots xs n s) := by
  induction n with
  | zero => exact ⟨hs, rfl, rfl, nofun, nofun, nofun, fun _ _ => rfl⟩
  | succ n ih =>
    obtain ⟨hwf, hcfgB, hcfgT, hindex, hlane, hpadding, hframe⟩ := ih (by omega)
    have hnumB : (evalSlots xs n s).numB = s.numB := congrArg BitVec.toNat hcfgB
    have hB' : (evalSlots xs n s).numB ≤ 32 := hnumB.trans_le hB
    have hidx : (evalSlots xs n s).evalIndex xs n = s.evalIndex xs n := by
      cases xs with
      | false => rfl
      | true => exact hframe (xAddr n) (by unfold InSlots xAddr yAddr; omega)
    have hpoly {k : Nat} (hk : k < s.numB) (x : Byte) : lanePolynomial (evalSlots xs n s) k x = lanePolynomial s k x := by
      refine lanePolynomial_congr hcfgT (fun j hj => hframe (cAddr j k) ?_) x
      have hT : (evalSlots xs n s).numT < 256 := (evalSlots xs n s).cfgT.isLt
      unfold InSlots xAddr yAddr cAddr; omega
    rw [evalSlots_succ]
    refine ⟨wf_evalSlot hwf n, ?_, ?_, fun i hi => ?index, fun i hi k hk => ?lane, fun i hi k hBk hk => ?padding,
      fun a ha => ?frame⟩
    · rw [evalSlot_eq]; exact hcfgB
    · rw [evalSlot_eq]; exact hcfgT
    case index =>
      rcases Nat.lt_succ_iff_lt_or_eq.mp hi with hlt | rfl
      · rw [byte_evalSlot_outside hwf hB' (by unfold InSlot xAddr yAddr; omega), hindex i hlt]
      · rw [byte_evalSlot_x hwf (by omega), hidx]
    case lane =>
      rcases Nat.lt_succ_iff_lt_or_eq.mp hi with hlt | rfl
      · rw [byte_evalSlot_outside hwf hB' (by unfold InSlot xAddr yAddr; omega), hlane i hlt k hk]
      · rw [byte_evalSlot_y hwf hB' (by omega), shareRow_lane hB' _ (hnumB ▸ hk), hpoly hk, hidx]
    case padding =>
      rcases Nat.lt_succ_iff_lt_or_eq.mp hi with hlt | rfl
      · rw [byte_evalSlot_outside hwf hB' (by unfold InSlot xAddr yAddr; omega), hpadding i hlt k hBk hk]
      · rw [byte_evalSlot_y hwf hB' hk, shareRow_padding hB' _ (hnumB ▸ hBk) hk]
    case frame =>
      unfold InSlots xAddr yAddr at ha
      rw [byte_evalSlot_outside hwf hB' (by unfold InSlot xAddr yAddr; omega)]
      exact hframe a (by unfold InSlots xAddr yAddr; omega)

theorem evalIndexError_eq_none_iff (xs : Bool) (s : State) :
    evalIndexError xs s = none ↔ (xs = true → IndicesNonzero s s.numN) := by
  rw [← hasZero_iff, evalIndexError]
  cases xs <;> cases hasZero (s.indices s.numN) <;> simp

section
variable {xs : Bool} {s : State} (hlegal : SharingLegal s)
include hlegal

/-- EVAL past its checks is the writing of all N slots (R82). -/
theorem exec_eval_of_indices (hnz : xs = true → IndicesNonzero s s.numN) :
    exec (.eval xs) s = .next ((evalSlots xs s.numN s).complete .success) := by
  rw [exec_eval_of_legal hlegal, (evalIndexError_eq_none_iff xs s).mpr hnz]; rfl

theorem eval_failsWith_zeroIndex (hzero : ¬ IndicesNonzero s s.numN) : FailsWith (.eval true) s .invalidShareIndex := by
  rw [← hasZero_iff, Bool.not_eq_false] at hzero
  rw [FailsWith, exec_eval_of_legal hlegal, evalIndexError, hzero]; rfl

end

section
variable {xs : Bool} {s t : State}

/-- EVAL that completes with code 0 had a legal configuration and, for EVAL.X, no zero index. -/
theorem eval_checks_of_success (h : exec (.eval xs) s = .next t) (hok : t.err = .success) :
    SharingLegal s ∧ (xs = true → IndicesNonzero s s.numN) := by
  by_cases hlegal : SharingLegal s
  case neg => cases (eval_failsWith_invalidSize hlegal xs).symm.trans h; cases hok
  refine ⟨hlegal, fun hxs => ?_⟩
  by_contra hzero
  subst hxs
  cases (eval_failsWith_zeroIndex hlegal hzero).symm.trans h; cases hok

/-- What EVAL leaves when it completes with code 0 (R82). -/
theorem slotsWritten_of_eval (hs : Memory.wf s.mem) (h : exec (.eval xs) s = .next t) (hok : t.err = .success) :
    SlotsWritten xs s.numN s t := by
  obtain ⟨hlegal, hnz⟩ := eval_checks_of_success h hok
  cases (exec_eval_of_indices hlegal hnz).symm.trans h
  have hN : s.numN < 256 := s.cfgN.isLt
  obtain ⟨hwf, hcfgB, hcfgT, hindex, hlane, hpadding, hframe⟩ :=
    slotsWritten_evalSlots xs hs (numB_le hlegal.1) (n := s.numN) (by omega)
  exact ⟨hwf, hcfgB, hcfgT, hindex, hlane, hpadding, hframe⟩

end

/-- Settles O34: the slots one after the other, each leaving the rows and the later indices as they were. -/
theorem evalWritesShares : Obligations.EvalWritesShares := by
  refine ⟨fun xs s hs hlegal hnz => ?written, fun s => eval_failsWith_zeroIndex, opcodeRule_of_decode fun w hop => decode_op_eval hop⟩
  have hexec := exec_eval_of_indices hlegal hnz
  have hslots := slotsWritten_of_eval hs hexec rfl
  refine ⟨_, hexec, completed_of_exec hexec, fun i => ?regs, evalSlots_invz .., fun i hi => ?slot, hslots.frame⟩
  case regs => exact reg_congr (by rw [complete_g, evalSlots_eq]) i
  case slot =>
    rw [← State.evalIndex]
    exact ⟨hslots.index i hi, hslots.lane i hi, hslots.padding i hi⟩

/-- Settles O35: a polynomial of one coefficient is that coefficient. -/
theorem thresholdOneSharesAreSecret : Obligations.ThresholdOneSharesAreSecret := by
  intro xs s hs hlegal hT hnz
  have hexec := exec_eval_of_indices hlegal hnz
  refine ⟨_, hexec, rfl, fun i hi k hk => ?_⟩
  rw [(slotsWritten_of_eval hs hexec rfl).lane i hi k hk, lanePolynomial_of_threshold_one hT]

/-! ### The combination -/

section
variable {s t : State}

theorem interpolated_zero (s : State) (k : Nat) : interpolated s 0 k = 0x00#8 := rfl

theorem lagrangeWeight_one (s : State) : lagrangeWeight s 1 0 = 0x01#8 := rfl

theorem interpolated_one (s : State) (k : Nat) : interpolated s 1 k = s.byte (yAddr 0 k) := by
  rw [interpolated, xorSum_succ, lagrangeWeight_one, gmul_one]
  exact BitVec.xor_zero

/-- VERIFY past its checks: the combination, then success or InternalFailure as R agrees with row 0 (R83). -/
theorem exec_verify_of_indices (hlegal : SharingLegal s) (hnz : IndicesNonzero s s.numT) (hd : IndicesDistinct s s.numT) :
    exec .verify s = compareSecret (lagrangeCombine s.numT s) := by
  rw [exec_verify_of_legal hlegal, (indexError_eq_none_iff ..).mpr ⟨hnz, hd⟩, checked_none]

theorem compareSecret_eq (s : State) : compareSecret s =
    .next (s.complete (if s.bytes (rAddr 0) s.numB = s.bytes (cAddr 0 0) s.numB then .success else .internalFailure)) := by
  rw [compareSecret]
  split <;> rfl

theorem numB_lagrangeCombine (n : Nat) (s : State) : (lagrangeCombine n s).numB = s.numB :=
  congrArg (fun u => u.cfgB.toNat) (lagrangeCombine_eq n s)

/-- VERIFY compares what the combination left in R with row 0, lane by lane (R83). -/
theorem secret_matches_iff {n : Nat} (h : Combined n s t) (hB : t.numB = s.numB) (hB32 : s.numB ≤ 32) (hn : n ≤ 255) :
    t.bytes (rAddr 0) t.numB = t.bytes (cAddr 0 0) t.numB ↔ ∀ k < s.numB, interpolated s n k = s.byte (cAddr 0 k) := by
  obtain ⟨-, hlane, -, hframe⟩ := h
  rw [bytes_eq_bytes_iff, hB]
  refine forall₂_congr fun k hk => ?_
  have hrow : ¬ ((lAddr 0 ≤ cAddr 0 k ∧ cAddr 0 k < lAddr n) ∨ (rAddr 0 ≤ cAddr 0 k ∧ cAddr 0 k < rAddr 32)) := by
    unfold lAddr rAddr cAddr; omega
  exact (hlane k hk) ▸ (hframe _ hrow) ▸ Iff.rfl

/-- A checked command whose code is not its check's has done its work. -/
theorem work_of_checked {e : Option ErrCode} {o : Outcome State Fault Refusal} (h : checked e s o = .next t)
    (he : e ≠ some t.err) : e = none ∧ o = .next t := by
  cases e with
  | none => exact ⟨rfl, h⟩
  | some c => cases h; exact absurd rfl he

theorem firstError_eq_none {a b : Option ErrCode} (h : firstError a b = none) : a = none ∧ b = none := by
  cases a with
  | none => exact ⟨rfl, h⟩
  | some c => cases h

/-- RECON that completes with code 0 has combined its slots (R86). -/
theorem combined_of_recon (hs : Memory.wf s.mem) (h : exec .recon s = .next t) (hok : t.err = .success) :
    Combined s.numK s t := by
  have hcheck : firstError (indexError s s.numK) (recoveryError s) ≠ some t.err := fun he => by
    rcases firstError_cases (hok ▸ he) with he | he
    · rcases code_of_indexError he with hc | hc <;> cases hc
    · rcases code_of_recoveryError he with hc | hc <;> cases hc
  obtain ⟨hnone, hwork⟩ := work_of_checked h hcheck
  obtain ⟨hB, -⟩ := (recoveryError_eq_none_iff s).mp (firstError_eq_none hnone).2
  have hK : s.numK < 256 := s.cfgK.isLt
  cases hwork
  exact combined_lagrangeCombine hs (numB_le hB) (by omega)

/-- VERIFY that gets as far as its comparison has combined slots 0..T-1 (R83). -/
theorem combined_of_verify (hs : Memory.wf s.mem) (h : exec .verify s = .next t) (hcode : t.err ∈ [.success, .internalFailure]) :
    SharingLegal s ∧ Combined s.numT s t := by
  have hcheck : firstError (sharingError s) (indexError s s.numT) ≠ some t.err := fun he => by
    rcases firstError_cases he with he | he
    · simp [code_of_sharingError he] at hcode
    · rcases code_of_indexError he with hc | hc <;> simp [hc] at hcode
  obtain ⟨hnone, hwork⟩ := work_of_checked h hcheck
  have hlegal : SharingLegal s := by
    by_contra hno
    cases (sharingError_of_not_legal hno).symm.trans (firstError_eq_none hnone).1
  have hT : s.numT < 256 := s.cfgT.isLt
  rw [compareSecret_eq] at hwork
  cases hwork
  exact ⟨hlegal, combined_lagrangeCombine hs (numB_le hlegal.1) (by omega)⟩

end

/-- Settles O36: EVAL's lanes are the lanes' polynomials, RECON's and VERIFY's the lanes' combinations, and each reads its own lane. -/
theorem lanesAreIndependent : Obligations.LanesAreIndependent := by
  intro s₁ s₂ t₁ t₂ k hs₁ hs₂ hB hN hT hK hk hx
  have hnumB : s₁.numB = s₂.numB := congrArg BitVec.toNat hB
  have hnumN : s₁.numN = s₂.numN := congrArg BitVec.toNat hN
  have hnumT : s₁.numT = s₂.numT := congrArg BitVec.toNat hT
  have hnumK : s₁.numK = s₂.numK := congrArg BitVec.toNat hK
  have hT255 : s₁.numT < 256 := s₁.cfgT.isLt
  have hN255 : s₁.numN < 256 := s₁.cfgN.isLt
  have hK255 : s₁.numK < 256 := s₁.cfgK.isLt
  refine ⟨fun hc xs h₁ h₂ hok₁ hok₂ i hi => ?eval,
    fun hy => ⟨fun h₁ h₂ hok₁ hok₂ => ?recon, fun h₁ h₂ hcode₁ hcode₂ => ?verify⟩⟩
  case eval =>
    have hidx : s₁.evalIndex xs i = s₂.evalIndex xs i := by
      cases xs with
      | false => rfl
      | true => exact hx i (by omega)
    have hslots₁ := slotsWritten_of_eval hs₁ h₁ hok₁
    have hslots₂ := slotsWritten_of_eval hs₂ h₂ hok₂
    rw [hslots₁.lane i hi k hk, hslots₂.lane i (hnumN ▸ hi) k (hnumB ▸ hk), hidx,
      lanePolynomial_congr hT fun j hj => hc j (by omega)]
  case recon =>
    obtain ⟨-, hlane₁, -⟩ := combined_of_recon hs₁ h₁ hok₁
    obtain ⟨-, hlane₂, -⟩ := combined_of_recon hs₂ h₂ hok₂
    rw [hlane₁ k hk, hlane₂ k (hnumB ▸ hk), ← hnumK]
    exact interpolated_congr (fun i hi => hx i (by omega)) fun i hi => hy i (by omega)
  case verify =>
    obtain ⟨-, -, hlane₁, -⟩ := combined_of_verify hs₁ h₁ hcode₁
    obtain ⟨-, -, hlane₂, -⟩ := combined_of_verify hs₂ h₂ hcode₂
    rw [hlane₁ k hk, hlane₂ k (hnumB ▸ hk), ← hnumT]
    exact interpolated_congr (fun i hi => hx i (by omega)) fun i hi => hy i (by omega)

/-- Settles O37: the index checks stop VERIFY, and past them the combination's lanes are what it compares with row 0. -/
theorem verifyReconstructsAndCompares : Obligations.VerifyReconstructsAndCompares := by
  intro s hs hlegal
  refine ⟨fun hzero => ?zeroIndex, fun hnz hequal => ?equalIndices, fun hnz hd => ?combines⟩
  case zeroIndex => rw [FailsWith, exec_verify_of_legal hlegal, indexError_of_zeroIndex hzero]; rfl
  case equalIndices => rw [FailsWith, exec_verify_of_legal hlegal, indexError_of_equalIndices hnz hequal]; rfl
  case combines =>
    have hB := numB_le hlegal.1
    have hT : s.numT ≤ 255 := Nat.le_of_lt_succ s.cfgT.isLt
    have hcombined := combined_lagrangeCombine hs hB hT
    have hexec := (exec_verify_of_indices hlegal hnz hd).trans (compareSecret_eq _)
    simp only [secret_matches_iff hcombined (numB_lagrangeCombine ..) hB hT] at hexec
    refine ⟨_, hexec, hcombined, fun i => reg_congr ?_ i, lagrangeCombine_invz .., fun hmatch => ?success, fun hno => ?failure⟩
    · rw [complete_g, lagrangeCombine_eq]
    case success => rw [if_pos hmatch] at hexec ⊢; exact completed_of_exec hexec
    case failure => rw [if_neg hno] at hexec ⊢; exact completed_of_exec hexec

/-- Settles O39: past its checks RECON is the combination; with no slot the sum is empty, with one its weight is 0x01. -/
theorem reconInterpolatesAtZero : Obligations.ReconInterpolatesAtZero := by
  intro s hs hnz hd hlegal
  have hexec := exec_recon_of_legal hnz hd hlegal
  have hcombined := combined_of_recon hs hexec rfl
  refine ⟨_, hexec, completed_of_exec hexec, fun i => reg_congr ?_ i, lagrangeCombine_invz .., hcombined, fun h0 k hk => ?none,
    fun h1 => ⟨?weight, fun k hk => ?one⟩⟩
  · rw [complete_g, lagrangeCombine_eq]
  all_goals obtain ⟨hbasis, hlane, hpadding, -⟩ := hcombined
  case none =>
    by_cases hkB : k < s.numB
    · rw [hlane k hkB, h0, interpolated_zero]; rfl
    · exact hpadding k hk (Nat.le_of_not_lt hkB)
  case weight => rw [hbasis 0 (by omega), h1, lagrangeWeight_one]; rfl
  case one => rw [hlane k hk, h1, interpolated_one]

end Sys2Proof.Machine
end

section
/-! Proofs. Recovery (43_sharing.md R83; 44_recovery.md R85, R89): the bytes are a field of Mathlib's, whose sums, products and powers are
R11's and R61's, so a polynomial of degree below T is interpolated at 0 from T of its values; EVAL's shares are such values. -/

namespace Sys2Proof.Machine

open Host Polynomial

/-! ### Interpolation at zero, in any field -/

section
variable {F : Type} [Field F]

/-- The polynomial with these n coefficients (R81). -/
noncomputable def coefficientPolynomial (c : Nat → F) (n : Nat) : F[X] := ∑ j ∈ Finset.range n, C (c j) * X ^ j

theorem eval_coefficientPolynomial (c : Nat → F) (n : Nat) (x : F) :
    (coefficientPolynomial c n).eval x = ∑ j ∈ Finset.range n, c j * x ^ j := by
  simp [coefficientPolynomial, eval_finsetSum]

theorem eval_zero_coefficientPolynomial (c : Nat → F) {n : Nat} (hn : 0 < n) : (coefficientPolynomial c n).eval 0 = c 0 := by
  rw [eval_coefficientPolynomial, Finset.sum_eq_single_of_mem 0 (Finset.mem_range.mpr hn)]
  · simp
  · intro j _ hj
    simp [hj]

theorem degree_coefficientPolynomial_lt (c : Nat → F) (n : Nat) : (coefficientPolynomial c n).degree < n := by
  rw [coefficientPolynomial, ← Fin.sum_univ_eq_sum_range fun j => C (c j) * X ^ j]
  exact degree_sum_fin_lt fun j : Fin n => c j

/-- The basis polynomial of node i at 0 is R85's product over the other nodes. -/
theorem eval_zero_basis (x : Nat → F) (n i : Nat) : (Lagrange.basis (Finset.range n) x i).eval 0 =
    ∏ m ∈ (Finset.range n).filter (· ≠ i), x m * (x m - x i)⁻¹ := by
  rw [Lagrange.basis, eval_prod, Finset.filter_ne']
  refine Finset.prod_congr rfl fun m _ => ?_
  rw [Lagrange.basisDivisor, eval_mul, eval_C, eval_sub, eval_X, eval_C, zero_sub, mul_neg, ← neg_mul, ← inv_neg, neg_sub, mul_comm]

/-- A polynomial of degree below n takes at 0 the Lagrange combination of its values at n different points. -/
theorem sum_eval_mul_weight {n : Nat} (hn : 0 < n) (x c : Nat → F)
    (hx : Set.InjOn x (Finset.range n : Finset Nat)) :
    ∑ i ∈ Finset.range n, (∑ j ∈ Finset.range n, c j * x i ^ j) *
      ∏ m ∈ (Finset.range n).filter (· ≠ i), x m * (x m - x i)⁻¹ = c 0 := by
  have hdegree : (coefficientPolynomial c n).degree < (Finset.range n).card := by
    rw [Finset.card_range]
    exact degree_coefficientPolynomial_lt c n
  have h0 := congrArg (eval 0) (Lagrange.eq_interpolate hx hdegree)
  rw [eval_zero_coefficientPolynomial c hn, Lagrange.interpolate_apply, eval_finsetSum] at h0
  rw [h0]
  refine Finset.sum_congr rfl fun i _ => ?_
  rw [eval_mul, eval_C, eval_coefficientPolynomial, eval_zero_basis]

end

/-! ### The bytes as a field -/

/-- The bytes with `gadd` and `gmul`, each its own negative (R58 to R63). -/
abbrev byteField : Field Byte :=
  @Field.ofMinimalAxioms Byte ⟨gadd⟩ ⟨gmul⟩ ⟨id⟩ ⟨ginv⟩ ⟨0#8⟩ ⟨1#8⟩ BitVec.xor_assoc (fun _ => BitVec.zero_xor)
    (fun _ => BitVec.xor_self) gmul_assoc gmul_comm one_gmul (fun _ => gmul_ginv) ginv_zero gmul_xor_right ⟨0#8, 1#8, by decide⟩

theorem xorSum_eq_sum (n : Nat) (f : Nat → Byte) :
    xorSum n f = @Finset.sum Nat Byte byteField.toAddCommMonoid (Finset.range n) f := by
  rw [xorSum, ← List.foldr_map]; rfl

theorem fieldProduct_eq_prod (n i : Nat) (f : Nat → Byte) : fieldProduct ((List.range n).filter (· ≠ i)) f =
    @Finset.prod Nat Byte byteField.toCommMonoid ((Finset.range n).filter (· ≠ i)) f := by
  rw [fieldProduct, ← List.foldr_map]; rfl

theorem gexp_eq_npow (a : Byte) (e : Nat) : gexp a e = @NPow.npow Byte byteField.toMonoid.toNPow e a := by
  induction e with
  | zero => exact (@Monoid.npow_zero Byte byteField.toMonoid a).symm
  | succ e ih => rw [gexp_succ, ih]; exact (@Monoid.npow_succ Byte byteField.toMonoid e a).symm

/-- R85, R89: the Lagrange combination of a polynomial's values at n different bytes is its value at 0. -/
theorem xorSum_values_mul_weights {n : Nat} (hn : 0 < n) (x c : Nat → Byte) (hx : ∀ i < n, ∀ j < n, x i = x j → i = j) :
    (xorSum n fun i => gmul (xorSum n fun j => gmul (c j) (gexp (x i) j))
      (fieldProduct ((List.range n).filter (· ≠ i)) fun m => gmul (x m) (ginv (x m ^^^ x i)))) = c 0 := by
  have hinj : Set.InjOn x (Finset.range n : Finset Nat) := fun i hi j hj =>
    hx i (Finset.mem_range.mp hi) j (Finset.mem_range.mp hj)
  simp only [xorSum_eq_sum, fieldProduct_eq_prod, gexp_eq_npow]
  exact @sum_eval_mul_weight Byte byteField n hn x c hinj

/-! ### Shares of a secret -/

/-- The first T slots of `u` hold values of the lanes' polynomials of `s` at different indices. -/
structure HoldsShares (s u : State) : Prop where
  distinct : IndicesDistinct u s.numT
  values : ∀ i < s.numT, ∀ k < s.numB, u.byte (yAddr i k) = lanePolynomial s k (u.byte (xAddr i))

/-- R89's Correctness: T shares combine to the secret, lane by lane. -/
theorem HoldsShares.interpolated_eq {s u : State} (h : HoldsShares s u) (hT : 1 ≤ s.numT) {k : Nat} (hk : k < s.numB) :
    interpolated u s.numT k = s.byte (cAddr 0 k) := by
  rw [interpolated, xorSum_congr fun i hi => by rw [h.values i hi k hk]]
  exact xorSum_values_mul_weights hT (fun i => u.byte (xAddr i)) (fun j => s.byte (cAddr j k)) h.distinct

/-- The indices EVAL gives its slots are 1, 2, …, all nonzero and different (R82). -/
theorem evalIndex_false_toNat (s : State) {i : Nat} (hi : i < 255) : (s.evalIndex false i).toNat = i + 1 := by
  rw [State.evalIndex, if_neg Bool.false_ne_true, BitVec.toNat_ofNat]
  omega

section
variable {xs : Bool} {s t : State} (h : SlotsWritten xs s.numN s t)
include h

theorem SlotsWritten.index_ne_zero (hnz : xs = true → IndicesNonzero s s.numN) {i : Nat} (hi : i < s.numN) :
    t.byte (xAddr i) ≠ 0x00#8 := by
  have hN : s.numN < 256 := s.cfgN.isLt
  rw [h.index i hi]
  cases xs with
  | true => exact hnz rfl i hi
  | false =>
    intro h0
    have := evalIndex_false_toNat s (i := i) (by omega)
    rw [h0] at this
    cases this

end

theorem SlotsWritten.indices_distinct {s t : State} (h : SlotsWritten false s.numN s t) : IndicesDistinct t s.numN := by
  have hN : s.numN < 256 := s.cfgN.isLt
  intro i hi j hj hij
  rw [h.index i hi, h.index j hj] at hij
  have := congrArg BitVec.toNat hij
  rw [evalIndex_false_toNat s (by omega), evalIndex_false_toNat s (by omega)] at this
  omega

/-- Settles O40: the slots hold shares, whose indices pass RECON's checks. -/
theorem anyThresholdSharesRecoverSecret : Obligations.AnyThresholdSharesRecoverSecret := by
  refine ⟨fun xs s t u σ hs hu hlegal h hok hσ hdistinct hB hT hK hx hy => ?recovers, fun s t hs hlegal h => ?distinct⟩
  case recovers =>
    have hslots := slotsWritten_of_eval hs h hok
    obtain ⟨-, hnz⟩ := eval_checks_of_success h hok
    obtain ⟨hBmem, -, hT1, hTN⟩ := hlegal
    have hnumB : u.numB = s.numB := congrArg BitVec.toNat hB
    have hnumT : u.numT = s.numT := congrArg BitVec.toNat hT
    have hnumK : u.numK = s.numT := congrArg BitVec.toNat hK
    have hshares : HoldsShares s u := by
      refine ⟨fun i hi j hj hij => hdistinct i hi j hj (by rw [← hx i hi, ← hx j hj, hij]), fun i hi k hk => ?_⟩
      rw [hy i hi k hk, hx i hi, hslots.lane _ (hσ i hi) k hk, hslots.index _ (hσ i hi)]
    have hnonzero : IndicesNonzero u u.numK := fun i hi => by
      rw [hx i (hnumK ▸ hi)]
      exact hslots.index_ne_zero hnz (hσ i (hnumK ▸ hi))
    have hrecovery : RecoveryLegal u := ⟨hnumB ▸ hBmem, fun _ => by omega⟩
    have hexec := exec_recon_of_legal hnonzero (hnumK ▸ hshares.distinct) hrecovery
    obtain ⟨-, hlane, -⟩ := combined_of_recon hu hexec rfl
    refine ⟨_, hexec, rfl, fun k hk => ?_⟩
    rw [hlane k (hnumB ▸ hk), hnumK, hshares.interpolated_eq hT1 hk]
  case distinct =>
    cases (exec_eval_of_indices (xs := false) hlegal nofun).symm.trans h
    exact ⟨rfl, (slotsWritten_of_eval hs h rfl).indices_distinct⟩

/-- Settles O41: VERIFY combines slots 0..T-1, which hold shares of row 0, and so finds row 0. -/
theorem verifyAfterEvalSucceeds : Obligations.VerifyAfterEvalSucceeds := by
  intro s t hs hlegal h
  obtain ⟨-, evalCompletes⟩ := anyThresholdSharesRecoverSecret
  obtain ⟨hok, -⟩ := evalCompletes s t hs hlegal h
  have hslots := slotsWritten_of_eval hs h hok
  obtain ⟨-, -, -, -, -, -, hcfgB, hcfgN, hcfgT, -⟩ := completed_of_exec h
  obtain ⟨hBmem, hN1, hT1, hTN⟩ := hlegal
  have hnumB : t.numB = s.numB := congrArg BitVec.toNat hcfgB
  have hnumN : t.numN = s.numN := congrArg BitVec.toNat hcfgN
  have hnumT : t.numT = s.numT := congrArg BitVec.toNat hcfgT
  have hshares : HoldsShares s t := by
    refine ⟨fun i hi j hj => hslots.indices_distinct i (by omega) j (by omega), fun i hi k hk => ?_⟩
    rw [hslots.lane i (by omega) k hk, hslots.index i (by omega)]
  have hlegal' : SharingLegal t := ⟨hnumB ▸ hBmem, hnumN ▸ hN1, hnumT ▸ hT1, by omega⟩
  have hnonzero : IndicesNonzero t t.numT := fun i hi => hslots.index_ne_zero nofun (by omega)
  have hsecret : ∀ k < t.numB, t.byte (cAddr 0 k) = s.byte (cAddr 0 k) := fun k hk => by
    have hB := numB_le hBmem
    have hN : s.numN < 256 := s.cfgN.isLt
    exact hslots.frame _ (by unfold InSlots xAddr yAddr cAddr; omega)
  have hrecovered : ∀ k < t.numB, interpolated t t.numT k = s.byte (cAddr 0 k) := fun k hk => by
    rw [hnumT, hshares.interpolated_eq hT1 (hnumB ▸ hk)]
  obtain ⟨-, -, verifies⟩ := verifyReconstructsAndCompares t hslots.wf hlegal'
  obtain ⟨u, hu, ⟨-, hlane, -⟩, -, -, hsuccess, -⟩ := verifies hnonzero (hnumT ▸ hshares.distinct)
  obtain ⟨herr, -⟩ := hsuccess fun k hk => (hrecovered k hk).trans (hsecret k hk).symm
  exact ⟨u, hu, herr, fun k hk => (hlane k (hnumB ▸ hk)).trans (hrecovered k (hnumB ▸ hk))⟩

end Sys2Proof.Machine
end
